-- ==== Sys2Proof/Word.lean ====
section
/-! DEFINITION. The word types of `GRP` and the one arithmetic shorthand every layer uses. -/

namespace Sys2Proof

/-- A stored pixel, a stream byte, an 8-bit register (10_state.md, 30_encoding.md R71). -/
abbrev Byte := BitVec 8

/-- A word of the register interface (10_state.md R14). -/
abbrev Word := BitVec 32

/-- `ceil8(n) = (n + 7) div 8` (00_scope.md R7). -/
def ceil8 (n : Nat) : Nat := (n + 7) / 8

/-- The greatest value of a 32-bit register, where counters saturate (10_state.md R12, R29, R34). -/
def maxWord : Nat := 4294967295

end Sys2Proof
end

