-- ==== Sys2Proof/Config.lean ====
section
/-! DEFINITION. What is fixed for one machine (sizes, addresses, the Bayer ROM) and the free values, which have no body. -/

namespace Sys2Proof

/-- The three writable memories (10_state.md R31 to R33). -/
inductive MemId where
  | img
  | fb
  | ps
  deriving DecidableEq, Repr

/-- Line buffer capacity (00_scope.md R6, 30_encoding.md R66). -/
def lineMax : Nat := 32768

/-- `ID` (10_state.md R15). -/
def idWord : Word := 0x484D0007

/-- Capacity in bytes of each memory (10_state.md R31 to R33, 20_memory.md R40). -/
def MemId.capacity : MemId → Nat
  | .img => 65025
  | .fb => 8160
  | .ps => 65025

/-- Host byte address at which each memory's window begins (20_memory.md R40). -/
def MemId.base : MemId → Nat
  | .img => 0x10000
  | .fb => 0x20000
  | .ps => 0x30000

/-- Host byte address of the `BAYER` window (20_memory.md R40). -/
def bayerBase : Nat := 0x40000

/-- The register space is `0x00000` to `0x000FF` (20_memory.md R40). -/
def regSpace : Nat := 0x100

/-- The configuration of one machine: the content of the Bayer ROM (10_state.md R25; a parameter by
93_implementation_defined.md U3). -/
structure Config where
  bayerRom : Vector Byte 64
  deriving DecidableEq, Repr

/-- The default ROM: the table of 10_state.md R25, row `y mod 8` top to bottom, column `x mod 8` left to right.
PRESUMED (log 4): the spec itself marks these values as from general knowledge. -/
def Config.standard : Config where
  bayerRom :=
    #v[0, 130, 32, 162, 8, 138, 40, 170,
       194, 65, 227, 97, 202, 73, 235, 105,
       49, 178, 16, 146, 57, 186, 24, 154,
       243, 113, 210, 81, 251, 121, 219, 89,
       12, 142, 45, 174, 4, 134, 36, 166,
       206, 77, 239, 109, 198, 69, 231, 101,
       61, 190, 28, 158, 53, 182, 20, 150,
       255, 125, 223, 93, 247, 117, 215, 85]

/-- FREE VALUE (log 3): the byte that memory `m` holds at offset `a` after the `n`th power-on, where nothing has written it
(10_state.md R37 "returning any value"). -/
opaque Config.powerOnByte : (n : Nat) → (m : MemId) → (a : Nat) → Byte

/-- FREE VALUE (log 6): the field a read of the write-only `CS_IN_DATA` returns after `n` writes to it. -/
opaque Config.csInDataRead : (n : Nat) → Byte

/-- FREE VALUE (log 7): what `CS_IN_LEVEL` reads when `n` bytes are queued and `n` does not fit 32 bits. -/
opaque Config.csInLevelWide : (n : Nat) → Word

end Sys2Proof
end

