-- ==== Sys2Proof/Syntax.lean ====
section
/-! DEFINITION. The instructions of `GRP`: one constructor per row of the opcode table. -/

namespace Sys2Proof

/-- The six commands of the stream (30_encoding.md R73) and the five host operations (30_encoding.md R79). -/
inductive Instr where
  /-- `CLEAR`, format Z (42_decoder.md R131). -/
  | clear
  /-- `WHITEOUT`, format Z (42_decoder.md R132). -/
  | whiteout
  /-- `TILE`, format T (30_encoding.md R68): the two reserved bytes are carried, so that no byte of the line is lost. -/
  | tile (x y res0 res1 w h : Byte) (payload : List Byte)
  /-- `RECT`, format R (30_encoding.md R69). -/
  | rect (x1 y1 x2 y2 color : Byte)
  /-- `ENDLAYER`, format Z (42_decoder.md R135). -/
  | endLayer
  /-- `DELAY`, format D (30_encoding.md R70). -/
  | delay (ms : Word)
  /-- `QUANTIZE`, `CTRL.OP = 1` (43_host_ops.md R161). -/
  | quantize
  /-- `ENCODE`, `CTRL.OP = 2` (43_host_ops.md R162). -/
  | encode
  /-- `DEC_STEP`, `CTRL.OP = 3` (43_host_ops.md R163). -/
  | decStep
  /-- `DEC_RUN`, `CTRL.OP = 4` (43_host_ops.md R164). -/
  | decRun
  /-- `DEC_RESET`, `CTRL.OP = 5` (43_host_ops.md R165). -/
  | decReset
  deriving DecidableEq, Repr

/-- The commands of the stream, as opposed to the host operations (00_scope.md R1). -/
def Instr.isCommand : Instr → Bool
  | .clear | .whiteout | .tile .. | .rect .. | .endLayer | .delay _ => true
  | .quantize | .encode | .decStep | .decRun | .decReset => false

end Sys2Proof
end

