-- ==== Sys2Proof/WellFormed.lean ====
section
/-! DEFINITION. Which terms of `Instr` an encoding of the spec denotes. -/

namespace Sys2Proof

/-- The payload of a tile is `h` rows of `ceil8(w)` bytes (30_encoding.md R68). -/
def tilePayloadFits (w h : Byte) (payload : List Byte) : Bool :=
  payload.length == h.toNat * ceil8 w.toNat

/-- The colours `0x00` and `0x01`; `0x02` to `0xFF` are reserved (30_encoding.md R69). -/
def colorLegal (color : Byte) : Bool := color.toNat ≤ 1

/-- An instruction is well formed when some encoding of the spec denotes it. -/
def Instr.wellFormed : Instr → Bool
  | .clear => true
  | .whiteout => true
  | .tile _ _ _ _ w h payload => tilePayloadFits w h payload
  | .rect _ _ _ _ color => colorLegal color
  | .endLayer => true
  | .delay _ => true
  | .quantize => true
  | .encode => true
  | .decStep => true
  | .decRun => true
  | .decReset => true

end Sys2Proof
end

