-- ==== Sys2Proof/Decode.lean ====
section
/-! DEFINITION. The decoder (stream lines, 30_encoding.md R60 to R77; `CTRL` words, R79), the taking of command lines from a
queue (43_host_ops.md R163), and the encoder in the canonical text of R76. -/

namespace Sys2Proof

/-! ## Characters -/

/-- LF ends a line (30_encoding.md R60). -/
def lf : Byte := 0x0A

/-- CR, removed once from the end of a line (30_encoding.md R61). -/
def cr : Byte := 0x0D

/-- `#` begins a comment line (30_encoding.md R62). -/
def hash : Byte := 0x23

/-- The separator of the canonical text (30_encoding.md R76). -/
def space : Byte := 0x20

/-- Space and tab (30_encoding.md R61, R63). -/
def isBlank (c : Byte) : Bool := c == 0x20 || c == 0x09

/-- The bytes of `DELAY` (30_encoding.md R62). -/
def delayKeyword : List Byte := [0x44, 0x45, 0x4C, 0x41, 0x59]

/-- The value of a hexadecimal digit of either case (30_encoding.md R63). -/
def hexDigit (c : Byte) : Option Nat :=
  if 48 ≤ c.toNat ∧ c.toNat ≤ 57 then some (c.toNat - 48)
  else if 65 ≤ c.toNat ∧ c.toNat ≤ 70 then some (c.toNat - 55)
  else if 97 ≤ c.toNat ∧ c.toNat ≤ 102 then some (c.toNat - 87)
  else none

/-- The value of a decimal digit (30_encoding.md R70). -/
def decDigit (c : Byte) : Option Nat :=
  if 48 ≤ c.toNat ∧ c.toNat ≤ 57 then some (c.toNat - 48) else none

/-! ## Causes of a decoder fault -/

/-- The causes of a decoder fault (60_exceptions.md R181). The first six are found by the decoder; `outOfPanel` is found by
`TILE` and `RECT` as they execute (42_decoder.md R130). -/
inductive LineError where
  | badToken
  | unknownOpcode
  | badByteCount
  | badDelay
  | badColor
  | overLong
  | outOfPanel
  deriving DecidableEq, Repr

/-- The 8-bit cause codes (60_exceptions.md R181). -/
def LineError.code : LineError → Byte
  | .badToken => 0x31
  | .unknownOpcode => 0x32
  | .badByteCount => 0x33
  | .badDelay => 0x34
  | .badColor => 0x35
  | .overLong => 0x36
  | .outOfPanel => 0x41

/-! ## One line -/

/-- Step (2) of the pre-processing: one trailing CR is removed (30_encoding.md R61). -/
def dropCr (l : List Byte) : List Byte :=
  if l.getLast? = some cr then l.dropLast else l

/-- Step (3) of the pre-processing: leading and trailing blanks are removed (30_encoding.md R61). -/
def trimBlanks (l : List Byte) : List Byte :=
  ((l.dropWhile isBlank).reverse.dropWhile isBlank).reverse

/-- The text of a line that is not over-long (30_encoding.md R61). -/
def lineText (l : List Byte) : List Byte := trimBlanks (dropCr l)

/-- Cut at every single blank; two blanks in a row leave an empty piece between them. -/
def cutAtBlanks : List Byte → List (List Byte)
  | [] => [[]]
  | c :: cs =>
    match cutAtBlanks cs with
    | [] => [[]]
    | t :: ts => if isBlank c then [] :: t :: ts else (c :: t) :: ts

/-- The tokens of a hex line: cut at every run of blanks (30_encoding.md R63). -/
def tokens (text : List Byte) : List (List Byte) :=
  (cutAtBlanks text).filter (fun t => !t.isEmpty)

/-- A token is exactly two hexadecimal digits and denotes `16*hi + lo` (30_encoding.md R63). -/
def tokenByte : List Byte → Option Byte
  | [hi, lo] =>
    match hexDigit hi, hexDigit lo with
    | some a, some b => some (BitVec.ofNat 8 (16 * a + b))
    | _, _ => none
  | _ => none

/-- The byte list of a hex line, or none where any token is bad (30_encoding.md R63). -/
def tokenBytes : List (List Byte) → Option (List Byte)
  | [] => some []
  | t :: ts =>
    match tokenByte t, tokenBytes ts with
    | some b, some bs => some (b :: bs)
    | _, _ => none

/-- The command a byte list denotes: opcode, byte count, colour, in this order (42_decoder.md R130, 30_encoding.md R67 to R69,
R73, R74). A hex line has at least one token (30_encoding.md R63), so the empty list does not occur (log 16). -/
def decodeBytes : List Byte → Except LineError Instr
  | [] => .error .badByteCount
  | op :: args =>
    if op = 0x01 then (if args = [] then .ok .clear else .error .badByteCount)
    else if op = 0x02 then (if args = [] then .ok .whiteout else .error .badByteCount)
    else if op = 0x05 then (if args = [] then .ok .endLayer else .error .badByteCount)
    else if op = 0x03 then
      match args with
      | x :: y :: res0 :: res1 :: w :: h :: payload =>
        if tilePayloadFits w h payload then .ok (.tile x y res0 res1 w h payload) else .error .badByteCount
      | _ => .error .badByteCount
    else if op = 0x04 then
      match args with
      | [x1, y1, x2, y2, color] =>
        if colorLegal color then .ok (.rect x1 y1 x2 y2 color) else .error .badColor
      | _ => .error .badByteCount
    else .error .unknownOpcode

/-- The value of a string of decimal digits, most significant first; none if a character is no digit (30_encoding.md R70). -/
def decimalFrom (acc : Nat) : List Byte → Option Nat
  | [] => some acc
  | c :: cs =>
    match decDigit c with
    | some d => decimalFrom (10 * acc + d) cs
    | none => none

/-- What follows the keyword of a Delay line: one or more blanks, one to ten digits, a value of at most 2^32-1, and nothing
else (30_encoding.md R70). -/
def decodeDelay (rest : List Byte) : Except LineError Instr :=
  match rest with
  | [] => .error .badDelay
  | c :: _ =>
    if isBlank c then
      let digits := rest.dropWhile isBlank
      if digits.length = 0 ∨ 10 < digits.length then .error .badDelay
      else
        match decimalFrom 0 digits with
        | some ms => if ms ≤ maxWord then .ok (.delay (BitVec.ofNat 32 ms)) else .error .badDelay
        | none => .error .badDelay
    else .error .badDelay

/-- What a line is (30_encoding.md R62). -/
inductive LineResult where
  | ignored
  | error (e : LineError)
  | command (i : Instr)
  deriving DecidableEq, Repr

/-- A decoded byte list or Delay count, as the result of its line. -/
def LineResult.ofExcept : Except LineError Instr → LineResult
  | .ok i => .command i
  | .error e => .error e

/-- The class and meaning of a text, first match wins (30_encoding.md R62). -/
def decodeText (text : List Byte) : LineResult :=
  match text with
  | [] => .ignored
  | c :: _ =>
    if c = hash then .ignored
    else if text.take 5 = delayKeyword then .ofExcept (decodeDelay (text.drop 5))
    else
      match tokenBytes (tokens text) with
      | some bytes => .ofExcept (decodeBytes bytes)
      | none => .error .badToken

/-- A whole line, without its LF (30_encoding.md R61, R62, R66). -/
def decodeLine (raw : List Byte) : LineResult :=
  if lineMax < raw.length then .error .overLong else decodeText (lineText raw)

/-! ## A `CTRL` word -/

/-- The operation in bits 3:0 of a word written to `CTRL`; 0 and 6 to 15 are reserved (30_encoding.md R79). -/
def decodeCtrl (word : Word) : Option Instr :=
  match word.toNat % 16 with
  | 1 => some .quantize
  | 2 => some .encode
  | 3 => some .decStep
  | 4 => some .decRun
  | 5 => some .decReset
  | _ => none

/-! ## Both kinds of code -/

/-- The two forms an instruction has in the machine: a line of the stream, without its LF, or a word written to `CTRL`. -/
inductive Code where
  | line (raw : List Byte)
  | ctrl (word : Word)
  deriving DecidableEq, Repr

/-- Why a code denotes no instruction. -/
inductive Reject where
  | blankOrComment
  | faulty (e : LineError)
  | reservedOp (op : Nat)
  deriving DecidableEq, Repr

/-- The instruction a code denotes, or the reason it denotes none. -/
def decode : Code → Except Reject Instr
  | .line raw =>
    match decodeLine raw with
    | .ignored => .error .blankOrComment
    | .error e => .error (.faulty e)
    | .command i => .ok i
  | .ctrl word =>
    match decodeCtrl word with
    | some i => .ok i
    | none => .error (.reservedOp (word.toNat % 16))

/-! ## Taking the next command line from a queue -/

/-- How a search of the queue for a command line ended. -/
inductive Found where
  | idle
  | error (e : LineError)
  | command (i : Instr)
  deriving DecidableEq, Repr

/-- The outcome of a search: the lines consumed, the bytes left, and what was found. -/
structure Fetched where
  lines : Nat
  rest : List Byte
  found : Found
  deriving DecidableEq, Repr

/-- One ignored line was consumed before this outcome (43_host_ops.md R163). -/
def Fetched.afterIgnored (f : Fetched) : Fetched := { f with lines := f.lines + 1 }

/-- The loop of `DEC_STEP` (43_host_ops.md R163) over the bytes of the queue, read byte by byte in queue order (20_memory.md
R43): `cur` holds the bytes of the current line, latest first. Blank and comment lines are consumed and passed over; the bytes
after the last LF stay (10_state.md R36). -/
def fetchFrom (cur : List Byte) : List Byte → Fetched
  | [] => { lines := 0, rest := cur.reverse, found := .idle }
  | c :: cs =>
    if c = lf then
      match decodeLine cur.reverse with
      | .ignored => (fetchFrom [] cs).afterIgnored
      | .error e => { lines := 1, rest := cs, found := .error e }
      | .command i => { lines := 1, rest := cs, found := .command i }
    else fetchFrom (c :: cur) cs

/-- The next command line of a queue, good or faulted (43_host_ops.md R163). -/
def fetchLine (queue : List Byte) : Fetched := fetchFrom [] queue

/-! ## The encoder -/

/-- An upper-case hexadecimal digit (30_encoding.md R76). -/
def hexChar (n : Nat) : Byte := if n < 10 then BitVec.ofNat 8 (48 + n) else BitVec.ofNat 8 (55 + n)

/-- A byte as two hexadecimal digits, high nibble first (30_encoding.md R76, 20_memory.md R43). -/
def hexByte (b : Byte) : List Byte := [hexChar (b.toNat / 16), hexChar (b.toNat % 16)]

/-- Bytes separated by exactly one space (30_encoding.md R76). -/
def hexLine : List Byte → List Byte
  | [] => []
  | [b] => hexByte b
  | b :: b' :: bs => hexByte b ++ space :: hexLine (b' :: bs)

/-- The last `fuel` decimal digits of `n`, without leading zeros. -/
def decimalDigits : (fuel n : Nat) → List Byte
  | 0, _ => []
  | fuel + 1, n =>
    if n < 10 then [BitVec.ofNat 8 (48 + n)] else decimalDigits fuel (n / 10) ++ [BitVec.ofNat 8 (48 + n % 10)]

/-- A 32-bit count in decimal, no leading zeros, `0` for zero (30_encoding.md R76); 2^32-1 has ten digits. -/
def decimal (n : Word) : List Byte := decimalDigits 10 n.toNat

/-- The byte list of a hex line that denotes a command (30_encoding.md R67 to R69, R73). -/
def commandBytes : Instr → List Byte
  | .clear => [0x01]
  | .whiteout => [0x02]
  | .tile x y res0 res1 w h payload => 0x03 :: x :: y :: res0 :: res1 :: w :: h :: payload
  | .rect x1 y1 x2 y2 color => [0x04, x1, y1, x2, y2, color]
  | .endLayer => [0x05]
  | .delay _ => []
  | .quantize => []
  | .encode => []
  | .decStep => []
  | .decRun => []
  | .decReset => []

/-- The canonical text of a command (30_encoding.md R76). -/
def commandText : Instr → List Byte
  | .delay ms => delayKeyword ++ space :: decimal ms
  | i => hexLine (commandBytes i)

/-- A command as the bytes `emit` appends: its text and LF (00_scope.md R8). -/
def commandLine (i : Instr) : List Byte := commandText i ++ [lf]

/-- The code of an instruction: the canonical line of a command, the `CTRL` word of a host operation (30_encoding.md R76,
R79). -/
def encode : Instr → Code
  | .quantize => .ctrl 1
  | .encode => .ctrl 2
  | .decStep => .ctrl 3
  | .decRun => .ctrl 4
  | .decReset => .ctrl 5
  | i => .line (commandText i)

/-! ## The host's table words (log 2) -/

/-- How many bytes a line beginning with these bytes must hold, absent ones read as zero (30_encoding.md R67 to R69, R75). -/
def lineLength (bytes : List Byte) : Nat :=
  if bytes.getD 0 0 = 0x03 then 7 + (bytes.getD 6 0).toNat * ceil8 (bytes.getD 5 0).toNat
  else if bytes.getD 0 0 = 0x04 then 6
  else 1

/-- The bytes of a hex line whose first `nbits` bits are `w`, first byte in the low bits, followed by zero bytes up to the
length its opcode asks for. -/
def tableBytes (nbits w : Nat) : List Byte :=
  let given := (List.range (nbits / 8)).map (fun k => BitVec.ofNat 8 (w / 256 ^ k))
  given ++ List.replicate (lineLength given - given.length) 0

/-- The code that a row of the opcode table with `nbits` numbered bits `w` stands for (log 2): a row with no numbered bits is
`DELAY`, a row of less than one byte or of one whole 32-bit word is a `CTRL` word, any other row is a hex line. -/
def tableCode (nbits w : Nat) : Code :=
  if nbits = 0 then .line (commandText (.delay 0))
  else if nbits < 8 ∨ nbits = 32 then .ctrl (BitVec.ofNat 32 w)
  else .line (hexLine (tableBytes nbits w))

/-- What the decoder reads from a table word. -/
def decodeTableWord (nbits w : Nat) : Option Instr :=
  match decode (tableCode nbits w) with
  | .ok i => some i
  | .error _ => none

end Sys2Proof
end

