-- ==== Sys2Proof/Machine/State.lean ====
section
/-! DEFINITION. The state of `GRP` (10_state.md), the ways a step can stop, and the state after reset. -/

namespace Sys2Proof.Machine

/-- The bytes of one memory that something has written, by offset, offsets strictly rising. An offset that is not listed has
not been written since power-on (10_state.md R37). -/
abbrev Memory := List Host.Cell

/-- The canonical form of a memory: offsets strictly rise. An unlisted offset holds no written byte, so no entry equals what
an unlisted offset reads as. -/
abbrev Memory.wf (m : Memory) : Prop := m.Pairwise (fun c d => c.1 < d.1)

/-- One record of the diagnostics log (10_state.md R29). -/
structure DiagRecord where
  line : Word
  code : Byte
  deriving DecidableEq, Repr

/-- What the host can do to the block, one at a time (43_host_ops.md R168, 20_memory.md R40, R41, R52). -/
inductive HostAction where
  /-- Write a datum at a host byte address: a whole register word below `0x100`, else one byte (log 8). -/
  | write (addr : Nat) (datum : Word)
  /-- Read at a host byte address. -/
  | read (addr : Nat)
  /-- Hardware reset (70_reset_and_hazards.md R210). -/
  | reset
  /-- Ask the next `DEC_RUN` to stop after this many command lines (43_host_ops.md R164, log 5). -/
  | askStop (commandLines : Nat)
  deriving DecidableEq, Repr

/-- The state of the block. The fields from `hostQ` on are the model's own (INVENTORY.md, State). -/
structure State where
  /-- The configuration; no step writes it (log 4). -/
  cfg : Config
  /-- `PANEL_W` (R16). -/
  panelW : BitVec 8
  /-- `PANEL_H` (R16). -/
  panelH : BitVec 8
  /-- `TILE_SIZE` (R17). -/
  tileSize : BitVec 8
  /-- `LEVEL_COUNT` (R18). -/
  levelCount : BitVec 5
  /-- `MODE` (R19). -/
  mode : BitVec 8
  /-- `CONTRAST` (R20). -/
  contrast : BitVec 16
  /-- `STRENGTH` (R21). -/
  strength : BitVec 9
  /-- `GRAY_STEP` (R22). -/
  grayStep : BitVec 8
  /-- `DELAY_MS` (R23). -/
  delayMs : Word
  /-- `LEVELS[0..15]` (R24). -/
  levels : Vector Byte 16
  /-- `STATUS.CFG_ERR` (R13). -/
  cfgErr : Bool
  /-- `STATUS.DEC_IDLE` (R13). -/
  decIdle : Bool
  /-- `ERR_CODE` (R28). -/
  errCode : BitVec 8
  /-- `LINE_NO` (R12, R30). -/
  lineNo : Word
  /-- `DIAG`, oldest record first (R29). -/
  diag : List DiagRecord
  /-- `DIAG_INDEX` (R29). -/
  diagIndex : Word
  /-- `IMG` (R31). -/
  img : Memory
  /-- `FB` (R32). -/
  fb : Memory
  /-- `PS` (R33). -/
  ps : Memory
  /-- `CS_OUT`, head first (R34). -/
  csOut : List Byte
  /-- `CS_IN`, head first (R35, R36). -/
  csIn : List Byte
  /-- The host's actions still to come, next one first (log 1). -/
  hostQ : List HostAction
  /-- The word the host's last read returned (log 10). -/
  hostData : Word
  /-- The host's stop request for the next `DEC_RUN` (log 5). -/
  stopAfter : Option Nat
  /-- How many hardware resets there have been: indexes the free content of unwritten memory (log 3, log 11). -/
  powerOns : Nat
  /-- How many times `CS_IN_DATA` has been written: indexes the free value a read of it gives (log 6). -/
  csInWrites : Nat
  deriving DecidableEq, Repr

/-- How the machine stops. No error of the spec stops it (60_exceptions.md R185, R190), so no instruction raises one. -/
inductive Fault where
  /-- Raised by `step`, never by `exec`: the host's next action is a register access at an offset that is not a multiple of 4,
  which "does not exist in the interface" (20_memory.md R49). Safe: the model stops where no host can be (log 9). -/
  | noSuchRegisterAccess (addr : Nat)
  deriving DecidableEq, Repr

/-- What the model has no meaning for. -/
inductive Refusal where
  /-- Raised by an arm of `exec` whose instruction has no meaning yet; no arm does. Safe. -/
  | notModelled (mnemonic : String)
  deriving DecidableEq, Repr

/-- The block right after hardware reset (10_state.md R37): the registers at the table's values, the queues and the log empty,
no byte of a memory written. -/
def State.reset : State where
  cfg := Config.standard
  panelW := 250
  panelH := 122
  tileSize := 32
  levelCount := 16
  mode := 0
  contrast := 0x0100
  strength := 256
  grayStep := 17
  delayMs := 1000
  levels := #v[0, 17, 34, 51, 68, 85, 102, 119, 136, 153, 170, 187, 204, 221, 238, 255]
  cfgErr := false
  decIdle := false
  errCode := 0
  lineNo := 0
  diag := []
  diagIndex := 0
  img := []
  fb := []
  ps := []
  csOut := []
  csIn := []
  hostQ := []
  hostData := 0
  stopAfter := none
  powerOns := 0
  csInWrites := 0

end Sys2Proof.Machine
end

