-- ==== Sys2Proof/Machine/Ops.lean ====
section
/-! DEFINITION. The named operations on memories, queues and the log, and the two ways an error is taken
(60_exceptions.md R185, R190). -/

namespace Sys2Proof.Machine

/-! ## Exact arithmetic (00_scope.md R7) -/

/-- The arithmetic right shift `a >>a n`, which is `a div 2^n` for negative `a` too. -/
def asr (a : Int) (n : Nat) : Int := a / 2 ^ n

/-- `clamp255(v)`. -/
def clamp255 (v : Int) : Int := if v < 0 then 0 else if 255 < v then 255 else v

/-- The stored byte of a value in 0..255. -/
def toByte (v : Int) : Byte := BitVec.ofNat 8 v.toNat

/-! ## Memories -/

/-- The byte written at offset `a`, or none where nothing has been written. -/
def Memory.lookup : Memory → Nat → Option Byte
  | [], _ => none
  | c :: m, a => if c.1 = a then some c.2 else Memory.lookup m a

/-- Write one byte, in canonical form. -/
def Memory.store : Memory → Nat → Byte → Memory
  | [], a, v => [(a, v)]
  | c :: m, a, v =>
    if a < c.1 then (a, v) :: c :: m
    else if a = c.1 then (a, v) :: m
    else c :: Memory.store m a v

/-- Every offset `a < n` for which `f a` is a byte gets that byte, all at once; every other offset keeps what it holds. -/
def Memory.update (n : Nat) (f : Nat → Option Byte) (m : Memory) : Memory :=
  (List.range n).filterMap (fun a => ((f a).or (m.lookup a)).map (fun v => (a, v))) ++ m.filter (fun c => decide (n ≤ c.1))

/-- Every offset `a < n` gets the byte `v`. -/
def Memory.fill (n : Nat) (v : Byte) (m : Memory) : Memory := m.update n (fun _ => some v)

/-- The byte at offset `a` of a memory with content `m` in power-on period `n`: what was last written there, or the free value
where nothing was (10_state.md R37). -/
def Memory.read (n : Nat) (k : MemId) (m : Memory) (a : Nat) : Byte :=
  (m.lookup a).getD (Config.powerOnByte n k a)

/-- The content of one of the three memories. -/
def State.mem (s : State) : MemId → Memory
  | .img => s.img
  | .fb => s.fb
  | .ps => s.ps

/-- The byte at offset `a` of a memory: `IMG[a]`, `FB[a]`, `PS[a]` (00_scope.md R8). -/
def State.readMem (s : State) (k : MemId) (a : Nat) : Byte := (s.mem k).read s.powerOns k a

/-- Replace the content of one memory. -/
def State.setMem (s : State) (k : MemId) (m : Memory) : State :=
  match k with
  | .img => { s with img := m }
  | .fb => { s with fb := m }
  | .ps => { s with ps := m }

/-! ## Taking an error -/

/-- The causes of a ConfigurationError (60_exceptions.md R181). -/
inductive ConfigError where
  | dimensions
  | tileSize
  | levelCount
  | levels
  | mode
  deriving DecidableEq, Repr

/-- The codes of a ConfigurationError (60_exceptions.md R181). -/
def ConfigError.code : ConfigError → Byte
  | .dimensions => 0x11
  | .tileSize => 0x12
  | .levelCount => 0x13
  | .levels => 0x14
  | .mode => 0x15

/-- `raise ConfigurationError(code)`: `CFG_ERR` and `ERR_CODE` are set and nothing else changes (60_exceptions.md R185). -/
def State.raiseConfig (e : ConfigError) (s : State) : State := { s with cfgErr := true, errCode := e.code }

/-- The return from a ConfigurationError: an operation whose check passes clears `CFG_ERR` and `ERR_CODE` (60_exceptions.md
R186, 43_host_ops.md R166). -/
def State.clearConfig (s : State) : State := { s with cfgErr := false, errCode := 0 }

/-- `raise DecodeLineError(code)` and `raise BoundsViolation(code)`: one record is appended to `DIAG`, and nothing else changes
(60_exceptions.md R190). `DIAG_COUNT` is the length of the log (log 12). -/
def State.logDiag (e : LineError) (s : State) : State := { s with diag := s.diag ++ [{ line := s.lineNo, code := e.code }] }

/-! ## Queues and counters -/

/-- `n` more, saturating at 2^32-1 (10_state.md R12). -/
def satAdd (w : Word) (n : Nat) : Word := BitVec.ofNat 32 (min (w.toNat + n) maxWord)

/-- A natural number as a saturating 32-bit register shows it (10_state.md R29, R34). -/
def satWord (n : Nat) : Word := BitVec.ofNat 32 (min n maxWord)

/-- `n` lines are removed from the head of `CS_IN`, `rest` being what is left, and counted in `LINE_NO` (10_state.md R12). -/
def State.takeLines (n : Nat) (rest : List Byte) (s : State) : State :=
  { s with csIn := rest, lineNo := satAdd s.lineNo n }

/-- `STATUS.DEC_IDLE` is set or cleared (10_state.md R13). -/
def State.setIdle (idle : Bool) (s : State) : State := { s with decIdle := idle }

/-- Bytes are appended to the tail of `CS_OUT` (10_state.md R34). -/
def State.appendOut (bytes : List Byte) (s : State) : State := { s with csOut := s.csOut ++ bytes }

/-- The host's next action is taken: `rest` is what is still to come (log 1). -/
def State.setHostQ (rest : List HostAction) (s : State) : State := { s with hostQ := rest }

/-- The host's last read returned `w` (log 10). -/
def State.setHostData (w : Word) (s : State) : State := { s with hostData := w }

/-- The host's stop request (log 5). -/
def State.setStop (n : Option Nat) (s : State) : State := { s with stopAfter := n }

end Sys2Proof.Machine
end

