-- ==== Sys2Proof/Machine/Operands.lean ====
section
/-! DEFINITION. Where operands come from (10_state.md R10): the framebuffer's addressing function, the bits of a tile's payload,
the level table and its thresholds, the Bayer ROM. -/

namespace Sys2Proof.Machine

/-! ## Panel and row-major addressing -/

/-- `W` (00_scope.md section 7). -/
def State.width (s : State) : Nat := s.panelW.toNat

/-- `H` (00_scope.md section 7). -/
def State.height (s : State) : Nat := s.panelH.toNat

/-- `LB = ceil8(H)` (20_memory.md R45, 90_conflicts.md C2). -/
def State.lineBytes (s : State) : Nat := ceil8 s.height

/-- `y*W + x`, the offset of a pixel of `IMG` and `PS` (20_memory.md R42). -/
def State.pixelOffset (s : State) (x y : Nat) : Nat := y * s.width + x

/-! ## The rotation mapping (20_memory.md R44) -/

/-- `rotatedRow = W - 1 - x`. -/
def State.rotatedRow (s : State) (x : Nat) : Nat := s.width - 1 - x

/-- `byteIndex = rotatedRow * LB + (rotatedCol >> 3)`, `rotatedCol = y`. -/
def State.byteIndex (s : State) (x y : Nat) : Nat := s.rotatedRow x * s.lineBytes + y / 8

/-- `bitMask = 0x80 >> (rotatedCol & 7)`, `rotatedCol = y`. -/
def bitMask (y : Nat) : Byte := (0x80 : Byte) >>> (y % 8)

/-- `unrotate(rotatedCol, rotatedRow)` (20_memory.md R48). -/
def State.unrotate (s : State) (rotatedCol rotatedRow : Nat) : Nat × Nat := (s.width - 1 - rotatedRow, rotatedCol)

/-- `getPixel(x, y)` of a panel inside its bounds: true is 1, white (20_memory.md R46). -/
def State.getPixel (s : State) (x y : Nat) : Bool := (s.readMem .fb (s.byteIndex x y) &&& bitMask y) != 0

/-- The framebuffer `fb` after `setPixel(px, py, white)`: dropped outside the panel, else one bit of one byte (20_memory.md
R47). -/
def State.setPixel (s : State) (px py : Nat) (white : Bool) (fb : Memory) : Memory :=
  if s.width ≤ px ∨ s.height ≤ py then fb
  else
    let b := fb.read s.powerOns .fb (s.byteIndex px py)
    fb.store (s.byteIndex px py) (if white then b ||| bitMask py else b &&& (0xFF ^^^ bitMask py))

/-! ## Tile payloads (30_encoding.md R72) -/

/-- The payload bit of column `c`, row `r` of a tile `w` pixels wide: `(P[r*bpr + (c >> 3)] >> (7 - (c & 7))) & 1`
(42_decoder.md R133). A well-formed tile has every byte this reads (log 16). -/
def payloadBit (w : Nat) (payload : List Byte) (c r : Nat) : Bool :=
  (payload.getD (r * ceil8 w + c / 8) 0).getLsbD (7 - c % 8)

/-- Eight bits packed MSB-first: bit `k` of the group is `0x80 >> k` (20_memory.md R43). -/
def packByte (bit : Nat → Bool) : Byte :=
  (List.range 8).foldl (fun acc k => if bit k then acc ||| ((0x80 : Byte) >>> k) else acc) 0

/-- `h` rows of `ceil8(w)` bytes, row-major, MSB-first, pad bits 0 (30_encoding.md R72, 41_encoder.md R116). -/
def packTile (w h : Nat) (bit : (c r : Nat) → Bool) : List Byte :=
  (List.range h).flatMap (fun r =>
    (List.range (ceil8 w)).map (fun k => packByte (fun j => decide (8 * k + j < w) && bit (8 * k + j) r)))

/-! ## Tables -/

/-- `L` (10_state.md R18). -/
def State.levelsUsed (s : State) : Nat := s.levelCount.toNat

/-- `LEVELS[i]` (10_state.md R24). The table has sixteen entries and no rule reads beyond them. -/
def State.level (s : State) (i : Nat) : Nat := if h : i < 16 then s.levels[i].toNat else 0

/-- `LEVELS[0..L-1]` (10_state.md R24). -/
def State.usedLevels (s : State) : List Nat := (List.range s.levelsUsed).map s.level

/-- `T(i) = (LEVELS[i] + LEVELS[i+1]) div 2` (41_encoder.md R111). -/
def State.threshold (s : State) (i : Nat) : Nat := (s.level i + s.level (i + 1)) / 2

/-- `BAYER[a]` (10_state.md R25); the ROM has 64 bytes. -/
def State.bayer (s : State) (a : Nat) : Byte := if h : a < 64 then s.cfg.bayerRom[a] else 0

end Sys2Proof.Machine
end

