-- ==== Sys2Proof/Machine/Flags.lean ====
section
/-! DEFINITION. The status flags, the diagnostics views and the configuration check. -/

namespace Sys2Proof.Machine

/-! ## Status and diagnostics (10_state.md R13, R29) -/

/-- `DIAG_COUNT`: the length of the log, saturating (10_state.md R29, log 12). -/
def State.diagCount (s : State) : Word := satWord s.diag.length

/-- `STATUS`: bit 0 `CFG_ERR`, bit 1 `ENC_ERR` hard-wired 0, bit 2 `DEC_IDLE`, bit 3 `DIAG_ANY`, bits 31:4 zero (10_state.md
R13). -/
def State.status (s : State) : Word :=
  (if s.cfgErr then 1 else 0) ||| (if s.decIdle then 4 else 0) ||| (if s.diagCount = 0 then 0 else 8)

/-- A record packed as `(line mod 2^24) << 8 | code` (10_state.md R29). -/
def DiagRecord.pack (r : DiagRecord) : Word := BitVec.ofNat 32 ((r.line.toNat % 2 ^ 24) * 256 + r.code.toNat)

/-- `DIAG_LAST`: the newest record, or 0 when the log is empty (10_state.md R29). -/
def State.diagLast (s : State) : Word :=
  match s.diag.getLast? with
  | some r => r.pack
  | none => 0

/-- `DIAG_ENTRY`: the record at position `DIAG_INDEX`, or 0 when `DIAG_INDEX >= DIAG_COUNT` (10_state.md R29). -/
def State.diagEntry (s : State) : Word :=
  if s.diagCount.toNat ≤ s.diagIndex.toNat then 0
  else
    match s.diag[s.diagIndex.toNat]? with
    | some r => r.pack
    | none => 0

/-! ## The configuration check (60_exceptions.md R184) -/

/-- Which tests an operation makes: `full` for `QUANTIZE` and `ENCODE`, `dims` for the decoder operations. -/
inductive CheckKind where
  | full
  | dims
  deriving DecidableEq, Repr

/-- `LEVELS[0..L-1]` strictly ascend (10_state.md R24). -/
def State.levelsAscend (s : State) : Bool :=
  (List.range (s.levelsUsed - 1)).all (fun i => decide (s.level i < s.level (i + 1)))

/-- `check_config(kind)`: the first test that fails, or none (60_exceptions.md R184). -/
def State.checkConfig (k : CheckKind) (s : State) : Option ConfigError :=
  if s.panelW = 0 ∨ s.panelH = 0 then some .dimensions
  else
    match k with
    | .dims => none
    | .full =>
      if s.tileSize = 0 then some .tileSize
      else if s.levelsUsed ≠ 8 ∧ s.levelsUsed ≠ 16 then some .levelCount
      else if s.levelsAscend = false then some .levels
      else if 2 < s.mode.toNat then some .mode
      else none

/-- An operation with effect `act`: the check first, then either the error is raised and nothing else happens, or the error
state is cleared and the operation proceeds (43_host_ops.md R166). -/
def State.guarded (k : CheckKind) (act : State → State) (s : State) : State :=
  match s.checkConfig k with
  | some e => s.raiseConfig e
  | none => act s.clearConfig

end Sys2Proof.Machine
end

