-- ==== Sys2Proof/Machine/Decoder.lean ====
section
/-! DEFINITION. The decoder's six commands (42_decoder.md R130 to R136). The decoder proper has made every check of the line but
the bounds check, which needs the panel (log 15); `LINE_NO` already counts the line. -/

namespace Sys2Proof.Machine

/-! ## Effects -/

/-- `CLEAR`: every byte in use becomes `0xFF` (42_decoder.md R131). -/
def State.clearFb (s : State) : State := s.setMem .fb (s.fb.fill (s.width * s.lineBytes) 0xFF)

/-- `WHITEOUT`: every byte in use becomes 255 (42_decoder.md R132). -/
def State.whiteoutPs (s : State) : State := s.setMem .ps (s.ps.fill (s.width * s.height) 255)

/-- The origin of a `TILE` or the first corner of a `RECT` lies outside the panel (42_decoder.md R130). -/
def State.outside (s : State) (x y : Byte) : Bool := decide (s.width ≤ x.toNat) || decide (s.height ≤ y.toNat)

/-- The framebuffer after the pixel loops of `TILE` (42_decoder.md R133); a payload bit of 1 is black. -/
def State.tilePixels (s : State) (x y w h : Nat) (payload : List Byte) : Memory :=
  (List.range h).foldl (fun fb r =>
    (List.range w).foldl (fun fb c => s.setPixel (x + c) (y + r) (!payloadBit w payload c r) fb) fb) s.fb

/-- `TILE` (42_decoder.md R133). -/
def State.drawTile (x y w h : Byte) (payload : List Byte) (s : State) : State :=
  if s.outside x y then s.logDiag .outOfPanel
  else s.setMem .fb (s.tilePixels x.toNat y.toNat w.toNat h.toNat payload)

/-- The framebuffer after the pixel loops of `RECT`, both corners inclusive (42_decoder.md R134). -/
def State.rectPixels (s : State) (x1 y1 x2 y2 : Nat) (white : Bool) : Memory :=
  (List.range (y2 + 1 - y1)).foldl (fun fb r =>
    (List.range (x2 + 1 - x1)).foldl (fun fb c => s.setPixel (x1 + c) (y1 + r) white fb) fb) s.fb

/-- `RECT` (42_decoder.md R134). -/
def State.drawRect (x1 y1 x2 y2 color : Byte) (s : State) : State :=
  if s.outside x1 y1 then s.logDiag .outOfPanel
  else s.setMem .fb (s.rectPixels x1.toNat y1.toNat x2.toNat y2.toNat (color == 1))

/-- The screen byte of pixel offset `a` after `ENDLAYER`, none where the pixel is white and its byte is left alone
(42_decoder.md R135). -/
def State.darkened (s : State) (a : Nat) : Option Byte :=
  if s.getPixel (a % s.width) (a / s.width) then none
  else some (BitVec.ofNat 8 ((s.readMem .ps a).toNat - s.grayStep.toNat))

/-- `ENDLAYER`: every pixel black in the framebuffer is darkened by `GRAY_STEP`, floored at 0 (42_decoder.md R135). Each byte
depends on itself alone, so the passes over the pixels are one update (log 14). -/
def State.endLayerPs (s : State) : State := s.setMem .ps (s.ps.update (s.width * s.height) s.darkened)

/-! ## Meanings -/

/-- `CLEAR` (42_decoder.md R131). -/
def execClear (s : State) : Host.Outcome State Fault Refusal := .next s.clearFb

/-- `WHITEOUT` (42_decoder.md R132). -/
def execWhiteout (s : State) : Host.Outcome State Fault Refusal := .next s.whiteoutPs

/-- `TILE` (42_decoder.md R133). The reserved bytes have no effect (30_encoding.md R68). -/
def execTile (x y _res0 _res1 w h : Byte) (payload : List Byte) (s : State) : Host.Outcome State Fault Refusal :=
  .next (s.drawTile x y w h payload)

/-- `RECT` (42_decoder.md R134). -/
def execRect (x1 y1 x2 y2 color : Byte) (s : State) : Host.Outcome State Fault Refusal :=
  .next (s.drawRect x1 y1 x2 y2 color)

/-- `ENDLAYER` (42_decoder.md R135). -/
def execEndLayer (s : State) : Host.Outcome State Fault Refusal := .next s.endLayerPs

/-- `DELAY`: "timing hint, no state change" (42_decoder.md R136). -/
def execDelay (_ms : Word) (s : State) : Host.Outcome State Fault Refusal := .next s

/-- The effect of a command that the decoder has taken from `CS_IN` (42_decoder.md R130). A line never denotes a host operation,
so those arms are not reached (log 16). -/
def State.runCommand (i : Instr) (s : State) : State :=
  match i with
  | .clear => s.clearFb
  | .whiteout => s.whiteoutPs
  | .tile x y _ _ w h payload => s.drawTile x y w h payload
  | .rect x1 y1 x2 y2 color => s.drawRect x1 y1 x2 y2 color
  | .endLayer => s.endLayerPs
  | .delay _ => s
  | .quantize => s
  | .encode => s
  | .decStep => s
  | .decRun => s
  | .decReset => s

end Sys2Proof.Machine
end

