-- ==== Sys2Proof/Machine/Encoder.lean ====
section
/-! DEFINITION. The bitplane comparator and tile encoder `BPE` (41_encoder.md R110 to R123). -/

namespace Sys2Proof.Machine

/-- The comparator: the mask bit of a pixel for threshold `t`, strict `<` (41_encoder.md R115). -/
def State.maskBit (s : State) (t x y : Nat) : Bool := decide ((s.readMem .img (s.pixelOffset x y)).toNat < t)

/-- The multiples of `ts` below `n`: the tile origins along one side (41_encoder.md R114). -/
def tileOrigins (ts n : Nat) : List Nat := (List.range ((n + ts - 1) / ts)).map (fun k => k * ts)

/-- `encode_tile(t, tx, ty, w, h)`: no command where the mask is all zero, else one whole tile (41_encoder.md R116). -/
def State.encodeTile (s : State) (t tx ty w h : Nat) : List Instr :=
  let bit := fun c r => s.maskBit t (tx + c) (ty + r)
  if (List.range h).any (fun r => (List.range w).any (fun c => bit c r)) then
    [.tile (BitVec.ofNat 8 tx) (BitVec.ofNat 8 ty) 0 0 (BitVec.ofNat 8 w) (BitVec.ofNat 8 h) (packTile w h bit)]
  else []

/-- The tiles of one layer in raster order (41_encoder.md R110, R114). -/
def State.layerTiles (s : State) (t : Nat) : List Instr :=
  (tileOrigins s.tileSize.toNat s.height).flatMap (fun ty =>
    (tileOrigins s.tileSize.toNat s.width).flatMap (fun tx =>
      s.encodeTile t tx ty (min s.tileSize.toNat (s.width - tx)) (min s.tileSize.toNat (s.height - ty))))

/-- The preamble (41_encoder.md R113). -/
def State.preamble (s : State) : List Instr := [.clear, .whiteout, .delay s.delayMs, .clear]

/-- One layer: its tiles and the epilogue (41_encoder.md R117). -/
def State.layer (s : State) (i : Nat) : List Instr := s.layerTiles (s.threshold i) ++ [.endLayer, .clear]

/-- The indices of the thresholds, lightest first: `L-2` down to 0 (41_encoder.md R112). -/
def State.layerOrder (s : State) : List Nat := (List.range (s.levelsUsed - 1)).reverse

/-- The commands of one whole stream, in order (41_encoder.md R118). -/
def State.encodedCommands (s : State) : List Instr := s.preamble ++ s.layerOrder.flatMap s.layer

/-- The bytes of one whole stream: every command emitted in the canonical text (41_encoder.md R118, 30_encoding.md R76). -/
def State.encodedStream (s : State) : List Byte := s.encodedCommands.flatMap commandLine

/-- `ENCODE` past its check (41_encoder.md R110). -/
def State.encodeImg (s : State) : State := s.appendOut s.encodedStream

/-- `ENCODE` (43_host_ops.md R162). -/
def execEncode (s : State) : Host.Outcome State Fault Refusal := .next (s.guarded .full State.encodeImg)

end Sys2Proof.Machine
end

