-- ==== Sys2Proof/Machine/HostOps.lean ====
section
/-! DEFINITION. The decoder operations `DEC_STEP`, `DEC_RUN` and `DEC_RESET` (43_host_ops.md R163 to R165). -/

namespace Sys2Proof.Machine

/-- The lines of a search are consumed, and the command line it found, good or faulted, is executed (43_host_ops.md R163). -/
def State.takeFetched (f : Fetched) (s : State) : State :=
  match f.found with
  | .idle => (s.takeLines f.lines f.rest).setIdle true
  | .error e => ((s.takeLines f.lines f.rest).logDiag e).setIdle false
  | .command i => ((s.takeLines f.lines f.rest).runCommand i).setIdle false

/-- The loop of `DEC_STEP`: take lines up to and including the next command line and execute it (43_host_ops.md R163). -/
def State.stepLine (s : State) : State := s.takeFetched (fetchLine s.csIn)

/-- The loop of `DEC_RUN` (43_host_ops.md R164): steps until idle, or until the asked-for number of command lines is reached
(log 5). Every step that is not idle removes at least one byte of `CS_IN`, so `fuel` above the queue's length is never used
up. -/
def State.runLines : (fuel : Nat) → (stop : Option Nat) → State → State
  | 0, _, s => s
  | fuel + 1, stop, s =>
    if s.stepLine.decIdle then s.stepLine
    else
      match stop with
      | none => State.runLines fuel none s.stepLine
      | some n => if n ≤ 1 then s.stepLine else State.runLines fuel (some (n - 1)) s.stepLine

/-- `DEC_RUN` past its check; the stop request is used up (43_host_ops.md R164, log 5). -/
def State.runStream (s : State) : State := (s.runLines (s.csIn.length + 1) s.stopAfter).setStop none

/-- `DEC_RESET` past its check (43_host_ops.md R165). -/
def State.resetDecoder (s : State) : State :=
  { s with csIn := [], lineNo := 0, diag := [], diagIndex := 0, decIdle := false }

/-- `DEC_STEP` (43_host_ops.md R163). -/
def execDecStep (s : State) : Host.Outcome State Fault Refusal := .next (s.guarded .dims State.stepLine)

/-- `DEC_RUN` (43_host_ops.md R164). -/
def execDecRun (s : State) : Host.Outcome State Fault Refusal := .next (s.guarded .dims State.runStream)

/-- `DEC_RESET` (43_host_ops.md R165). -/
def execDecReset (s : State) : Host.Outcome State Fault Refusal := .next (s.guarded .dims State.resetDecoder)

end Sys2Proof.Machine
end

