-- ==== Sys2Proof/Machine/Quantizer.lean ====
section
/-! DEFINITION. The quantizer `QNT` (40_quantizer.md R90 to R102). -/

namespace Sys2Proof.Machine

/-! ## Shared functions -/

/-- One comparison of the scan: a level replaces the best one so far only where it is strictly nearer (40_quantizer.md R91). -/
def nearer (v : Int) (best l : Nat) : Nat := if (v - (l : Int)).natAbs < (v - (best : Int)).natAbs then l else best

/-- `nearest(v)` over a list of levels, darkest first: a scan that keeps the first of the nearest levels (40_quantizer.md R91).
It carries the level itself, of which R91 carries the index (log 18). -/
def nearestOf (v : Int) : List Nat → Nat
  | [] => 0
  | l0 :: ls => ls.foldl (nearer v) l0

/-- `nearest(v)` (40_quantizer.md R91). -/
def State.nearest (s : State) (v : Int) : Byte := BitVec.ofNat 8 (nearestOf v s.usedLevels)

/-- `contrast(p)` (40_quantizer.md R92). -/
def State.contrastOf (s : State) (p : Byte) : Byte :=
  toByte (clamp255 (128 + asr (((p.toNat : Int) - 128) * s.contrast.toNat + 128) 8))

/-- `M(x, y)`: the matrix value of a pixel (40_quantizer.md R94). -/
def State.matrixAt (s : State) (x y : Nat) : Byte := s.bayer ((y % 8) * 8 + x % 8)

/-- `bias(x, y)` (40_quantizer.md R95). -/
def State.bias (s : State) (x y : Nat) : Int :=
  asr ((((s.matrixAt x y).toNat : Int) - 128) * s.strength.toNat + 128) 8

/-! ## Phase 1 and the independent modes

Each output pixel depends on the one input pixel at its own offset, so each pass is one update (40_quantizer.md R93, R96,
log 14). -/

/-- Every pixel in use becomes `g` of its offset and its value. -/
def State.mapImg (s : State) (g : Nat → Byte → Byte) (img : Memory) : Memory :=
  img.update (s.width * s.height) (fun a => some (g a (img.read s.powerOns .img a)))

/-- Phase 1: the contrast of every pixel (40_quantizer.md R90). -/
def State.contrastPass (s : State) (img : Memory) : Memory := s.mapImg (fun _ p => s.contrastOf p) img

/-- `threshold_pass()` (40_quantizer.md R93). -/
def State.thresholdPass (s : State) (img : Memory) : Memory := s.mapImg (fun _ p => s.nearest p.toNat) img

/-- `bayer_pass()` (40_quantizer.md R96). -/
def State.bayerPass (s : State) (img : Memory) : Memory :=
  s.mapImg (fun a p => s.nearest ((p.toNat : Int) + s.bias (a % s.width) (a / s.width))) img

/-! ## Floyd–Steinberg mode -/

/-- The share of an error that `spread` adds: `(err*k*S + 2048) >>a 12` (40_quantizer.md R98). -/
def State.share (s : State) (k : Nat) (err : Int) : Int := asr (err * k * s.strength.toNat + 2048) 12

/-- `spread(nx, ny, k, err)`; a neighbour outside the image gets nothing (40_quantizer.md R98). -/
def State.spread (s : State) (nx ny : Int) (k : Nat) (err : Int) (img : Memory) : Memory :=
  if nx < 0 ∨ (s.width : Int) ≤ nx ∨ (s.height : Int) ≤ ny then img
  else
    let a := s.pixelOffset nx.toNat ny.toNat
    img.store a (toByte (clamp255 (((img.read s.powerOns .img a).toNat : Int) + s.share k err)))

/-- One pixel of `fs_pass()` (40_quantizer.md R97). -/
def State.fsPixel (s : State) (x y : Nat) (img : Memory) : Memory :=
  let a := s.pixelOffset x y
  let old := img.read s.powerOns .img a
  let new := s.nearest old.toNat
  let err : Int := (old.toNat : Int) - new.toNat
  let img1 := img.store a new
  let img2 := s.spread (x + 1) y 7 err img1
  let img3 := s.spread (x - 1) (y + 1) 3 err img2
  let img4 := s.spread x (y + 1) 5 err img3
  s.spread (x + 1) (y + 1) 1 err img4

/-- `fs_pass()`: strict raster scan, top to bottom and left to right (40_quantizer.md R97). -/
def State.fsPass (s : State) (img : Memory) : Memory :=
  (List.range s.height).foldl (fun img y => (List.range s.width).foldl (fun img x => s.fsPixel x y img) img) img

/-! ## The operation -/

/-- `IMG` after both phases; the mode has passed the check (40_quantizer.md R90). -/
def State.quantized (s : State) : Memory :=
  if s.mode = 0 then s.thresholdPass (s.contrastPass s.img)
  else if s.mode = 1 then s.bayerPass (s.contrastPass s.img)
  else s.fsPass (s.contrastPass s.img)

/-- `QUANTIZE` past its check (40_quantizer.md R90). -/
def State.quantizeImg (s : State) : State := s.setMem .img s.quantized

/-- `QUANTIZE` (43_host_ops.md R161). -/
def execQuantize (s : State) : Host.Outcome State Fault Refusal := .next (s.guarded .full State.quantizeImg)

end Sys2Proof.Machine
end

