-- ==== Sys2Proof/Machine/Dispatch.lean ====
section
/-! DEFINITION. One arm per instruction. -/

namespace Sys2Proof.Machine

def exec (i : Instr) (s : State) : Host.Outcome State Fault Refusal :=
  match i with
  | .clear => Sys2Proof.Machine.execClear s
  | .whiteout => Sys2Proof.Machine.execWhiteout s
  | .tile x y res0 res1 w h payload => Sys2Proof.Machine.execTile x y res0 res1 w h payload s
  | .rect x1 y1 x2 y2 color => Sys2Proof.Machine.execRect x1 y1 x2 y2 color s
  | .endLayer => Sys2Proof.Machine.execEndLayer s
  | .delay ms => Sys2Proof.Machine.execDelay ms s
  | .quantize => Sys2Proof.Machine.execQuantize s
  | .encode => Sys2Proof.Machine.execEncode s
  | .decStep => Sys2Proof.Machine.execDecStep s
  | .decRun => Sys2Proof.Machine.execDecRun s
  | .decReset => Sys2Proof.Machine.execDecReset s

end Sys2Proof.Machine
end

