-- ==== Sys2Proof/Machine/HostPort.lean ====
section
/-! DEFINITION. What the host's own accesses do: the register file (10_state.md R14), the memory windows (20_memory.md R40,
R41), the queues' registers, hardware reset and the stop request. -/

namespace Sys2Proof.Machine

/-! ## The register file -/

/-- The registers of the map (10_state.md R14); every unlisted offset is `unlisted`. -/
inductive Reg where
  | id | ctrl | status | errCode | panelW | panelH | tileSize | levelCount | mode | contrast | strength | grayStep
  | delayMs | diagCount | lineNo | diagLast | level (i : Nat) | thresh (i : Nat) | csOutData | csOutLevel | csInData
  | csInLevel | diagIndex | diagEntry | unlisted
  deriving DecidableEq, Repr

/-- The registers at 0x00 to 0x3C, one a word (10_state.md R14). -/
def lowRegs : List Reg :=
  [.id, .ctrl, .status, .errCode, .panelW, .panelH, .tileSize, .levelCount, .mode, .contrast, .strength, .grayStep,
   .delayMs, .diagCount, .lineNo, .diagLast]

/-- The registers at 0xC0 to 0xD4, one a word (10_state.md R14). -/
def highRegs : List Reg := [.csOutData, .csOutLevel, .csInData, .csInLevel, .diagIndex, .diagEntry]

/-- The register at an offset that is a multiple of 4 (10_state.md R14). -/
def regAt (offset : Nat) : Reg :=
  if offset < 0x40 then lowRegs.getD (offset / 4) .unlisted
  else if offset < 0x80 then .level ((offset - 0x40) / 4)
  else if offset < 0xBC then .thresh ((offset - 0x80) / 4)
  else if offset < 0xC0 then .unlisted
  else highRegs.getD ((offset - 0xC0) / 4) .unlisted

/-- `THRESH[i]`: the threshold of the current table where `L` is legal and `i <= L-2`, else 0 (10_state.md R26). -/
def State.threshView (s : State) (i : Nat) : Nat :=
  if (s.levelsUsed = 8 ∨ s.levelsUsed = 16) ∧ i + 2 ≤ s.levelsUsed then s.threshold i else 0

/-- `CS_IN_LEVEL`: the bytes queued, where they fit the register (10_state.md R35, log 7). -/
def State.csInLevel (s : State) : Word :=
  if s.csIn.length ≤ maxWord then BitVec.ofNat 32 s.csIn.length else Config.csInLevelWide s.csIn.length

/-- What a read of a register returns (10_state.md R13 to R30, R34, R35); fields stand in the low bits, the bits above are 0. -/
def State.regValue (s : State) : Reg → Word
  | .id => idWord
  | .ctrl => 0
  | .status => s.status
  | .errCode => s.errCode.setWidth 32
  | .panelW => s.panelW.setWidth 32
  | .panelH => s.panelH.setWidth 32
  | .tileSize => s.tileSize.setWidth 32
  | .levelCount => s.levelCount.setWidth 32
  | .mode => s.mode.setWidth 32
  | .contrast => s.contrast.setWidth 32
  | .strength => s.strength.setWidth 32
  | .grayStep => s.grayStep.setWidth 32
  | .delayMs => s.delayMs
  | .diagCount => s.diagCount
  | .lineNo => s.lineNo
  | .diagLast => s.diagLast
  | .level i => BitVec.ofNat 32 (s.level i)
  | .thresh i => BitVec.ofNat 32 (s.threshView i)
  | .csOutData => (s.csOut.headD 0).setWidth 32
  | .csOutLevel => satWord s.csOut.length
  | .csInData => (Config.csInDataRead s.csInWrites).setWidth 32
  | .csInLevel => s.csInLevel
  | .diagIndex => s.diagIndex
  | .diagEntry => s.diagEntry
  | .unlisted => 0

/-- The one read with a side effect: `CS_OUT_DATA` removes the byte it returns (20_memory.md R50, 10_state.md R34). -/
def State.readEffect (s : State) : Reg → State
  | .csOutData => { s with csOut := s.csOut.tail }
  | _ => s

/-- `STRENGTH` saturates at 256 on write (10_state.md R21). -/
def saturateStrength (v : Word) : BitVec 9 := if 256 < v.toNat then 256 else v.setWidth 9

/-- What a write of a register does: the field takes the low bits (10_state.md R14), `CS_IN_DATA` pushes a byte (R35), read-only
and unlisted registers ignore the write. The operations that `CTRL` starts are `exec`'s; reserved ones do nothing (43_host_ops.md
R167). -/
def State.writeReg (s : State) (v : Word) : Reg → State
  | .panelW => { s with panelW := v.setWidth 8 }
  | .panelH => { s with panelH := v.setWidth 8 }
  | .tileSize => { s with tileSize := v.setWidth 8 }
  | .levelCount => { s with levelCount := v.setWidth 5 }
  | .mode => { s with mode := v.setWidth 8 }
  | .contrast => { s with contrast := v.setWidth 16 }
  | .strength => { s with strength := saturateStrength v }
  | .grayStep => { s with grayStep := v.setWidth 8 }
  | .delayMs => { s with delayMs := v }
  | .level i => { s with levels := s.levels.setIfInBounds i (v.setWidth 8) }
  | .csInData => { s with csIn := s.csIn ++ [v.setWidth 8], csInWrites := s.csInWrites + 1 }
  | .diagIndex => { s with diagIndex := v }
  | .id | .ctrl | .status | .errCode | .diagCount | .lineNo | .diagLast | .thresh _ | .csOutData | .csOutLevel
  | .csInLevel | .diagEntry | .unlisted => s

/-! ## The memory windows (20_memory.md R40, R41) -/

/-- What a host byte address at or above `0x100` reaches. -/
inductive Window where
  | mem (m : MemId) (a : Nat)
  | bayer (a : Nat)
  | hole
  deriving DecidableEq, Repr

/-- A memory's window holds the address: base up to capacity. -/
def MemId.holds (m : MemId) (addr : Nat) : Bool := decide (m.base ≤ addr) && decide (addr < m.base + m.capacity)

/-- The window an address falls in (20_memory.md R40). -/
def windowAt (addr : Nat) : Window :=
  if MemId.holds .img addr then .mem .img (addr - MemId.base .img)
  else if MemId.holds .fb addr then .mem .fb (addr - MemId.base .fb)
  else if MemId.holds .ps addr then .mem .ps (addr - MemId.base .ps)
  else if bayerBase ≤ addr ∧ addr < bayerBase + 64 then .bayer (addr - bayerBase)
  else .hole

/-- The byte a window read returns; 0 where there is no window (20_memory.md R40). -/
def State.windowByte (s : State) : Window → Byte
  | .mem m a => s.readMem m a
  | .bayer a => s.bayer a
  | .hole => 0

/-- A window write; ignored on the ROM and where there is no window (20_memory.md R40). -/
def State.writeWindow (s : State) (v : Byte) : Window → State
  | .mem m a => s.setMem m ((s.mem m).store a v)
  | .bayer _ => s
  | .hole => s

/-! ## Host actions -/

/-- A register address the interface does not have (20_memory.md R49). -/
def noRegister (addr : Nat) : Bool := decide (addr < regSpace) && decide (addr % 4 ≠ 0)

/-- A write by the host (log 8, log 9). -/
def State.hostWrite (addr : Nat) (datum : Word) (s : State) : Host.Outcome State Fault Refusal :=
  if noRegister addr then .fault (.noSuchRegisterAccess addr)
  else if addr < regSpace then .next (s.writeReg datum (regAt addr))
  else .next (s.writeWindow (datum.setWidth 8) (windowAt addr))

/-- A read by the host: the word it gets is kept in `hostData` (log 8, log 9, log 10). -/
def State.hostRead (addr : Nat) (s : State) : Host.Outcome State Fault Refusal :=
  if noRegister addr then .fault (.noSuchRegisterAccess addr)
  else if addr < regSpace then .next ((s.readEffect (regAt addr)).setHostData (s.regValue (regAt addr)))
  else .next (s.setHostData ((s.windowByte (windowAt addr)).setWidth 32))

/-- Hardware reset (70_reset_and_hazards.md R210): every register, flag, queue and the log at the values of 10_state.md R37,
the memories unspecified anew. The host's side and the configuration are no part of it (log 11). -/
def State.hardReset (s : State) : State :=
  { State.reset with
    cfg := s.cfg, hostQ := s.hostQ, hostData := s.hostData, powerOns := s.powerOns + 1, csInWrites := s.csInWrites + 1 }

/-- The address of `CTRL` (10_state.md R14). -/
def ctrlOffset : Nat := 0x04

/-- The operation a host action starts, if it starts one (10_state.md R27). -/
def HostAction.starts : HostAction → Option Instr
  | .write addr datum => if addr = ctrlOffset then decodeCtrl datum else none
  | .read _ => none
  | .reset => none
  | .askStop _ => none

/-- A host action that starts no operation. -/
def State.hostAct (a : HostAction) (s : State) : Host.Outcome State Fault Refusal :=
  match a with
  | .write addr datum => s.hostWrite addr datum
  | .read addr => s.hostRead addr
  | .reset => .next s.hardReset
  | .askStop n => .next (s.setStop (some n))

/-! ## Placing an instruction where the next step takes it (log 1, log 2) -/

/-- The state in which the next step runs exactly the instruction of this code: a `CTRL` word as the host's next action, or a
line at the head of `CS_IN` with `DEC_STEP` as the host's next action. -/
def State.place (c : Code) (s : State) : State :=
  match c with
  | .ctrl word => { s with hostQ := .write ctrlOffset word :: s.hostQ }
  | .line raw => { s with csIn := raw ++ lf :: s.csIn, hostQ := .write ctrlOffset 3 :: s.hostQ }

end Sys2Proof.Machine
end

