-- ==== Sys2Proof/Machine/Step.lean ====
section
/-! DEFINITION. One step of the block: the host's next action (log 1). -/

namespace Sys2Proof.Machine

/-- One step. With no host action to come the block waits (70_reset_and_hazards.md R210); a write to `CTRL` that names an
operation runs it whole (43_host_ops.md R160); any other action is the host's own. -/
def step (s : State) : Host.Outcome State Fault Refusal :=
  match s.hostQ with
  | [] => .next s
  | a :: rest =>
    match a.starts with
    | some i => exec i (s.setHostQ rest)
    | none => (s.setHostQ rest).hostAct a

/-- The state with the instruction of a table word placed where the next step takes it (log 1, log 2). -/
def State.withFetchWord (s : State) (nbits w : Nat) : State := s.place (tableCode nbits w)

end Sys2Proof.Machine
end

