-- ==== Sys2Proof/Safety.lean ====
section
/-! DEFINITION. The terms claims use: which configurations are legal, what a safe state is, what a safe step is. -/

namespace Sys2Proof.Machine

/-- `(x, y)` lies on the panel (00_scope.md R9). -/
abbrev State.OnPanel (s : State) (x y : Nat) : Prop := x < s.width ∧ y < s.height

/-- The dimensions pass the check of the decoder operations (60_exceptions.md R184, 10_state.md R16). -/
def State.DimsOk (s : State) : Prop := s.width ≠ 0 ∧ s.height ≠ 0

/-- The level table in use strictly ascends (10_state.md R24). -/
def State.LevelsSorted (s : State) : Prop := ∀ i, i + 1 < s.levelsUsed → s.level i < s.level (i + 1)

/-- The configuration passes the check of `QUANTIZE` and `ENCODE` (60_exceptions.md R184), field by field. -/
structure State.ConfigOk (s : State) : Prop where
  dims : s.DimsOk
  tile : s.tileSize.toNat ≠ 0
  count : s.levelsUsed = 8 ∨ s.levelsUsed = 16
  sorted : s.LevelsSorted
  mode : s.mode.toNat ≤ 2

/-- A memory is in canonical form and lists nothing beyond its capacity (10_state.md R31 to R33). -/
def State.MemOk (s : State) (k : MemId) : Prop := (s.mem k).wf ∧ ∀ c ∈ s.mem k, c.1 < k.capacity

/-- `ERR_CODE` is the code of the ConfigurationError that set `CFG_ERR`, or 0 while `CFG_ERR` is 0 (10_state.md R28). -/
def State.ErrOk (s : State) : Prop :=
  (s.cfgErr = false ∧ s.errCode = 0) ∨ (s.cfgErr = true ∧ ∃ e : ConfigError, s.errCode = e.code)

/-- Every record of the log holds a decoder cause and the number of a line already counted, in the order of the lines
(10_state.md R29, 60_exceptions.md R190). -/
def State.LogOk (s : State) : Prop :=
  (∀ r ∈ s.diag, (∃ e : LineError, r.code = e.code) ∧ r.line.toNat ≤ s.lineNo.toNat) ∧
    s.diag.Pairwise (fun a b => a.line.toNat ≤ b.line.toNat)

/-- A safe state: what every step keeps. -/
structure State.Inv (s : State) : Prop where
  mem : ∀ k, s.MemOk k
  strength : s.strength.toNat ≤ 256
  err : s.ErrOk
  log : s.LogOk

/-- The block goes on from this state. -/
def State.Runs (s : State) : Prop := ∃ t, step s = .next t

/-- The byte of `IMG` under pixel `(x, y)`, as a number. -/
def State.pixel (s : State) (x y : Nat) : Nat := (s.readMem .img (s.pixelOffset x y)).toNat

/-- `n(x, y)`: how many thresholds the pixel lies below (42_decoder.md R139). -/
def State.layersOf (s : State) (x y : Nat) : Nat :=
  ((List.range (s.levelsUsed - 1)).filter (fun i => decide (s.pixel x y < s.threshold i))).length

end Sys2Proof.Machine
end

