-- ==== Sys2Proof/Certificates/Slice0/Obligations.lean ====
section
/-! DEFINITION. The statements for the provers, from the numbered rules of the spec. Nothing is proved here. -/

open Sys2Proof Sys2Proof.Machine

/-! ## Encoding -/

/-- Decoding the canonical code of a well-formed instruction gives it back, every operand included: 30_encoding.md R67 to R70,
R76, R79; "Every canonical stream is accepted and means the same thing" (R77). -/
def Obligations.DecodeOfEncodeIsIdentity : Prop :=
  ∀ i : Instr, i.wellFormed = true → decode (encode i) = .ok i

/-- A well-formed command emitted at the head of a queue is taken whole, whatever follows it: 30_encoding.md R60, R76;
43_host_ops.md R163. -/
def Obligations.EmittedCommandIsTakenWhole : Prop :=
  ∀ (i : Instr) (rest : List Byte), i.wellFormed = true → i.isCommand = true →
    fetchLine (commandLine i ++ rest) = { lines := 1, rest := rest, found := .command i }

/-- Blanks around a canonical line and a CR before its LF change nothing: 30_encoding.md R61, R77. -/
def Obligations.BlanksAndCrAroundALineAreHarmless : Prop :=
  ∀ (i : Instr) (before after : List Byte), i.wellFormed = true → i.isCommand = true →
    (∀ c ∈ before, isBlank c = true) → (∀ c ∈ after, isBlank c = true) →
    (before ++ commandText i ++ after).length < lineMax →
    decodeLine (before ++ commandText i ++ after) = .command i ∧
      decodeLine (before ++ commandText i ++ after ++ [cr]) = .command i

/-- Whatever the decoder accepts is well formed, and lines denote commands, `CTRL` words host operations: 30_encoding.md R67 to
R70, R74, R79. -/
def Obligations.DecodedInstructionsAreWellFormed : Prop :=
  (∀ (raw : List Byte) (i : Instr), decode (.line raw) = .ok i → i.wellFormed = true ∧ i.isCommand = true) ∧
    ∀ (word : Word) (i : Instr), decode (.ctrl word) = .ok i → i.wellFormed = true ∧ i.isCommand = false

/-- Lines and words written out from the spec's encodings denote the instructions they stand for: 30_encoding.md R67 to R70,
R79, 95_test_vectors.md section 2.7. -/
def Obligations.WrittenOutCodesDecode : Prop :=
  decodeLine [0x30, 0x31] = .command .clear ∧
  decodeLine [0x20, 0x30, 0x32, 0x0D] = .command .whiteout ∧
  decodeLine [0x30, 0x35] = .command .endLayer ∧
  decodeLine [0x30, 0x34, 0x20, 0x30, 0x32, 0x20, 0x30, 0x33, 0x20, 0x30, 0x39, 0x20, 0x66, 0x46, 0x20, 0x30, 0x31] =
    .command (.rect 2 3 9 255 1) ∧
  decodeLine [0x30, 0x33, 0x20, 0x30, 0x36, 0x20, 0x30, 0x37, 0x20, 0x41, 0x41, 0x20, 0x35, 0x35, 0x20, 0x30, 0x34, 0x20,
      0x30, 0x32, 0x20, 0x46, 0x30, 0x20, 0x38, 0x31] = .command (.tile 6 7 0xAA 0x55 4 2 [0xF0, 0x81]) ∧
  decodeLine [0x44, 0x45, 0x4C, 0x41, 0x59, 0x09, 0x30, 0x30, 0x32, 0x35, 0x30] = .command (.delay 250) ∧
  decodeCtrl 0x12 = some .encode ∧ decodeCtrl 1 = some .quantize ∧ decodeCtrl 3 = some .decStep ∧
  decodeCtrl 4 = some .decRun ∧ decodeCtrl 5 = some .decReset ∧ decodeCtrl 0 = none ∧ decodeCtrl 9 = none

/-- The number a string of decimal digits writes, most significant first (30_encoding.md R70). -/
def writtenNumber (digits : List Byte) : Nat := digits.foldl (fun n c => 10 * n + (c.toNat - 48)) 0

/-- `tail` is what a Delay line has after its keyword: at least one blank, then one to ten decimal digits that write a number of
at most 2^32-1, and nothing else (30_encoding.md R70). -/
def DelayTail (tail digits : List Byte) : Prop :=
  ∃ gap, tail = gap ++ digits ∧ gap ≠ [] ∧ (∀ c ∈ gap, isBlank c = true) ∧ digits ≠ [] ∧ digits.length ≤ 10 ∧
    (∀ c ∈ digits, 48 ≤ c.toNat ∧ c.toNat ≤ 57) ∧ writtenNumber digits ≤ 4294967295

/-- Lines that denote nothing. A hex line with an opcode byte `0x00` or `0x06` to `0xFF`, whatever follows; one with a known opcode
and a byte count other than its own; a six-byte `RECT` with a reserved colour: 30_encoding.md R67 to R69, R73 to R75. A line that
begins, after blanks, with `DELAY` and goes on with anything but a separator and one to ten digits that write at most 2^32-1; and
one that does go on so is the `DELAY` of that number, leading zeros and blanks around it allowed: R70, R61. -/
def Obligations.IllegalLinesAreFaulted : Prop :=
  (∀ (op : Byte) (args : List Byte), 3 * args.length + 2 ≤ lineMax →
    ((op.toNat = 0 ∨ 6 ≤ op.toNat) → decodeLine (hexLine (op :: args)) = .error .unknownOpcode) ∧
    ((op = 0x01 ∨ op = 0x02 ∨ op = 0x05) → args ≠ [] → decodeLine (hexLine (op :: args)) = .error .badByteCount) ∧
    (op = 0x03 → (args.length < 6 ∨ args.length ≠ 6 + (args.getD 5 0).toNat * ceil8 (args.getD 4 0).toNat) →
      decodeLine (hexLine (op :: args)) = .error .badByteCount) ∧
    (op = 0x04 → args.length ≠ 5 → decodeLine (hexLine (op :: args)) = .error .badByteCount) ∧
    (op = 0x04 → args.length = 5 → 2 ≤ (args.getD 4 0).toNat → decodeLine (hexLine (op :: args)) = .error .badColor)) ∧
  ∀ before tail after : List Byte, (∀ c ∈ before, isBlank c = true) → (∀ c ∈ after, isBlank c = true) →
    (∀ c, tail.getLast? = some c → isBlank c = false) →
    (before ++ delayKeyword ++ tail ++ after).getLast? ≠ some cr →
    (before ++ delayKeyword ++ tail ++ after).length ≤ lineMax →
    ((∀ digits, ¬ DelayTail tail digits) → decodeLine (before ++ delayKeyword ++ tail ++ after) = .error .badDelay) ∧
      ∀ digits, DelayTail tail digits →
        decodeLine (before ++ delayKeyword ++ tail ++ after) = .command (.delay (BitVec.ofNat 32 (writtenNumber digits)))

/-- A bad token of a hex line is what is reported, wherever in the line it stands, the first place included, and whatever the other
tokens are. The line is given as its first token and a list of gaps and tokens, blanks around it; it is a hex line because its
first token begins neither with the comment sign nor with the keyword of a Delay line, and a CR at its end belongs to the line's
ending: 30_encoding.md R61 to R63, 60_exceptions.md R191. -/
def Obligations.BadTokenIsReportedFirst : Prop :=
  ∀ (before first after : List Byte) (more : List (List Byte × List Byte)),
    (∀ c ∈ before, isBlank c = true) → (∀ c ∈ after, isBlank c = true) →
    (∀ p ∈ more, p.1 ≠ [] ∧ ∀ c ∈ p.1, isBlank c = true) →
    (∀ t ∈ first :: more.map Prod.snd, t ≠ [] ∧ ∀ c ∈ t, isBlank c = false) →
    first.head? ≠ some hash → first.take 5 ≠ delayKeyword →
    (∃ t ∈ first :: more.map Prod.snd, tokenByte t = none) →
    (before ++ first ++ more.flatMap (fun p => p.1 ++ p.2) ++ after).getLast? ≠ some cr →
    (before ++ first ++ more.flatMap (fun p => p.1 ++ p.2) ++ after).length ≤ lineMax →
    decodeLine (before ++ first ++ more.flatMap (fun p => p.1 ++ p.2) ++ after) = .error .badToken

/-- Blank lines and comment lines are ignored, whatever follows the `#`: 30_encoding.md R61, R62. -/
def Obligations.BlankAndCommentLinesAreIgnored : Prop :=
  ∀ blanks comment : List Byte, (∀ c ∈ blanks, isBlank c = true) → (blanks ++ hash :: comment).length ≤ lineMax →
    decodeLine blanks = .ignored ∧ decodeLine (blanks ++ [cr]) = .ignored ∧
      decodeLine (blanks ++ hash :: comment) = .ignored

/-- An over-long line is consumed whole and logged as 0x36, draws nothing, and no emitted line is over-long: 30_encoding.md
R66. -/
def Obligations.OverLongLineIsConsumedAndLogged : Prop :=
  (∀ (s : State) (raw rest : List Byte), s.DimsOk → s.csIn = raw ++ lf :: rest → lf ∉ raw → 32768 < raw.length →
    exec .decStep s = .next
      { s with
        cfgErr := false, errCode := 0, decIdle := false, csIn := rest, lineNo := satAdd s.lineNo 1,
        diag := s.diag ++ [{ line := satAdd s.lineNo 1, code := 0x36 }] }) ∧
    (∀ i : Instr, i.wellFormed = true → i.isCommand = true → (commandText i).length ≤ 24500) ∧
    (commandText (.tile 0 0 0 0 255 255 (List.replicate 8160 0))).length = 24500

/-! ## Addressing -/

/-- The rotation mapping is a bijection between the pixels of the panel and the bits of the bytes in use that are no pad bits:
20_memory.md R44, R45, R48. -/
def Obligations.RotationMappingIsBijective : Prop :=
  ∀ s : State,
    (∀ x y, s.OnPanel x y →
      s.unrotate y (s.rotatedRow x) = (x, y) ∧ s.rotatedRow x < s.width ∧ y / 8 < s.lineBytes ∧
        s.byteIndex x y < s.width * s.lineBytes ∧
        ∀ x' y', s.OnPanel x' y' → s.byteIndex x' y' = s.byteIndex x y → bitMask y' = bitMask y → x' = x ∧ y' = y) ∧
    ∀ row col, row < s.width → col < s.height →
      s.OnPanel (s.unrotate col row).1 (s.unrotate col row).2 ∧
        s.byteIndex (s.unrotate col row).1 (s.unrotate col row).2 = row * s.lineBytes + col / 8 ∧
        bitMask (s.unrotate col row).2 = (0x80 : Byte) >>> (col % 8)

/-! ## Host accesses -/

/-- A byte the host writes in a memory window is read back there, and every other byte of the three memories and every other
field is as before: 20_memory.md R40, R41. The datum is one word of which the window takes the low byte (log 8). -/
def Obligations.WindowWriteReadsBack : Prop :=
  ∀ (s : State) (k : MemId) (a : Nat) (v : Word) (q : List HostAction), a < k.capacity →
    s.hostQ = .write (k.base + a) v :: .read (k.base + a) :: q →
    ∃ t u, step s = .next t ∧ step t = .next u ∧
      (∀ j b, t.readMem j b = if j = k ∧ b = a then v.setWidth 8 else s.readMem j b) ∧
      t = { s with hostQ := .read (k.base + a) :: q, img := t.img, fb := t.fb, ps := t.ps } ∧
      u = { t with hostQ := q, hostData := (v.setWidth 8 : Byte).setWidth 32 }

/-- The offsets below `0x100` that the register map does not list (10_state.md R14). -/
abbrev unlistedOffset (offset : Nat) : Prop := offset % 4 = 0 ∧ (offset = 0xBC ∨ (0xD8 ≤ offset ∧ offset < 0x100))

/-- The offsets of the read-only registers (10_state.md R14). -/
abbrev readOnlyOffset (offset : Nat) : Prop :=
  offset % 4 = 0 ∧ (offset = 0x00 ∨ offset = 0x08 ∨ offset = 0x0C ∨ (0x34 ≤ offset ∧ offset ≤ 0x3C) ∨
    (0x80 ≤ offset ∧ offset ≤ 0xB8) ∨ offset = 0xC0 ∨ offset = 0xC4 ∨ offset = 0xCC ∨ offset = 0xD4)

/-- Accesses that reach nothing. A host read at or beyond a capacity or outside every window gives 0, a write there or to `BAYER`
is ignored, and a read of `BAYER` gives the ROM's byte with zeros above it (log 8): 20_memory.md R40. A read of an unlisted register
offset gives 0, a write there or to a read-only register is ignored: 10_state.md R14. -/
def Obligations.AccessWithoutTargetIsInert : Prop :=
  ∀ (s : State) (addr : Nat) (v : Word) (q : List HostAction),
    (0x100 ≤ addr → (∀ k : MemId, ¬ (k.base ≤ addr ∧ addr < k.base + k.capacity)) → ¬ (0x40000 ≤ addr ∧ addr < 0x40040) →
      (s.hostQ = .write addr v :: q → step s = .next { s with hostQ := q }) ∧
      (s.hostQ = .read addr :: q → step s = .next { s with hostQ := q, hostData := 0 })) ∧
    (0x40000 ≤ addr → addr < 0x40040 →
      (s.hostQ = .write addr v :: q → step s = .next { s with hostQ := q }) ∧
      (s.hostQ = .read addr :: q →
        step s = .next { s with hostQ := q, hostData := (s.bayer (addr - 0x40000)).setWidth 32 })) ∧
    (unlistedOffset addr →
      (s.hostQ = .write addr v :: q → step s = .next { s with hostQ := q }) ∧
      (s.hostQ = .read addr :: q → step s = .next { s with hostQ := q, hostData := 0 })) ∧
    (readOnlyOffset addr → s.hostQ = .write addr v :: q → step s = .next { s with hostQ := q })

/-- The value a read-write register reads back after `v` was written: the field's width of low bits (10_state.md R14), the
saturation of `STRENGTH` (R21). -/
def readBackValue (offset v : Nat) : Nat :=
  if offset = 0x1C then v % 2 ^ 5
  else if offset = 0x24 then v % 2 ^ 16
  else if offset = 0x28 then min v 256
  else if offset = 0x30 ∨ offset = 0xD0 then v
  else v % 2 ^ 8

/-- The offsets of the read-write registers (10_state.md R14). -/
abbrev readWriteOffset (offset : Nat) : Prop :=
  offset % 4 = 0 ∧ ((0x10 ≤ offset ∧ offset ≤ 0x30) ∨ (0x40 ≤ offset ∧ offset < 0x80) ∨ offset = 0xD0)

/-- Every read-write register reads back the field written, and nothing else changes: no other read-write register, and no other
state but the model's pending actions and the word the host read: 10_state.md R14, R16 to R24, R29. -/
def Obligations.RegisterWriteReadsBack : Prop :=
  ∀ (s : State) (offset : Nat) (v : Word) (q : List HostAction), readWriteOffset offset →
    s.hostQ = .write offset v :: .read offset :: q →
    ∃ t u, step s = .next t ∧ step t = .next u ∧ u.hostData.toNat = readBackValue offset v.toNat ∧
      (∀ o, readWriteOffset o → o ≠ offset → u.regValue (regAt o) = s.regValue (regAt o)) ∧
      u = { s with
        panelW := u.panelW, panelH := u.panelH, tileSize := u.tileSize, levelCount := u.levelCount, mode := u.mode,
        contrast := u.contrast, strength := u.strength, grayStep := u.grayStep, delayMs := u.delayMs, levels := u.levels,
        diagIndex := u.diagIndex, hostQ := q, hostData := u.hostData }

/-- `THRESH[i]` reads the threshold the encoder uses, and 0 where there is none; a write of it changes nothing: 10_state.md
R26. -/
def Obligations.ThreshReadsTheThreshold : Prop :=
  ∀ (s : State) (i : Nat) (q : List HostAction), i < 15 →
    (s.hostQ = .read (0x80 + 4 * i) :: q →
      ∃ t, step s = .next t ∧ t = { s with hostQ := q, hostData := t.hostData } ∧
        t.hostData.toNat =
          if (s.levelsUsed = 8 ∨ s.levelsUsed = 16) ∧ i + 2 ≤ s.levelsUsed then (s.level i + s.level (i + 1)) / 2 else 0) ∧
    ∀ v : Word, s.hostQ = .write (0x80 + 4 * i) v :: q → step s = .next { s with hostQ := q }

/-- `STATUS` reads its four flags and zero above them, `ENC_ERR` always 0; `ID` and `CTRL` read their constants; `ERR_CODE` and
`LINE_NO` read what they hold: 10_state.md R13, R14, R15, R27, R28, R29, R30. -/
def Obligations.StatusReadsTheFlags : Prop :=
  ∀ (s : State) (q : List HostAction),
    (s.hostQ = .read 0x08 :: q → ∃ t, step s = .next t ∧ t = { s with hostQ := q, hostData := t.hostData } ∧
      t.hostData.getLsbD 0 = s.cfgErr ∧ t.hostData.getLsbD 1 = false ∧ t.hostData.getLsbD 2 = s.decIdle ∧
      (t.hostData.getLsbD 3 = true ↔ s.diag ≠ []) ∧ ∀ n, 4 ≤ n → t.hostData.getLsbD n = false) ∧
    (s.hostQ = .read 0x00 :: q → step s = .next { s with hostQ := q, hostData := 0x484D0007 }) ∧
    (s.hostQ = .read 0x04 :: q → step s = .next { s with hostQ := q, hostData := 0 }) ∧
    (s.hostQ = .read 0x0C :: q → ∃ t, step s = .next t ∧ t = { s with hostQ := q, hostData := t.hostData } ∧
      t.hostData.toNat = s.errCode.toNat) ∧
    (s.hostQ = .read 0x38 :: q → step s = .next { s with hostQ := q, hostData := s.lineNo })

/-- The log through its registers, whatever its length: the count, saturating at 2^32-1; the newest record; the record at
`DIAG_INDEX` below the count; each packed as the line's low 24 bits over the code, and 0 where there is none: 10_state.md R29. -/
def Obligations.DiagRegistersReadTheLog : Prop :=
  ∀ (s : State) (q : List HostAction),
    (s.hostQ = .read 0x34 :: q → ∃ t, step s = .next t ∧ t = { s with hostQ := q, hostData := t.hostData } ∧
      t.hostData.toNat = min s.diag.length 4294967295) ∧
    (∀ (log : List DiagRecord) (r : DiagRecord), s.diag = log ++ [r] → s.hostQ = .read 0x3C :: q →
      ∃ t, step s = .next t ∧ t = { s with hostQ := q, hostData := t.hostData } ∧
        t.hostData.toNat = (r.line.toNat % 16777216) * 256 + r.code.toNat) ∧
    (s.diag = [] → s.hostQ = .read 0x3C :: q → step s = .next { s with hostQ := q, hostData := 0 }) ∧
    (∀ r : DiagRecord, s.diagIndex.toNat < 4294967295 → s.diag[s.diagIndex.toNat]? = some r → s.hostQ = .read 0xD4 :: q →
      ∃ t, step s = .next t ∧ t = { s with hostQ := q, hostData := t.hostData } ∧
        t.hostData.toNat = (r.line.toNat % 16777216) * 256 + r.code.toNat) ∧
    (min s.diag.length 4294967295 ≤ s.diagIndex.toNat → s.hostQ = .read 0xD4 :: q →
      step s = .next { s with hostQ := q, hostData := 0 })

/-- The queues through their registers: `CS_OUT_DATA` returns and removes the head, or returns 0 and removes nothing;
`CS_IN_DATA` appends the low byte; `CS_OUT_LEVEL` reads the saturating count and `CS_IN_LEVEL` the count while it fits the
register: 10_state.md R34, R35. -/
def Obligations.QueueRegistersPopAndPush : Prop :=
  ∀ (s : State) (q : List HostAction),
    (∀ (b : Byte) (rest : List Byte), s.csOut = b :: rest → s.hostQ = .read 0xC0 :: q →
      ∃ t, step s = .next t ∧ t = { s with hostQ := q, csOut := rest, hostData := t.hostData } ∧
        t.hostData.toNat = b.toNat) ∧
    (s.csOut = [] → s.hostQ = .read 0xC0 :: q → step s = .next { s with hostQ := q, hostData := 0 }) ∧
    (∀ v : Word, s.hostQ = .write 0xC8 v :: q →
      ∃ t, step s = .next t ∧ t = { s with hostQ := q, csIn := s.csIn ++ [v.setWidth 8], csInWrites := t.csInWrites }) ∧
    (s.hostQ = .read 0xC4 :: q → ∃ t, step s = .next t ∧ t = { s with hostQ := q, hostData := t.hostData } ∧
      t.hostData.toNat = min s.csOut.length 4294967295) ∧
    (s.csIn.length ≤ 4294967295 → s.hostQ = .read 0xCC :: q →
      ∃ t, step s = .next t ∧ t = { s with hostQ := q, hostData := t.hostData } ∧ t.hostData.toNat = s.csIn.length)

/-! ## Commands -/

/-- `CLEAR` makes every byte of the framebuffer in use 0xFF, pad bits included, and changes no other byte and no other state:
42_decoder.md R131. -/
def Obligations.ClearWhitensTheFramebuffer : Prop :=
  ∀ s : State, ∃ t, exec .clear s = .next t ∧ t = { s with fb := t.fb } ∧
    ∀ a, t.readMem .fb a = if a < s.width * ceil8 s.height then 0xFF else s.readMem .fb a

/-- `WHITEOUT` makes every byte of the screen in use 255 and changes no other byte and no other state: 42_decoder.md R132. -/
def Obligations.WhiteoutWhitensTheScreen : Prop :=
  ∀ s : State, ∃ t, exec .whiteout s = .next t ∧ t = { s with ps := t.ps } ∧
    ∀ a, t.readMem .ps a = if a < s.width * s.height then 255 else s.readMem .ps a

/-- `TILE` with its origin on the panel paints the pixels of its rectangle, payload bit 1 black and 0 white, and leaves every
other pixel of the panel, and all state but the framebuffer; pixels beyond the edge are dropped silently, reserved bytes are
ignored: 42_decoder.md R133, 20_memory.md R47, 30_encoding.md R68, R72. -/
def Obligations.TilePaintsItsRectangle : Prop :=
  ∀ (s : State) (x y res0 res1 w h : Byte) (payload : List Byte), payload.length = h.toNat * ceil8 w.toNat →
    s.OnPanel x.toNat y.toNat →
    ∃ t, exec (.tile x y res0 res1 w h payload) s = .next t ∧ t = { s with fb := t.fb } ∧
      ∀ px py, s.OnPanel px py →
        t.getPixel px py =
          if x.toNat ≤ px ∧ px < x.toNat + w.toNat ∧ y.toNat ≤ py ∧ py < y.toNat + h.toNat then
            !((payload.getD ((py - y.toNat) * ceil8 w.toNat + (px - x.toNat) / 8) 0).getLsbD (7 - (px - x.toNat) % 8))
          else s.getPixel px py

/-- `RECT` with its first corner on the panel paints every pixel of the inclusive rectangle that lies on the panel, white for
colour 1 and black for colour 0, none where the corners are swapped, and leaves every other pixel of the panel and all state but
the framebuffer: 42_decoder.md R134. -/
def Obligations.RectFillsItsRectangle : Prop :=
  ∀ (s : State) (x1 y1 x2 y2 color : Byte), s.OnPanel x1.toNat y1.toNat →
    ∃ t, exec (.rect x1 y1 x2 y2 color) s = .next t ∧ t = { s with fb := t.fb } ∧
      ∀ px py, s.OnPanel px py →
        t.getPixel px py =
          if x1.toNat ≤ px ∧ px ≤ x2.toNat ∧ y1.toNat ≤ py ∧ py ≤ y2.toNat then decide (color.toNat = 1)
          else s.getPixel px py

/-- The frame of `TILE` and `RECT` in memory: a byte of the framebuffer that `byteIndex` gives for no pixel of the rectangle on
the panel is as before, and so is every bit that stands for no pixel of the panel (pad bits): 20_memory.md R47, 42_decoder.md
R133, R134. -/
def Obligations.DrawingLeavesOtherBytesAndPadBits : Prop :=
  ∀ (s t : State) (x y x' y' : Byte) (w h : Nat) (i : Instr),
    ((∃ res0 res1 bw bh payload, i = .tile x y res0 res1 bw bh payload ∧ w = bw.toNat ∧ h = bh.toNat) ∨
      (∃ color, i = .rect x y x' y' color ∧ w = x'.toNat + 1 - x.toNat ∧ h = y'.toNat + 1 - y.toNat)) →
    exec i s = .next t →
    (∀ a, (∀ px py, s.OnPanel px py → x.toNat ≤ px → px < x.toNat + w → y.toNat ≤ py → py < y.toNat + h →
        a ≠ s.byteIndex px py) → t.readMem .fb a = s.readMem .fb a) ∧
      ∀ a n, n < 8 → (∀ px py, s.OnPanel px py → ¬ (a = s.byteIndex px py ∧ bitMask py = (0x80 : Byte) >>> n)) →
        (t.readMem .fb a).getLsbD (7 - n) = (s.readMem .fb a).getLsbD (7 - n)

/-- A `TILE` or `RECT` whose origin or first corner is off the panel draws nothing and adds one record, of the current line and
code 0x41: 42_decoder.md R130, R133, R134, 60_exceptions.md R190. -/
def Obligations.OriginOffThePanelIsLogged : Prop :=
  ∀ (s : State) (x y : Byte), ¬ s.OnPanel x.toNat y.toNat →
    (∀ res0 res1 w h payload, exec (.tile x y res0 res1 w h payload) s =
      .next { s with diag := s.diag ++ [{ line := s.lineNo, code := 0x41 }] }) ∧
    ∀ x2 y2 color, exec (.rect x y x2 y2 color) s =
      .next { s with diag := s.diag ++ [{ line := s.lineNo, code := 0x41 }] }

/-- `ENDLAYER` takes `GRAY_STEP` from the screen byte of every pixel black in the framebuffer, floored at 0, and changes no other
byte and no other state: 42_decoder.md R135. -/
def Obligations.EndLayerDarkensBlackPixels : Prop :=
  ∀ s : State, ∃ t, exec .endLayer s = .next t ∧ t = { s with ps := t.ps } ∧
    (∀ x y, s.OnPanel x y → (t.readMem .ps (y * s.width + x)).toNat =
      if s.getPixel x y = false then (s.readMem .ps (y * s.width + x)).toNat - s.grayStep.toNat
      else (s.readMem .ps (y * s.width + x)).toNat) ∧
    ∀ a, s.width * s.height ≤ a → t.readMem .ps a = s.readMem .ps a

/-- `DELAY` changes nothing: 42_decoder.md R136. -/
def Obligations.DelayChangesNothing : Prop :=
  ∀ (s : State) (ms : Word), exec (.delay ms) s = .next s

/-- No command but `WHITEOUT` ever raises a byte of the screen: 42_decoder.md R135. -/
def Obligations.OnlyWhiteoutRaisesTheScreen : Prop :=
  ∀ (i : Instr) (s t : State), i.isCommand = true → i ≠ .whiteout → exec i s = .next t →
    ∀ a, (t.readMem .ps a).toNat ≤ (s.readMem .ps a).toNat

/-! ## Decoder operations -/

/-- `DEC_STEP` with a command at the head of `CS_IN` is that command's meaning in the state that has consumed the line:
43_host_ops.md R163, R166. -/
def Obligations.DecStepRunsTheNextCommand : Prop :=
  ∀ (s : State) (raw rest : List Byte) (i : Instr), s.DimsOk → s.csIn = raw ++ lf :: rest → lf ∉ raw →
    decode (.line raw) = .ok i →
    ∃ t, exec i { s with
            cfgErr := false, errCode := 0, csIn := rest,
            lineNo := BitVec.ofNat 32 (min (s.lineNo.toNat + 1) 4294967295) } = .next t ∧
      exec .decStep s = .next { t with decIdle := false }

/-- `DEC_STEP` passes over an ignored line, counting it: 43_host_ops.md R163, 10_state.md R12. -/
def Obligations.DecStepPassesOverIgnoredLines : Prop :=
  ∀ (s : State) (raw rest : List Byte), s.DimsOk → s.csIn = raw ++ lf :: rest → lf ∉ raw →
    decode (.line raw) = .error .blankOrComment →
    ∃ t, exec .decStep s = .next t ∧
      exec .decStep { s with csIn := rest, lineNo := BitVec.ofNat 32 (min (s.lineNo.toNat + 1) 4294967295) } = .next t

/-- The causes for which a line denotes no command, with their codes as the table lists them (60_exceptions.md R181). -/
def causeCodes : List (LineError × Byte) :=
  [(.badToken, 0x31), (.unknownOpcode, 0x32), (.badByteCount, 0x33), (.badDelay, 0x34), (.badColor, 0x35), (.overLong, 0x36)]

/-- `DEC_STEP` on a faulty line consumes and counts it, adds one record of its number and the table's code of its cause, and
changes nothing else: 60_exceptions.md R181, R190, 42_decoder.md R138. -/
def Obligations.DecStepLogsAFaultyLine : Prop :=
  ∀ (s : State) (raw rest : List Byte) (e : LineError) (code : Byte), s.DimsOk → s.csIn = raw ++ lf :: rest → lf ∉ raw →
    decode (.line raw) = .error (.faulty e) → (e, code) ∈ causeCodes →
    exec .decStep s = .next
      { s with
        cfgErr := false, errCode := 0, decIdle := false, csIn := rest,
        lineNo := BitVec.ofNat 32 (min (s.lineNo.toNat + 1) 4294967295),
        diag := s.diag ++ [{ line := BitVec.ofNat 32 (min (s.lineNo.toNat + 1) 4294967295), code := code }] }

/-- `DEC_STEP` without a complete line sets `DEC_IDLE` and leaves the bytes where they are: 43_host_ops.md R163, 10_state.md
R36. -/
def Obligations.DecStepWithoutALineIsIdle : Prop :=
  ∀ s : State, s.DimsOk → lf ∉ s.csIn →
    exec .decStep s = .next { s with cfgErr := false, errCode := 0, decIdle := true }

/-- `DEC_RUN` without a stop request ends idle with every complete line consumed and counted; the bytes after the last LF stay:
43_host_ops.md R164, R169. -/
def Obligations.DecRunConsumesEveryLine : Prop :=
  ∀ s : State, s.DimsOk → s.stopAfter = none →
    ∃ t consumed, exec .decRun s = .next t ∧ t.decIdle = true ∧ s.csIn = consumed ++ t.csIn ∧ lf ∉ t.csIn ∧
      (consumed = [] ∨ consumed.getLast? = some lf) ∧
      t.lineNo.toNat = min (s.lineNo.toNat + s.csIn.count lf) 4294967295

/-- `DEC_RUN` without a stop request is `DEC_STEP` repeated until idle: 43_host_ops.md R164. -/
def Obligations.DecRunRepeatsDecStep : Prop :=
  ∀ s : State, s.DimsOk → s.stopAfter = none →
    ∃ u, exec .decStep s = .next u ∧ exec .decRun s = if u.decIdle then .next u else exec .decRun u

/-- `DEC_RUN` with a stop request ends after that many command lines, the first one at least, and the request is used up:
43_host_ops.md R164. That the request is held in the state, and that a request for none stops after the first line, are the
model's choices (log 5). -/
def Obligations.DecRunStopsOnRequest : Prop :=
  ∀ (s : State) (n : Nat), s.DimsOk → s.stopAfter = some n →
    ∃ u, exec .decStep s = .next u ∧
      exec .decRun s =
        if u.decIdle = true ∨ n ≤ 1 then .next { u with stopAfter := none }
        else exec .decRun { u with stopAfter := some (n - 1) }

/-- `DEC_RESET` empties the input queue and the log, zeroes the line number and the index, clears `DEC_IDLE` and the error, and
leaves all else; with a zero dimension it does nothing but report: 43_host_ops.md R165. -/
def Obligations.DecResetStartsAfresh : Prop :=
  ∀ s : State,
    (s.DimsOk → exec .decReset s = .next
      { s with
        cfgErr := false, errCode := 0, csIn := [], lineNo := 0, diag := [], diagIndex := 0, decIdle := false }) ∧
    (¬ s.DimsOk → exec .decReset s = .next { s with cfgErr := true, errCode := 0x11 })

/-- No bytes of `CS_IN` can stop the decoder, make it write a memory outside the bytes in use, touch the image, the output queue
or the configuration, or set `CFG_ERR`: 42_decoder.md R138, 10_state.md R38. -/
def Obligations.NoInputStopsOrEscapesTheDecoder : Prop :=
  ∀ (s : State) (i : Instr), (i = .decStep ∨ i = .decRun) → s.DimsOk →
    ∃ t, exec i s = .next t ∧ t.cfgErr = false ∧ t.errCode = 0 ∧
      (∀ a, s.width * s.lineBytes ≤ a → t.readMem .fb a = s.readMem .fb a) ∧
      (∀ a, s.width * s.height ≤ a → t.readMem .ps a = s.readMem .ps a) ∧
      (∃ records, t.diag = s.diag ++ records) ∧
      t = { s with
        cfgErr := false, errCode := 0, decIdle := t.decIdle, lineNo := t.lineNo, diag := t.diag, csIn := t.csIn,
        fb := t.fb, ps := t.ps, stopAfter := t.stopAfter }

/-! ## Configuration errors -/

/-- The configuration check: `QUANTIZE` and `ENCODE` make every test, the decoder operations only that of the dimensions; a failed
check sets `CFG_ERR` and the code of the first failing test and changes nothing else; an operation whose check passes clears both:
60_exceptions.md R184, R185, 43_host_ops.md R166. -/
def Obligations.ConfigurationErrorsComeInOrder : Prop :=
  ∀ (s : State) (i : Instr),
    ((i = .quantize ∨ i = .encode) →
      (¬ s.ConfigOk → exec i s = .next
        { s with
          cfgErr := true
          errCode :=
            if s.panelW = 0 ∨ s.panelH = 0 then 0x11
            else if s.tileSize = 0 then 0x12
            else if s.levelCount ≠ 8 ∧ s.levelCount ≠ 16 then 0x13
            else if ∃ k, k < s.levelCount.toNat - 1 ∧ s.level (k + 1) ≤ s.level k then 0x14
            else 0x15 }) ∧
      (s.ConfigOk → ∃ t, exec i s = .next t ∧ t.cfgErr = false ∧ t.errCode = 0)) ∧
    ((i = .decStep ∨ i = .decRun ∨ i = .decReset) →
      ((s.panelW = 0 ∨ s.panelH = 0) → exec i s = .next { s with cfgErr := true, errCode := 0x11 }) ∧
      (s.panelW ≠ 0 → s.panelH ≠ 0 → ∃ t, exec i s = .next t ∧ t.cfgErr = false ∧ t.errCode = 0))

/-- A write to `CTRL` with a reserved operation changes no state: 43_host_ops.md R167. -/
def Obligations.ReservedOperationsDoNothing : Prop :=
  ∀ (s : State) (v : Word) (q : List HostAction), (v.toNat % 16 = 0 ∨ 6 ≤ v.toNat % 16) → s.hostQ = .write 0x04 v :: q →
    step s = .next { s with hostQ := q }

/-! ## The quantizer -/

/-- `nearest(v)` is the level in use nearest to `v`, the darkest of them where several are equally near: 40_quantizer.md R91. -/
def Obligations.NearestIsTheClosestDarkestLevel : Prop :=
  ∀ (s : State) (v : Int), s.levelsUsed ≠ 0 →
    ∃ k, k < s.levelsUsed ∧ (s.nearest v).toNat = s.level k ∧
      ∀ j, j < s.levelsUsed →
        (v - (s.level k : Int)).natAbs ≤ (v - (s.level j : Int)).natAbs ∧
          (j < k → (v - (s.level k : Int)).natAbs < (v - (s.level j : Int)).natAbs)

/-- The contrast. At every gain the result is 128 plus the distance from 128 times the gain over 256, rounded to nearest with halves
up, clamped to 0..255; so gain 1.0 is the identity, gain 0 gives mid-gray, mid-gray is fixed by every gain, and a lighter pixel
never becomes darker than a darker one: 40_quantizer.md R92, R102. -/
def Obligations.ContrastFixesMidGrayAndKeepsOrder : Prop :=
  ∀ s : State,
    (∀ p : Byte, ∃ d : Int, 256 * d ≤ ((p.toNat : Int) - 128) * s.contrast.toNat + 128 ∧
      ((p.toNat : Int) - 128) * s.contrast.toNat + 128 < 256 * d + 256 ∧
      ((s.contrastOf p).toNat : Int) = max 0 (min 255 (128 + d))) ∧
    (s.contrast = 0x0100 → ∀ p, s.contrastOf p = p) ∧ (s.contrast = 0 → ∀ p, s.contrastOf p = 128) ∧
      s.contrastOf 128 = 128 ∧ ∀ p p' : Byte, p.toNat ≤ p'.toNat → (s.contrastOf p).toNat ≤ (s.contrastOf p').toNat

/-- The bias is the matrix value less 128, times the strength over 256, rounded to nearest with halves up, at every strength; so
strength 1.0 gives the matrix value less 128, strength 0 gives 0, and for every legal strength the bias lies in -128..127,
whatever the ROM holds: 40_quantizer.md R94, R95, R102. -/
def Obligations.BiasIsTheScaledMatrixValue : Prop :=
  ∀ (s : State) (x y : Nat),
    (256 * s.bias x y ≤ (((s.bayer ((y % 8) * 8 + x % 8)).toNat : Int) - 128) * s.strength.toNat + 128 ∧
      (((s.bayer ((y % 8) * 8 + x % 8)).toNat : Int) - 128) * s.strength.toNat + 128 < 256 * s.bias x y + 256) ∧
      (s.strength = 256 → s.bias x y = ((s.bayer ((y % 8) * 8 + x % 8)).toNat : Int) - 128) ∧
      (s.strength = 0 → s.bias x y = 0) ∧
      (s.strength.toNat ≤ 256 → -128 ≤ s.bias x y ∧ s.bias x y ≤ 127) ∧ s.bias (x + 8) y = s.bias x y ∧
      s.bias x (y + 8) = s.bias x y

/-- `QUANTIZE` in Threshold mode replaces every pixel in use by the level nearest to its contrasted value, whatever stands beside
it, and changes nothing else but the error state: 40_quantizer.md R90, R93. -/
def Obligations.ThresholdModeQuantizesEachPixel : Prop :=
  ∀ s : State, s.ConfigOk → s.mode = 0 →
    ∃ t, exec .quantize s = .next t ∧ t = { s with img := t.img, cfgErr := false, errCode := 0 } ∧
      ∀ a, t.readMem .img a =
        if a < s.width * s.height then s.nearest (s.contrastOf (s.readMem .img a)).toNat else s.readMem .img a

/-- `QUANTIZE` in Bayer mode replaces every pixel in use by the level nearest to its contrasted value plus its bias, and changes
nothing else but the error state: 40_quantizer.md R90, R96. -/
def Obligations.BayerModeQuantizesWithBias : Prop :=
  ∀ s : State, s.ConfigOk → s.mode = 1 →
    ∃ t, exec .quantize s = .next t ∧ t = { s with img := t.img, cfgErr := false, errCode := 0 } ∧
      (∀ x y, s.OnPanel x y → t.readMem .img (y * s.width + x) =
        s.nearest (((s.contrastOf (s.readMem .img (y * s.width + x))).toNat : Int) + s.bias x y)) ∧
      ∀ a, s.width * s.height ≤ a → t.readMem .img a = s.readMem .img a

/-- Floyd–Steinberg mode. One pixel: it becomes its nearest level, the right, lower-left, lower and lower-right neighbours inside
the image take 7, 3, 5 and 1 sixteenths of the error scaled by the strength, rounded half up and clamped to 0..255, and no other
byte changes. The operation: `QUANTIZE` leaves what a chain of images ends in that begins with the contrasted image and does that
to every pixel once, in raster order, and changes nothing else but the error state: 40_quantizer.md R90, R97, R98, R99, R102. -/
def Obligations.ErrorDiffusionRunsInRasterOrder : Prop :=
  (∀ (s : State) (img : Memory) (x y : Nat), s.OnPanel x y →
    let at' := fun (m : Memory) (px py : Nat) => m.read s.powerOns .img (py * s.width + px)
    let old : Int := (at' img x y).toNat
    let err : Int := old - (s.nearest old).toNat
    let moved := fun (b : Byte) (k : Int) => BitVec.ofNat 8
      (max 0 (min 255 ((b.toNat : Int) + (err * k * s.strength.toNat + 2048) / 4096))).toNat
    at' (s.fsPixel x y img) x y = s.nearest old ∧
    (x + 1 < s.width → at' (s.fsPixel x y img) (x + 1) y = moved (at' img (x + 1) y) 7) ∧
    (0 < x → y + 1 < s.height → at' (s.fsPixel x y img) (x - 1) (y + 1) = moved (at' img (x - 1) (y + 1)) 3) ∧
    (y + 1 < s.height → at' (s.fsPixel x y img) x (y + 1) = moved (at' img x (y + 1)) 5) ∧
    (x + 1 < s.width → y + 1 < s.height →
      at' (s.fsPixel x y img) (x + 1) (y + 1) = moved (at' img (x + 1) (y + 1)) 1) ∧
    ∀ a, a ≠ y * s.width + x → (x + 1 < s.width → a ≠ y * s.width + (x + 1)) →
      (y + 1 < s.height → (0 < x → a ≠ (y + 1) * s.width + (x - 1)) ∧ a ≠ (y + 1) * s.width + x ∧
        (x + 1 < s.width → a ≠ (y + 1) * s.width + (x + 1))) →
      (s.fsPixel x y img).read s.powerOns .img a = img.read s.powerOns .img a) ∧
  ∀ s : State, s.ConfigOk → s.mode = 2 →
    ∃ (t : State) (m : Nat → Memory), exec .quantize s = .next t ∧
      t = { s with img := t.img, cfgErr := false, errCode := 0 } ∧
      (∀ a, (m 0).read s.powerOns .img a =
        if a < s.width * s.height then s.contrastOf (s.readMem .img a) else s.readMem .img a) ∧
      (∀ x y, s.OnPanel x y → m (y * s.width + x + 1) = s.fsPixel x y (m (y * s.width + x))) ∧
      ∀ a, t.readMem .img a = (m (s.width * s.height)).read s.powerOns .img a

/-- `QUANTIZE` in Floyd–Steinberg mode with strength 0 gives every byte the value Threshold mode gives it: 40_quantizer.md
R99. -/
def Obligations.ErrorDiffusionWithoutStrengthIsThreshold : Prop :=
  ∀ s t u : State, s.ConfigOk → s.mode = 2 → s.strength = 0 → exec .quantize s = .next t →
    exec .quantize { s with mode := 0 } = .next u → ∀ a, t.readMem .img a = u.readMem .img a

/-- After a `QUANTIZE` that raised nothing every byte of the image in use is a level in use, in every mode, every byte beyond is
as before, and nothing else changes but the error state: 40_quantizer.md R100, R90. -/
def Obligations.QuantizedPixelsAreLevels : Prop :=
  ∀ s : State, s.ConfigOk →
    ∃ t, exec .quantize s = .next t ∧ t = { s with img := t.img, cfgErr := false, errCode := 0 } ∧
      (∀ a, a < s.width * s.height → ∃ k, k < s.levelsUsed ∧ (t.readMem .img a).toNat = s.level k) ∧
      ∀ a, s.width * s.height ≤ a → t.readMem .img a = s.readMem .img a

/-- In every mode a pixel of the result depends only on the pixels up to it in raster order: two images that agree up to an offset
are quantized to images that agree up to it: 40_quantizer.md R93, R96, R97, 70_reset_and_hazards.md R212. -/
def Obligations.QuantizeIsCausalInRasterOrder : Prop :=
  ∀ (s t u : State) (img : Memory) (n : Nat), s.ConfigOk →
    (∀ a, a ≤ n → s.readMem .img a = State.readMem { s with img := img } .img a) →
    exec .quantize s = .next t → exec .quantize { s with img := img } = .next u →
    ∀ a, a ≤ n → t.readMem .img a = u.readMem .img a

/-- In Threshold mode with gain 1.0 a second `QUANTIZE` changes no byte: 40_quantizer.md R101. -/
def Obligations.QuantizingTwiceIsQuantizingOnce : Prop :=
  ∀ s t u : State, s.ConfigOk → s.mode = 0 → s.contrast = 0x0100 → exec .quantize s = .next t → exec .quantize t = .next u →
    ∀ a, u.readMem .img a = t.readMem .img a

/-! ## The encoder -/

/-- The thresholds are the rounded-down midpoints, each at least its lower level and below its upper one, and they do not decrease;
with the reset table and with the recommended eight-level table they have the values the rule lists: 41_encoder.md R111. -/
def Obligations.ThresholdsLieBetweenTheirLevels : Prop :=
  (∀ s : State, s.LevelsSorted → ∀ i, i + 1 < s.levelsUsed →
    s.level i + s.level (i + 1) ≤ 509 ∧ 2 * s.threshold i ≤ s.level i + s.level (i + 1) ∧
      s.level i + s.level (i + 1) < 2 * s.threshold i + 2 ∧
      s.level i ≤ s.threshold i ∧ s.threshold i < s.level (i + 1) ∧ ∀ j, j ≤ i → s.threshold j ≤ s.threshold i) ∧
  ((List.range 15).map State.reset.threshold = [8, 25, 42, 59, 76, 93, 110, 127, 144, 161, 178, 195, 212, 229, 246]) ∧
  ∀ s : State, (List.range 8).map s.level = [0, 36, 73, 109, 146, 182, 219, 255] →
    (List.range 7).map s.threshold = [18, 54, 91, 127, 164, 200, 237]

/-- A pixel of level `k` lies below the threshold of layer `i` exactly where `k < i`, or `k = i` and the next level is at least 2
above; so with every gap at least 2 it lies in the layers from `k` on, and with a gap of 1 the threshold is the level itself:
41_encoder.md R120, 90_conflicts.md C7. -/
def Obligations.LayersOfALevel : Prop :=
  ∀ (s : State) (i k : Nat), s.LevelsSorted → i + 1 < s.levelsUsed → k < s.levelsUsed →
    (s.level k < s.threshold i ↔ k < i ∨ (k = i ∧ s.level k + 2 ≤ s.level (k + 1))) ∧
    ((∀ j, j + 1 < s.levelsUsed → s.level j + 2 ≤ s.level (j + 1)) → (s.level k < s.threshold i ↔ k ≤ i)) ∧
    (s.level (i + 1) = s.level i + 1 → s.threshold i = s.level i)

/-- `ENCODE` appends one whole stream to `CS_OUT` and changes nothing else but the error state: preamble, then for every
threshold, lightest first, the tiles and the epilogue, each command in canonical text and ended by LF: 41_encoder.md R110, R112,
R113, R117, R118. -/
def Obligations.EncodeAppendsOneStream : Prop :=
  ∀ s : State, s.ConfigOk →
    ∃ layers : List (List Instr), layers.length = s.levelsUsed - 1 ∧
      (∀ n, n < layers.length → layers[n]? = some (s.layerTiles (s.threshold (s.levelsUsed - 2 - n)))) ∧
      exec .encode s = .next
        { s with
          cfgErr := false, errCode := 0,
          csOut := s.csOut ++
            [0x30, 0x31, 0x0A, 0x30, 0x32, 0x0A] ++ ([0x44, 0x45, 0x4C, 0x41, 0x59, 0x20] ++ decimal s.delayMs ++ [0x0A]) ++
            [0x30, 0x31, 0x0A] ++
            layers.flatMap (fun tiles => tiles.flatMap commandLine ++ [0x30, 0x35, 0x0A, 0x30, 0x31, 0x0A]) }

/-- Every command of a layer is a well-formed tile at a grid origin, clipped to the panel, its reserved bytes zero, with at least
one pixel below the threshold; its payload bits say exactly which pixels lie below it, and its pad bits are 0. The tiles stand in
raster order, an earlier one in an earlier tile row or further left in the same one, so no tile of the grid is emitted twice:
41_encoder.md R114, R115, R116, R118, 30_encoding.md R72. -/
def Obligations.EmittedTilesAreTheMask : Prop :=
  ∀ (s : State) (t : Nat), s.tileSize.toNat ≠ 0 →
    (∀ i ∈ s.layerTiles t,
      ∃ x y w h payload, i = .tile x y 0 0 w h payload ∧ i.wellFormed = true ∧ s.OnPanel x.toNat y.toNat ∧
        s.tileSize.toNat ∣ x.toNat ∧ s.tileSize.toNat ∣ y.toNat ∧
        w.toNat = min s.tileSize.toNat (s.width - x.toNat) ∧ h.toNat = min s.tileSize.toNat (s.height - y.toNat) ∧
        (∃ c r, c < w.toNat ∧ r < h.toNat ∧ s.pixel (x.toNat + c) (y.toNat + r) < t) ∧
        (∀ c r, c < w.toNat → r < h.toNat →
          payloadBit w.toNat payload c r = decide (s.pixel (x.toNat + c) (y.toNat + r) < t)) ∧
        ∀ c r, w.toNat ≤ c → c < 8 * ceil8 w.toNat → r < h.toNat → payloadBit w.toNat payload c r = false) ∧
    (s.layerTiles t).Pairwise (fun i j =>
      ∀ x y w h payload x' y' w' h' payload', i = .tile x y 0 0 w h payload → j = .tile x' y' 0 0 w' h' payload' →
        y.toNat < y'.toNat ∨ (y = y' ∧ x.toNat < x'.toNat))

/-- Every pixel below the threshold lies in an emitted tile of its layer, and a layer with no such pixel has no tile:
41_encoder.md R116, R119. -/
def Obligations.EveryDarkPixelIsInATile : Prop :=
  ∀ (s : State) (t : Nat), s.tileSize.toNat ≠ 0 →
    (∀ px py, s.OnPanel px py → s.pixel px py < t →
      ∃ x y w h payload, Instr.tile x y 0 0 w h payload ∈ s.layerTiles t ∧ x.toNat ≤ px ∧ px < x.toNat + w.toNat ∧
        y.toNat ≤ py ∧ py < y.toNat + h.toNat) ∧
    ((∀ px py, s.OnPanel px py → t ≤ s.pixel px py) → s.layerTiles t = [])

/-- Replaying an encoded stream: with the same panel size the decoder ends with every screen byte at 255 less `GRAY_STEP` for each
threshold the pixel lies below, floored at 0, the framebuffer all white, no record added and the stream consumed: 42_decoder.md
R139. -/
def Obligations.ReplayRestoresTheGrays : Prop :=
  ∀ s u d : State, s.ConfigOk → exec .encode s = .next u → d.panelW = s.panelW → d.panelH = s.panelH →
    s.csOut = [] → d.csIn = u.csOut → d.stopAfter = none →
    ∃ t, exec .decRun d = .next t ∧
      (∀ x y, s.OnPanel x y →
        (t.readMem .ps (y * s.width + x)).toNat = 255 - s.layersOf x y * d.grayStep.toNat) ∧
      (∀ a, a < s.width * s.lineBytes → t.readMem .fb a = 0xFF) ∧ t.diag = d.diag ∧ t.csIn = [] ∧ t.decIdle = true

/-! ## The whole machine -/

/-- Who writes what: no instruction writes a configuration register, the level table, the ROM or anything of the host's, but that
`DEC_RUN` uses up the host's stop request where its check passes (the request is the model's, log 5); only `DEC_RESET` writes the
log's index; `QUANTIZE` and `ENCODE` leave the decoder's state, only `QUANTIZE` writes the image, only `ENCODE` appends to the output
queue: 10_state.md R38, R29. -/
def Obligations.InstructionsWriteOnlyTheirOwnState : Prop :=
  ∀ (i : Instr) (s : State), ∃ t, exec i s = .next t ∧
    ((i = .quantize ∨ i = .encode) → t.fb = s.fb ∧ t.ps = s.ps ∧ t.csIn = s.csIn ∧ t.diag = s.diag ∧ t.lineNo = s.lineNo ∧
      t.decIdle = s.decIdle) ∧
    (i ≠ .quantize → t.img = s.img) ∧ (i ≠ .encode → t.csOut = s.csOut) ∧
    t.cfg = s.cfg ∧ t.panelW = s.panelW ∧ t.panelH = s.panelH ∧ t.tileSize = s.tileSize ∧ t.levelCount = s.levelCount ∧
      t.mode = s.mode ∧ t.contrast = s.contrast ∧ t.strength = s.strength ∧ t.grayStep = s.grayStep ∧
      t.delayMs = s.delayMs ∧ t.levels = s.levels ∧ t.hostQ = s.hostQ ∧ t.hostData = s.hostData ∧
      t.powerOns = s.powerOns ∧ t.csInWrites = s.csInWrites ∧ (i ≠ .decReset → t.diagIndex = s.diagIndex) ∧
    (i ≠ .decRun ∨ ¬ s.DimsOk → t.stopAfter = s.stopAfter) ∧ (i = .decRun → s.DimsOk → t.stopAfter = none)

/-- An encoder operation and a decoder operation give the same state whichever the host starts first: 20_memory.md R52. -/
def Obligations.EncoderAndDecoderOperationsCommute : Prop :=
  ∀ (s : State) (i j : Instr), s.ConfigOk → (i = .quantize ∨ i = .encode) → (j = .decStep ∨ j = .decRun ∨ j = .decReset) →
    ∃ t u v, exec i s = .next t ∧ exec j t = .next v ∧ exec j s = .next u ∧ exec i u = .next v

/-- When the host's next action writes a word to `CTRL` that names an operation, a step is that operation's meaning in the state
that has taken the action; when the operation's code has been placed by the model's loader, the very next step is its meaning;
and when the word names `DEC_STEP` and a command line is at the head of `CS_IN`, the step is that command's meaning in the state
that has consumed the line: 43_host_ops.md R160, R163, 10_state.md R27 (the pending actions are the model's, log 1). -/
def Obligations.StepRunsTheDecodedInstruction : Prop :=
  (∀ (s : State) (v : Word) (q : List HostAction) (i : Instr), s.hostQ = .write 0x04 v :: q → decode (.ctrl v) = .ok i →
    step s = exec i { s with hostQ := q }) ∧
  (∀ (s : State) (v : Word) (i : Instr), decode (.ctrl v) = .ok i → step (s.place (.ctrl v)) = exec i s) ∧
  ∀ (s : State) (raw : List Byte) (i : Instr), s.DimsOk → lf ∉ raw → decode (.line raw) = .ok i →
    ∃ t, exec i { s with
            cfgErr := false, errCode := 0, lineNo := BitVec.ofNat 32 (min (s.lineNo.toNat + 1) 4294967295) } = .next t ∧
      step (s.place (.line raw)) = .next { t with decIdle := false }

/-- A step stops only where the host's next action names a register offset that is not a multiple of 4, and never for want of a
meaning; with no action pending the block waits: 20_memory.md R49, 70_reset_and_hazards.md R210 (log 1, log 9). -/
def Obligations.StepStopsOnlyOnAMissingRegister : Prop :=
  ∀ s : State,
    ((∃ f, step s = .fault f) ↔
      ∃ addr q, addr < 0x100 ∧ addr % 4 ≠ 0 ∧ ((∃ v, s.hostQ = .write addr v :: q) ∨ s.hostQ = .read addr :: q)) ∧
    (∀ r, step s ≠ .refused r) ∧ (s.hostQ = [] → step s = .next s)

/-- Every step keeps the state safe: the memories canonical and within their capacities, `STRENGTH` at most 256, `ERR_CODE` the
code of an error exactly while `CFG_ERR` is set, the log made of decoder causes at counted lines in order: 10_state.md R21, R28,
R29, R31 to R33, 20_memory.md R48, 60_exceptions.md R181. -/
def Obligations.StepKeepsTheStateSafe : Prop :=
  ∀ s t : State, s.Inv → step s = .next t → t.Inv

/-- The state after reset is safe. -/
def Obligations.ResetStateIsSafe : Prop := State.reset.Inv

/-- Hardware reset puts every register, flag, queue and the log to the values of the spec's table, and the state the machine starts
from holds them: 10_state.md R37, 70_reset_and_hazards.md R210. That reset is an action of the host's list is the model's choice
(log 11). -/
def Obligations.ResetGivesTheTableValues : Prop :=
  ∀ (s t : State) (q : List HostAction), (t = State.reset ∨ (s.hostQ = .reset :: q ∧ step s = .next t)) →
    t.panelW.toNat = 250 ∧ t.panelH.toNat = 122 ∧ t.tileSize.toNat = 32 ∧ t.levelCount.toNat = 16 ∧
      (∀ i, i < 16 → t.level i = 17 * i) ∧ t.mode.toNat = 0 ∧ t.contrast.toNat = 256 ∧ t.strength.toNat = 256 ∧
      t.grayStep.toNat = 17 ∧ t.delayMs.toNat = 1000 ∧ t.status.toNat = 0 ∧ t.errCode.toNat = 0 ∧ t.lineNo.toNat = 0 ∧
      t.diag = [] ∧ t.diagIndex.toNat = 0 ∧ t.csIn = [] ∧ t.csOut = [] ∧ t.img = [] ∧ t.fb = [] ∧ t.ps = []
end

