-- ==== Sys2Proof/Laws/Decode.lean ====
section
/-! SUPPORT. What the pieces of the decoder do to the text the encoder writes, and how lines are taken from a queue. -/

namespace Sys2Proof

/-! ## Hexadecimal and decimal digits -/

theorem hexDigit_hexChar {n : Nat} (h : n < 16) : hexDigit (hexChar n) = some n := by
  have : ∀ m : Fin 16, hexDigit (hexChar m.val) = some m.val := by decide
  exact this ⟨n, h⟩

/-- A character of the canonical text of a byte: it is a digit or an upper-case letter up to `F`. -/
theorem hexChar_plain {n : Nat} (h : n < 16) :
    isBlank (hexChar n) = false ∧ hexChar n ≠ cr ∧ hexChar n ≠ lf ∧ hexChar n ≠ hash := by
  have : ∀ m : Fin 16, isBlank (hexChar m.val) = false ∧ hexChar m.val ≠ cr ∧ hexChar m.val ≠ lf ∧ hexChar m.val ≠ hash := by
    decide
  exact this ⟨n, h⟩

theorem byte_hi_lt (b : Byte) : b.toNat / 16 < 16 := by have := b.isLt; omega

theorem byte_lo_lt (b : Byte) : b.toNat % 16 < 16 := Nat.mod_lt _ (by decide)

theorem tokenByte_hexByte (b : Byte) : tokenByte (hexByte b) = some b := by
  unfold hexByte tokenByte
  simp only [hexDigit_hexChar (byte_hi_lt b), hexDigit_hexChar (byte_lo_lt b)]
  congr 1
  apply BitVec.eq_of_toNat_eq
  have := b.isLt
  simp only [BitVec.toNat_ofNat]
  omega

theorem tokenBytes_map_hexByte (bs : List Byte) : tokenBytes (bs.map hexByte) = some bs := by
  induction bs with
  | nil => rfl
  | cons b bs ih => simp only [List.map_cons, tokenBytes, tokenByte_hexByte, ih]

theorem decDigit_ofNat {d : Nat} (h : d < 10) : decDigit (BitVec.ofNat 8 (48 + d)) = some d := by
  have : ∀ m : Fin 10, decDigit (BitVec.ofNat 8 (48 + m.val)) = some m.val := by decide
  exact this ⟨d, h⟩

theorem decChar_plain {d : Nat} (h : d < 10) :
    isBlank (BitVec.ofNat 8 (48 + d)) = false ∧ (BitVec.ofNat 8 (48 + d) : Byte) ≠ cr ∧
      (BitVec.ofNat 8 (48 + d) : Byte) ≠ lf := by
  have : ∀ m : Fin 10, isBlank (BitVec.ofNat 8 (48 + m.val)) = false ∧ (BitVec.ofNat 8 (48 + m.val) : Byte) ≠ cr ∧
      (BitVec.ofNat 8 (48 + m.val) : Byte) ≠ lf := by decide
  exact this ⟨d, h⟩

theorem decimalFrom_append (acc : Nat) (a b : List Byte) :
    decimalFrom acc (a ++ b) = (decimalFrom acc a).bind (fun n => decimalFrom n b) := by
  induction a generalizing acc with
  | nil => rfl
  | cons c a ih =>
    simp only [List.cons_append, decimalFrom]
    cases decDigit c with
    | none => rfl
    | some d => exact ih _

/-- The digits of a number, read back, are the number. -/
theorem decimalFrom_digits (fuel n : Nat) (h : n < 10 ^ fuel) (hf : 0 < fuel) :
    decimalFrom 0 (decimalDigits fuel n) = some n := by
  induction fuel generalizing n with
  | zero => omega
  | succ fuel ih =>
    unfold decimalDigits
    by_cases hn : n < 10
    · simp only [if_pos hn, decimalFrom, decDigit_ofNat hn, Nat.mul_zero, Nat.zero_add]
    · have hfuel : 0 < fuel := by
        rcases Nat.eq_zero_or_pos fuel with h0 | h0
        · subst h0; omega
        · exact h0
      have hdiv : n / 10 < 10 ^ fuel := by
        rw [Nat.pow_succ] at h
        omega
      rw [if_neg hn, decimalFrom_append, ih _ hdiv hfuel]
      simp only [Option.bind_some, decimalFrom, decDigit_ofNat (Nat.mod_lt n (by decide : 0 < 10))]
      congr 1
      omega

theorem decimalDigits_length (fuel n : Nat) (hf : 0 < fuel) :
    1 ≤ (decimalDigits fuel n).length ∧ (decimalDigits fuel n).length ≤ fuel := by
  induction fuel generalizing n with
  | zero => omega
  | succ fuel ih =>
    unfold decimalDigits
    split
    · simp
    · rcases Nat.eq_zero_or_pos fuel with h0 | h0
      · subst h0; simp [decimalDigits]
      · have := ih (n / 10) h0
        simp only [List.length_append, List.length_cons, List.length_nil]
        omega

theorem decimalDigits_plain (fuel n : Nat) : ∀ c ∈ decimalDigits fuel n, isBlank c = false ∧ c ≠ cr ∧ c ≠ lf := by
  induction fuel generalizing n with
  | zero => simp [decimalDigits]
  | succ fuel ih =>
    intro c hc
    unfold decimalDigits at hc
    split at hc
    case isTrue hn =>
      rw [List.mem_singleton] at hc
      subst hc
      exact decChar_plain hn
    case isFalse =>
      rcases List.mem_append.1 hc with hc | hc
      · exact ih _ c hc
      · rw [List.mem_singleton] at hc
        subst hc
        exact decChar_plain (Nat.mod_lt n (by decide))

/-- A string of digits is read as the number it writes, most significant digit first (30_encoding.md R70). -/
theorem decimalFrom_eq (acc : Nat) (ds : List Byte) (h : ∀ c ∈ ds, 48 ≤ c.toNat ∧ c.toNat ≤ 57) :
    decimalFrom acc ds = some (ds.foldl (fun n c => 10 * n + (c.toNat - 48)) acc) := by
  induction ds generalizing acc with
  | nil => rfl
  | cons c ds ih =>
    simp only [decimalFrom, decDigit, if_pos (h c (by simp))]
    exact ih _ fun d hd => h d (by simp [hd])

/-- Only strings of digits are read as numbers (30_encoding.md R70). -/
theorem digits_of_decimalFrom {acc n : Nat} {ds : List Byte} (h : decimalFrom acc ds = some n) :
    ∀ c ∈ ds, 48 ≤ c.toNat ∧ c.toNat ≤ 57 := by
  induction ds generalizing acc with
  | nil => simp
  | cons c ds ih =>
    by_cases hc : 48 ≤ c.toNat ∧ c.toNat ≤ 57
    · simp only [decimalFrom, decDigit, if_pos hc] at h
      exact List.forall_mem_cons.2 ⟨hc, ih h⟩
    · simp [decimalFrom, decDigit, if_neg hc] at h

/-! ## Cutting at blanks -/

theorem cutAtBlanks_ne_nil (l : List Byte) : cutAtBlanks l ≠ [] := by
  cases l with
  | nil => simp [cutAtBlanks]
  | cons c cs =>
    unfold cutAtBlanks
    split
    · simp
    · split <;> simp

theorem cutAtBlanks_cons_plain {c : Byte} (h : isBlank c = false) {l t : List Byte} {ts : List (List Byte)}
    (hl : cutAtBlanks l = t :: ts) : cutAtBlanks (c :: l) = (c :: t) :: ts := by
  unfold cutAtBlanks
  rw [hl]
  simp [h]

theorem cutAtBlanks_blank {c : Byte} (h : isBlank c = true) (l : List Byte) : cutAtBlanks (c :: l) = [] :: cutAtBlanks l := by
  cases hl : cutAtBlanks l with
  | nil => exact absurd hl (cutAtBlanks_ne_nil l)
  | cons t ts =>
    unfold cutAtBlanks
    rw [hl]
    simp [h]

/-- A blank-free token before a blank is cut off whole. -/
theorem cutAtBlanks_token (t : List Byte) (ht : ∀ c ∈ t, isBlank c = false) (c : Byte) (hc : isBlank c = true) (l : List Byte) :
    cutAtBlanks (t ++ c :: l) = t :: cutAtBlanks l := by
  induction t with
  | nil => exact cutAtBlanks_blank hc l
  | cons d t ih =>
    exact cutAtBlanks_cons_plain (ht d (by simp)) (ih fun e he => ht e (by simp [he]))

theorem cutAtBlanks_plain (t : List Byte) (ht : ∀ c ∈ t, isBlank c = false) : cutAtBlanks t = [t] := by
  induction t with
  | nil => rfl
  | cons d t ih =>
    exact cutAtBlanks_cons_plain (ht d (by simp)) (ih fun e he => ht e (by simp [he]))

theorem hexByte_plain (b : Byte) : ∀ c ∈ hexByte b, isBlank c = false ∧ c ≠ cr ∧ c ≠ lf ∧ c ≠ hash := by
  intro c hc
  simp only [hexByte, List.mem_cons, List.not_mem_nil, or_false] at hc
  rcases hc with rfl | rfl
  · exact hexChar_plain (byte_hi_lt b)
  · exact hexChar_plain (byte_lo_lt b)

theorem cutAtBlanks_hexLine (b : Byte) (bs : List Byte) : cutAtBlanks (hexLine (b :: bs)) = (b :: bs).map hexByte := by
  induction bs generalizing b with
  | nil => exact cutAtBlanks_plain _ fun c hc => (hexByte_plain b c hc).1
  | cons b' bs ih =>
    show cutAtBlanks (hexByte b ++ space :: hexLine (b' :: bs)) = _
    rw [cutAtBlanks_token _ (fun c hc => (hexByte_plain b c hc).1) _ rfl, ih]
    rfl

theorem tokens_hexLine (b : Byte) (bs : List Byte) : tokens (hexLine (b :: bs)) = (b :: bs).map hexByte := by
  unfold tokens
  rw [cutAtBlanks_hexLine, List.filter_eq_self]
  intro t ht
  obtain ⟨c, -, rfl⟩ := List.mem_map.1 ht
  rfl

/-- Blanks before a text add no token (30_encoding.md R63). -/
theorem tokens_blanks (gap l : List Byte) (h : ∀ c ∈ gap, isBlank c = true) : tokens (gap ++ l) = tokens l := by
  induction gap with
  | nil => rfl
  | cons c g ih =>
    rw [← ih fun d hd => h d (by simp [hd])]
    unfold tokens
    rw [List.cons_append, cutAtBlanks_blank (h c (by simp))]
    rfl

/-- A token and the run of blanks after it (30_encoding.md R63). -/
theorem tokens_token (t gap l : List Byte) (ht : t ≠ []) (hp : ∀ c ∈ t, isBlank c = false) (hg : gap ≠ [])
    (hgb : ∀ c ∈ gap, isBlank c = true) : tokens (t ++ gap ++ l) = t :: tokens l := by
  cases gap with
  | nil => exact absurd rfl hg
  | cons c g =>
    rw [← tokens_blanks g l fun d hd => hgb d (by simp [hd])]
    unfold tokens
    rw [List.append_assoc, List.cons_append, cutAtBlanks_token t hp c (hgb c (by simp)), List.filter_cons,
      if_pos (by cases t <;> simp_all)]

/-- A line of gaps and tokens is cut into those tokens (30_encoding.md R63). -/
theorem tokens_pieces (first : List Byte) (more : List (List Byte × List Byte))
    (hm : ∀ p ∈ more, p.1 ≠ [] ∧ ∀ c ∈ p.1, isBlank c = true)
    (ht : ∀ t ∈ first :: more.map Prod.snd, t ≠ [] ∧ ∀ c ∈ t, isBlank c = false) :
    tokens (first ++ more.flatMap (fun p => p.1 ++ p.2)) = first :: more.map Prod.snd := by
  induction more generalizing first with
  | nil =>
    have h := ht first (by simp)
    unfold tokens
    rw [List.flatMap_nil, List.append_nil, cutAtBlanks_plain _ h.2, List.filter_cons, if_pos (by cases first <;> simp_all)]
    rfl
  | cons p more ih =>
    have h := ht first (by simp)
    have hp := hm p (by simp)
    rw [List.flatMap_cons, ← List.append_assoc, ← List.append_assoc, List.append_assoc _ p.2,
      tokens_token _ _ _ h.1 h.2 hp.1 hp.2, ih p.2 (fun r hr => hm r (by simp [hr])) (fun t h => ht t (List.mem_cons_of_mem _ h))]
    rfl

/-- One bad token makes the whole line bad (30_encoding.md R63). -/
theorem tokenBytes_of_bad {ts : List (List Byte)} (h : ∃ t ∈ ts, tokenByte t = none) : tokenBytes ts = none := by
  induction ts with
  | nil => obtain ⟨t, h, -⟩ := h; cases h
  | cons u ts ih =>
    obtain ⟨t, hm, ht⟩ := h
    rcases List.mem_cons.1 hm with rfl | hm
    · simp only [tokenBytes, ht]
    · simp only [tokenBytes, ih ⟨t, hm, ht⟩]
      cases tokenByte u <;> rfl

/-! ## Pre-processing -/

theorem dropCr_eq_self {l : List Byte} (h : l.getLast? ≠ some cr) : dropCr l = l := by
  unfold dropCr
  rw [if_neg h]

/-- A text with a plain first and last character is left as it is. -/
theorem trimBlanks_eq_self {l : List Byte} (hh : ∀ c, l.head? = some c → isBlank c = false)
    (hl : ∀ c, l.getLast? = some c → isBlank c = false) : trimBlanks l = l := by
  have drop (m : List Byte) (h : ∀ c, m.head? = some c → isBlank c = false) : m.dropWhile isBlank = m := by
    cases m with
    | nil => rfl
    | cons c m => rw [List.dropWhile_cons, h c rfl]; rfl
  unfold trimBlanks
  rw [drop l hh, drop l.reverse (by simpa using hl), List.reverse_reverse]

theorem dropWhile_blanks (b l : List Byte) (h : ∀ c ∈ b, isBlank c = true) : (b ++ l).dropWhile isBlank = l.dropWhile isBlank := by
  induction b with
  | nil => rfl
  | cons c b ih => rw [List.cons_append, List.dropWhile_cons, h c (by simp), if_pos rfl, ih fun d hd => h d (by simp [hd])]

/-- A text with a plain first and last character is what is left of it and the blanks around it (30_encoding.md R61). -/
theorem trimBlanks_around (before m after : List Byte) (hb : ∀ c ∈ before, isBlank c = true)
    (ha : ∀ c ∈ after, isBlank c = true) (hh : ∀ c, m.head? = some c → isBlank c = false)
    (hl : ∀ c, m.getLast? = some c → isBlank c = false) : trimBlanks (before ++ m ++ after) = m := by
  have key : trimBlanks (before ++ m ++ after) = trimBlanks m := by
    unfold trimBlanks
    rw [List.append_assoc, dropWhile_blanks _ _ hb]
    cases m with
    | nil =>
      have := dropWhile_blanks after [] ha
      rw [List.append_nil] at this
      rw [List.nil_append, this]
    | cons c m =>
      rw [List.cons_append, List.dropWhile_cons, List.dropWhile_cons, hh c rfl]
      show ((c :: m ++ after).reverse.dropWhile isBlank).reverse = _
      rw [List.reverse_append, dropWhile_blanks _ _ (by simpa using ha)]
      rfl
  rw [key, trimBlanks_eq_self hh hl]

theorem hexLine_chars (bs : List Byte) : ∀ c ∈ hexLine bs, c ≠ cr ∧ c ≠ lf ∧ c ≠ hash := by
  induction bs with
  | nil => simp [hexLine]
  | cons b bs ih =>
    cases bs with
    | nil => exact fun c hc => (hexByte_plain b c hc).2
    | cons b' bs =>
      intro c hc
      have hc : c ∈ hexByte b ++ space :: hexLine (b' :: bs) := hc
      rcases List.mem_append.1 hc with hc | hc
      · exact (hexByte_plain b c hc).2
      · rcases List.mem_cons.1 hc with rfl | hc
        · decide
        · exact ih c hc

theorem hexLine_head (b : Byte) (bs : List Byte) : (hexLine (b :: bs)).head? = some (hexChar (b.toNat / 16)) := by
  cases bs <;> rfl

theorem hexLine_ne_nil (b : Byte) (bs : List Byte) : hexLine (b :: bs) ≠ [] := by
  intro h
  have := hexLine_head b bs
  rw [h] at this
  cases this

theorem hexLine_getLast (b : Byte) (bs : List Byte) :
    ∃ n, n < 16 ∧ (hexLine (b :: bs)).getLast? = some (hexChar n) := by
  induction bs generalizing b with
  | nil => exact ⟨_, byte_lo_lt b, rfl⟩
  | cons b' bs ih =>
    obtain ⟨n, hn, h⟩ := ih b'
    refine ⟨n, hn, ?_⟩
    show (hexByte b ++ space :: hexLine (b' :: bs)).getLast? = _
    rw [List.getLast?_append, List.getLast?_cons, h]
    rfl

theorem lineText_hexLine (b : Byte) (bs : List Byte) : lineText (hexLine (b :: bs)) = hexLine (b :: bs) := by
  obtain ⟨n, hn, h⟩ := hexLine_getLast b bs
  unfold lineText
  rw [dropCr_eq_self, trimBlanks_eq_self]
  · intro c hc
    rw [hexLine_head] at hc
    exact Option.some.inj hc ▸ (hexChar_plain (byte_hi_lt b)).1
  · intro c hc
    rw [h] at hc
    exact Option.some.inj hc ▸ (hexChar_plain hn).1
  · rw [h]
    exact fun hc => (hexChar_plain hn).2.1 (Option.some.inj hc)

theorem hexLine_not_delay (b : Byte) (bs : List Byte) : (hexLine (b :: bs)).take 5 ≠ delayKeyword := by
  cases bs with
  | nil => intro h; exact absurd (congrArg List.length h) (by simp [hexLine, hexByte, delayKeyword])
  | cons b' bs =>
    intro h
    have := congrArg (fun l => l[2]?) h
    simp [hexLine, hexByte, delayKeyword, space] at this

/-- A hex line written by the encoder is read by the byte decoder. -/
theorem decodeText_hexLine (b : Byte) (bs : List Byte) :
    decodeText (hexLine (b :: bs)) = .ofExcept (decodeBytes (b :: bs)) := by
  have hh := hexLine_head b bs
  have hd := hexLine_not_delay b bs
  have ht := tokens_hexLine b bs
  cases hl : hexLine (b :: bs) with
  | nil => exact absurd hl (hexLine_ne_nil b bs)
  | cons c cs =>
    rw [hl] at hh hd ht
    have hc : c ≠ hash := (Option.some.inj hh : c = _) ▸ (hexChar_plain (byte_hi_lt b)).2.2.2
    unfold decodeText
    simp only [if_neg hc, if_neg hd, ht, tokenBytes_map_hexByte]

theorem hexLine_length (b : Byte) (bs : List Byte) : (hexLine (b :: bs)).length = 3 * bs.length + 2 := by
  induction bs generalizing b with
  | nil => rfl
  | cons b' bs ih =>
    show (hexByte b ++ space :: hexLine (b' :: bs)).length = _
    rw [List.length_append, List.length_cons, ih]
    simp [hexByte]
    omega

theorem decodeLine_hexLine (b : Byte) (bs : List Byte) (h : 3 * bs.length + 2 ≤ lineMax) :
    decodeLine (hexLine (b :: bs)) = .ofExcept (decodeBytes (b :: bs)) := by
  unfold decodeLine
  rw [hexLine_length, if_neg (by omega), lineText_hexLine, decodeText_hexLine]

/-! ## Taking lines -/

/-- The bytes of a line up to its LF. -/
theorem fetchFrom_line (cur raw rest : List Byte) (h : lf ∉ raw) :
    fetchFrom cur (raw ++ lf :: rest) =
      match decodeLine (cur.reverse ++ raw) with
      | .ignored => (fetchLine rest).afterIgnored
      | .error e => { lines := 1, rest := rest, found := .error e }
      | .command i => { lines := 1, rest := rest, found := .command i } := by
  induction raw generalizing cur with
  | nil =>
    rw [List.nil_append, List.append_nil, fetchFrom, if_pos rfl]
    rfl
  | cons c raw ih =>
    have hc : c ≠ lf := fun hc => h (by simp [hc])
    rw [List.cons_append, fetchFrom, if_neg hc, ih _ (fun hm => h (by simp [hm]))]
    simp only [List.reverse_cons, List.append_assoc, List.singleton_append]

/-- The next line of a queue decides what is found, unless it is ignored (43_host_ops.md R163). -/
theorem fetchLine_line (raw rest : List Byte) (h : lf ∉ raw) :
    fetchLine (raw ++ lf :: rest) =
      match decodeLine raw with
      | .ignored => (fetchLine rest).afterIgnored
      | .error e => { lines := 1, rest := rest, found := .error e }
      | .command i => { lines := 1, rest := rest, found := .command i } := fetchFrom_line [] raw rest h

theorem fetchFrom_noLine (cur q : List Byte) (h : lf ∉ q) :
    fetchFrom cur q = { lines := 0, rest := cur.reverse ++ q, found := .idle } := by
  induction q generalizing cur with
  | nil => simp [fetchFrom]
  | cons c q ih =>
    have hc : c ≠ lf := fun hc => h (by simp [hc])
    rw [fetchFrom, if_neg hc, ih _ (fun hm => h (by simp [hm]))]
    simp

/-- Without an LF nothing is found and nothing is removed (43_host_ops.md R163). -/
theorem fetchLine_noLine (q : List Byte) (h : lf ∉ q) : fetchLine q = { lines := 0, rest := q, found := .idle } :=
  fetchFrom_noLine [] q h

/-- Every queue is either without an LF or a line and the rest. -/
theorem queue_cases (q : List Byte) : lf ∉ q ∨ ∃ raw rest, lf ∉ raw ∧ q = raw ++ lf :: rest := by
  induction q with
  | nil => exact .inl (by simp)
  | cons c q ih =>
    by_cases hc : c = lf
    · exact .inr ⟨[], q, by simp, by simp [hc]⟩
    · rcases ih with h | ⟨raw, rest, h, rfl⟩
      · exact .inl (by simp [h]; exact fun h => hc h.symm)
      · exact .inr ⟨c :: raw, rest, by simp [h]; exact fun h => hc h.symm, rfl⟩

/-- What a search of the queue can come to: it is idle with no LF left, or it removed a command line. -/
theorem fetchLine_cases (q : List Byte) :
    ((fetchLine q).found = .idle ∧ lf ∉ (fetchLine q).rest ∧ (fetchLine q).rest.length ≤ q.length) ∨
      ((fetchLine q).found ≠ .idle ∧ (fetchLine q).rest.length < q.length) := by
  induction hn : q.length using Nat.strongRecOn generalizing q with
  | ind n ih =>
    rcases queue_cases q with h | ⟨raw, rest, h, rfl⟩
    · rw [fetchLine_noLine q h]
      exact .inl ⟨rfl, h, by show q.length ≤ n; omega⟩
    · rw [fetchLine_line raw rest h]
      have hlen : rest.length < n := by rw [← hn]; simp; omega
      cases decodeLine raw with
      | ignored =>
        rcases ih rest.length hlen rest rfl with ⟨h1, h2, h3⟩ | ⟨h1, h2⟩
        · exact .inl ⟨h1, h2, by show (fetchLine rest).rest.length ≤ n; omega⟩
        · exact .inr ⟨h1, by show (fetchLine rest).rest.length < n; omega⟩
      | error e => exact .inr ⟨by simp, hlen⟩
      | command i => exact .inr ⟨by simp, hlen⟩

/-- A search removes whole lines from the head of the queue, LF included, and counts each of them (10_state.md R12). -/
theorem fetchLine_consumes (q : List Byte) :
    ∃ consumed, q = consumed ++ (fetchLine q).rest ∧ (consumed = [] ∨ consumed.getLast? = some lf) ∧
      (fetchLine q).lines = consumed.count lf := by
  induction hn : q.length using Nat.strongRecOn generalizing q with
  | ind n ih =>
    rcases queue_cases q with h | ⟨raw, rest, h, rfl⟩
    · rw [fetchLine_noLine q h]
      exact ⟨[], rfl, .inl rfl, rfl⟩
    · have hone : (raw ++ [lf]).count lf = 1 := by
        rw [List.count_append, List.count_eq_zero_of_not_mem h]; rfl
      rw [fetchLine_line raw rest h]
      have hlen : rest.length < n := by rw [← hn]; simp; omega
      cases decodeLine raw with
      | ignored =>
        obtain ⟨c, h1, h2, h3⟩ := ih rest.length hlen rest rfl
        refine ⟨raw ++ [lf] ++ c, ?_, .inr ?_, ?_⟩
        · show raw ++ lf :: rest = raw ++ [lf] ++ c ++ (fetchLine rest).rest
          rw [List.append_assoc _ c, ← h1]; simp
        · rcases h2 with rfl | h2
          · simp
          · rw [List.getLast?_append, h2]; rfl
        · show (fetchLine rest).lines + 1 = _
          rw [List.count_append, hone, h3]; omega
      | error e => exact ⟨raw ++ [lf], by simp, .inr (by simp), hone.symm⟩
      | command i => exact ⟨raw ++ [lf], by simp, .inr (by simp), hone.symm⟩

end Sys2Proof
end

