-- ==== Sys2Proof/Laws/State.lean ====
section
/-! SUPPORT. What each named update of the state leaves in each field, by computation. -/

namespace Sys2Proof.Machine

variable (s : State)

/-! ### raiseConfig -/

@[simp] theorem State.raiseConfig_cfg (e : ConfigError) : (State.raiseConfig e s).cfg = s.cfg := rfl
@[simp] theorem State.raiseConfig_panelW (e : ConfigError) : (State.raiseConfig e s).panelW = s.panelW := rfl
@[simp] theorem State.raiseConfig_panelH (e : ConfigError) : (State.raiseConfig e s).panelH = s.panelH := rfl
@[simp] theorem State.raiseConfig_tileSize (e : ConfigError) : (State.raiseConfig e s).tileSize = s.tileSize := rfl
@[simp] theorem State.raiseConfig_levelCount (e : ConfigError) : (State.raiseConfig e s).levelCount = s.levelCount := rfl
@[simp] theorem State.raiseConfig_mode (e : ConfigError) : (State.raiseConfig e s).mode = s.mode := rfl
@[simp] theorem State.raiseConfig_contrast (e : ConfigError) : (State.raiseConfig e s).contrast = s.contrast := rfl
@[simp] theorem State.raiseConfig_strength (e : ConfigError) : (State.raiseConfig e s).strength = s.strength := rfl
@[simp] theorem State.raiseConfig_grayStep (e : ConfigError) : (State.raiseConfig e s).grayStep = s.grayStep := rfl
@[simp] theorem State.raiseConfig_delayMs (e : ConfigError) : (State.raiseConfig e s).delayMs = s.delayMs := rfl
@[simp] theorem State.raiseConfig_levels (e : ConfigError) : (State.raiseConfig e s).levels = s.levels := rfl
@[simp] theorem State.raiseConfig_cfgErr (e : ConfigError) : (State.raiseConfig e s).cfgErr = true := rfl
@[simp] theorem State.raiseConfig_decIdle (e : ConfigError) : (State.raiseConfig e s).decIdle = s.decIdle := rfl
@[simp] theorem State.raiseConfig_errCode (e : ConfigError) : (State.raiseConfig e s).errCode = e.code := rfl
@[simp] theorem State.raiseConfig_lineNo (e : ConfigError) : (State.raiseConfig e s).lineNo = s.lineNo := rfl
@[simp] theorem State.raiseConfig_diag (e : ConfigError) : (State.raiseConfig e s).diag = s.diag := rfl
@[simp] theorem State.raiseConfig_diagIndex (e : ConfigError) : (State.raiseConfig e s).diagIndex = s.diagIndex := rfl
@[simp] theorem State.raiseConfig_img (e : ConfigError) : (State.raiseConfig e s).img = s.img := rfl
@[simp] theorem State.raiseConfig_fb (e : ConfigError) : (State.raiseConfig e s).fb = s.fb := rfl
@[simp] theorem State.raiseConfig_ps (e : ConfigError) : (State.raiseConfig e s).ps = s.ps := rfl
@[simp] theorem State.raiseConfig_csOut (e : ConfigError) : (State.raiseConfig e s).csOut = s.csOut := rfl
@[simp] theorem State.raiseConfig_csIn (e : ConfigError) : (State.raiseConfig e s).csIn = s.csIn := rfl
@[simp] theorem State.raiseConfig_hostQ (e : ConfigError) : (State.raiseConfig e s).hostQ = s.hostQ := rfl
@[simp] theorem State.raiseConfig_hostData (e : ConfigError) : (State.raiseConfig e s).hostData = s.hostData := rfl
@[simp] theorem State.raiseConfig_stopAfter (e : ConfigError) : (State.raiseConfig e s).stopAfter = s.stopAfter := rfl
@[simp] theorem State.raiseConfig_powerOns (e : ConfigError) : (State.raiseConfig e s).powerOns = s.powerOns := rfl
@[simp] theorem State.raiseConfig_csInWrites (e : ConfigError) : (State.raiseConfig e s).csInWrites = s.csInWrites := rfl

/-! ### clearConfig -/

@[simp] theorem State.clearConfig_cfg : (State.clearConfig s).cfg = s.cfg := rfl
@[simp] theorem State.clearConfig_panelW : (State.clearConfig s).panelW = s.panelW := rfl
@[simp] theorem State.clearConfig_panelH : (State.clearConfig s).panelH = s.panelH := rfl
@[simp] theorem State.clearConfig_tileSize : (State.clearConfig s).tileSize = s.tileSize := rfl
@[simp] theorem State.clearConfig_levelCount : (State.clearConfig s).levelCount = s.levelCount := rfl
@[simp] theorem State.clearConfig_mode : (State.clearConfig s).mode = s.mode := rfl
@[simp] theorem State.clearConfig_contrast : (State.clearConfig s).contrast = s.contrast := rfl
@[simp] theorem State.clearConfig_strength : (State.clearConfig s).strength = s.strength := rfl
@[simp] theorem State.clearConfig_grayStep : (State.clearConfig s).grayStep = s.grayStep := rfl
@[simp] theorem State.clearConfig_delayMs : (State.clearConfig s).delayMs = s.delayMs := rfl
@[simp] theorem State.clearConfig_levels : (State.clearConfig s).levels = s.levels := rfl
@[simp] theorem State.clearConfig_cfgErr : (State.clearConfig s).cfgErr = false := rfl
@[simp] theorem State.clearConfig_decIdle : (State.clearConfig s).decIdle = s.decIdle := rfl
@[simp] theorem State.clearConfig_errCode : (State.clearConfig s).errCode = 0 := rfl
@[simp] theorem State.clearConfig_lineNo : (State.clearConfig s).lineNo = s.lineNo := rfl
@[simp] theorem State.clearConfig_diag : (State.clearConfig s).diag = s.diag := rfl
@[simp] theorem State.clearConfig_diagIndex : (State.clearConfig s).diagIndex = s.diagIndex := rfl
@[simp] theorem State.clearConfig_img : (State.clearConfig s).img = s.img := rfl
@[simp] theorem State.clearConfig_fb : (State.clearConfig s).fb = s.fb := rfl
@[simp] theorem State.clearConfig_ps : (State.clearConfig s).ps = s.ps := rfl
@[simp] theorem State.clearConfig_csOut : (State.clearConfig s).csOut = s.csOut := rfl
@[simp] theorem State.clearConfig_csIn : (State.clearConfig s).csIn = s.csIn := rfl
@[simp] theorem State.clearConfig_hostQ : (State.clearConfig s).hostQ = s.hostQ := rfl
@[simp] theorem State.clearConfig_hostData : (State.clearConfig s).hostData = s.hostData := rfl
@[simp] theorem State.clearConfig_stopAfter : (State.clearConfig s).stopAfter = s.stopAfter := rfl
@[simp] theorem State.clearConfig_powerOns : (State.clearConfig s).powerOns = s.powerOns := rfl
@[simp] theorem State.clearConfig_csInWrites : (State.clearConfig s).csInWrites = s.csInWrites := rfl

/-! ### logDiag -/

@[simp] theorem State.logDiag_cfg (e : LineError) : (State.logDiag e s).cfg = s.cfg := rfl
@[simp] theorem State.logDiag_panelW (e : LineError) : (State.logDiag e s).panelW = s.panelW := rfl
@[simp] theorem State.logDiag_panelH (e : LineError) : (State.logDiag e s).panelH = s.panelH := rfl
@[simp] theorem State.logDiag_tileSize (e : LineError) : (State.logDiag e s).tileSize = s.tileSize := rfl
@[simp] theorem State.logDiag_levelCount (e : LineError) : (State.logDiag e s).levelCount = s.levelCount := rfl
@[simp] theorem State.logDiag_mode (e : LineError) : (State.logDiag e s).mode = s.mode := rfl
@[simp] theorem State.logDiag_contrast (e : LineError) : (State.logDiag e s).contrast = s.contrast := rfl
@[simp] theorem State.logDiag_strength (e : LineError) : (State.logDiag e s).strength = s.strength := rfl
@[simp] theorem State.logDiag_grayStep (e : LineError) : (State.logDiag e s).grayStep = s.grayStep := rfl
@[simp] theorem State.logDiag_delayMs (e : LineError) : (State.logDiag e s).delayMs = s.delayMs := rfl
@[simp] theorem State.logDiag_levels (e : LineError) : (State.logDiag e s).levels = s.levels := rfl
@[simp] theorem State.logDiag_cfgErr (e : LineError) : (State.logDiag e s).cfgErr = s.cfgErr := rfl
@[simp] theorem State.logDiag_decIdle (e : LineError) : (State.logDiag e s).decIdle = s.decIdle := rfl
@[simp] theorem State.logDiag_errCode (e : LineError) : (State.logDiag e s).errCode = s.errCode := rfl
@[simp] theorem State.logDiag_lineNo (e : LineError) : (State.logDiag e s).lineNo = s.lineNo := rfl
@[simp] theorem State.logDiag_diag (e : LineError) : (State.logDiag e s).diag = s.diag ++ [{ line := s.lineNo, code := e.code }] := rfl
@[simp] theorem State.logDiag_diagIndex (e : LineError) : (State.logDiag e s).diagIndex = s.diagIndex := rfl
@[simp] theorem State.logDiag_img (e : LineError) : (State.logDiag e s).img = s.img := rfl
@[simp] theorem State.logDiag_fb (e : LineError) : (State.logDiag e s).fb = s.fb := rfl
@[simp] theorem State.logDiag_ps (e : LineError) : (State.logDiag e s).ps = s.ps := rfl
@[simp] theorem State.logDiag_csOut (e : LineError) : (State.logDiag e s).csOut = s.csOut := rfl
@[simp] theorem State.logDiag_csIn (e : LineError) : (State.logDiag e s).csIn = s.csIn := rfl
@[simp] theorem State.logDiag_hostQ (e : LineError) : (State.logDiag e s).hostQ = s.hostQ := rfl
@[simp] theorem State.logDiag_hostData (e : LineError) : (State.logDiag e s).hostData = s.hostData := rfl
@[simp] theorem State.logDiag_stopAfter (e : LineError) : (State.logDiag e s).stopAfter = s.stopAfter := rfl
@[simp] theorem State.logDiag_powerOns (e : LineError) : (State.logDiag e s).powerOns = s.powerOns := rfl
@[simp] theorem State.logDiag_csInWrites (e : LineError) : (State.logDiag e s).csInWrites = s.csInWrites := rfl

/-! ### takeLines -/

@[simp] theorem State.takeLines_cfg (n : Nat) (rest : List Byte) : (State.takeLines n rest s).cfg = s.cfg := rfl
@[simp] theorem State.takeLines_panelW (n : Nat) (rest : List Byte) : (State.takeLines n rest s).panelW = s.panelW := rfl
@[simp] theorem State.takeLines_panelH (n : Nat) (rest : List Byte) : (State.takeLines n rest s).panelH = s.panelH := rfl
@[simp] theorem State.takeLines_tileSize (n : Nat) (rest : List Byte) : (State.takeLines n rest s).tileSize = s.tileSize := rfl
@[simp] theorem State.takeLines_levelCount (n : Nat) (rest : List Byte) : (State.takeLines n rest s).levelCount = s.levelCount := rfl
@[simp] theorem State.takeLines_mode (n : Nat) (rest : List Byte) : (State.takeLines n rest s).mode = s.mode := rfl
@[simp] theorem State.takeLines_contrast (n : Nat) (rest : List Byte) : (State.takeLines n rest s).contrast = s.contrast := rfl
@[simp] theorem State.takeLines_strength (n : Nat) (rest : List Byte) : (State.takeLines n rest s).strength = s.strength := rfl
@[simp] theorem State.takeLines_grayStep (n : Nat) (rest : List Byte) : (State.takeLines n rest s).grayStep = s.grayStep := rfl
@[simp] theorem State.takeLines_delayMs (n : Nat) (rest : List Byte) : (State.takeLines n rest s).delayMs = s.delayMs := rfl
@[simp] theorem State.takeLines_levels (n : Nat) (rest : List Byte) : (State.takeLines n rest s).levels = s.levels := rfl
@[simp] theorem State.takeLines_cfgErr (n : Nat) (rest : List Byte) : (State.takeLines n rest s).cfgErr = s.cfgErr := rfl
@[simp] theorem State.takeLines_decIdle (n : Nat) (rest : List Byte) : (State.takeLines n rest s).decIdle = s.decIdle := rfl
@[simp] theorem State.takeLines_errCode (n : Nat) (rest : List Byte) : (State.takeLines n rest s).errCode = s.errCode := rfl
@[simp] theorem State.takeLines_lineNo (n : Nat) (rest : List Byte) : (State.takeLines n rest s).lineNo = satAdd s.lineNo n := rfl
@[simp] theorem State.takeLines_diag (n : Nat) (rest : List Byte) : (State.takeLines n rest s).diag = s.diag := rfl
@[simp] theorem State.takeLines_diagIndex (n : Nat) (rest : List Byte) : (State.takeLines n rest s).diagIndex = s.diagIndex := rfl
@[simp] theorem State.takeLines_img (n : Nat) (rest : List Byte) : (State.takeLines n rest s).img = s.img := rfl
@[simp] theorem State.takeLines_fb (n : Nat) (rest : List Byte) : (State.takeLines n rest s).fb = s.fb := rfl
@[simp] theorem State.takeLines_ps (n : Nat) (rest : List Byte) : (State.takeLines n rest s).ps = s.ps := rfl
@[simp] theorem State.takeLines_csOut (n : Nat) (rest : List Byte) : (State.takeLines n rest s).csOut = s.csOut := rfl
@[simp] theorem State.takeLines_csIn (n : Nat) (rest : List Byte) : (State.takeLines n rest s).csIn = rest := rfl
@[simp] theorem State.takeLines_hostQ (n : Nat) (rest : List Byte) : (State.takeLines n rest s).hostQ = s.hostQ := rfl
@[simp] theorem State.takeLines_hostData (n : Nat) (rest : List Byte) : (State.takeLines n rest s).hostData = s.hostData := rfl
@[simp] theorem State.takeLines_stopAfter (n : Nat) (rest : List Byte) : (State.takeLines n rest s).stopAfter = s.stopAfter := rfl
@[simp] theorem State.takeLines_powerOns (n : Nat) (rest : List Byte) : (State.takeLines n rest s).powerOns = s.powerOns := rfl
@[simp] theorem State.takeLines_csInWrites (n : Nat) (rest : List Byte) : (State.takeLines n rest s).csInWrites = s.csInWrites := rfl

/-! ### setIdle -/

@[simp] theorem State.setIdle_cfg (b : Bool) : (State.setIdle b s).cfg = s.cfg := rfl
@[simp] theorem State.setIdle_panelW (b : Bool) : (State.setIdle b s).panelW = s.panelW := rfl
@[simp] theorem State.setIdle_panelH (b : Bool) : (State.setIdle b s).panelH = s.panelH := rfl
@[simp] theorem State.setIdle_tileSize (b : Bool) : (State.setIdle b s).tileSize = s.tileSize := rfl
@[simp] theorem State.setIdle_levelCount (b : Bool) : (State.setIdle b s).levelCount = s.levelCount := rfl
@[simp] theorem State.setIdle_mode (b : Bool) : (State.setIdle b s).mode = s.mode := rfl
@[simp] theorem State.setIdle_contrast (b : Bool) : (State.setIdle b s).contrast = s.contrast := rfl
@[simp] theorem State.setIdle_strength (b : Bool) : (State.setIdle b s).strength = s.strength := rfl
@[simp] theorem State.setIdle_grayStep (b : Bool) : (State.setIdle b s).grayStep = s.grayStep := rfl
@[simp] theorem State.setIdle_delayMs (b : Bool) : (State.setIdle b s).delayMs = s.delayMs := rfl
@[simp] theorem State.setIdle_levels (b : Bool) : (State.setIdle b s).levels = s.levels := rfl
@[simp] theorem State.setIdle_cfgErr (b : Bool) : (State.setIdle b s).cfgErr = s.cfgErr := rfl
@[simp] theorem State.setIdle_decIdle (b : Bool) : (State.setIdle b s).decIdle = b := rfl
@[simp] theorem State.setIdle_errCode (b : Bool) : (State.setIdle b s).errCode = s.errCode := rfl
@[simp] theorem State.setIdle_lineNo (b : Bool) : (State.setIdle b s).lineNo = s.lineNo := rfl
@[simp] theorem State.setIdle_diag (b : Bool) : (State.setIdle b s).diag = s.diag := rfl
@[simp] theorem State.setIdle_diagIndex (b : Bool) : (State.setIdle b s).diagIndex = s.diagIndex := rfl
@[simp] theorem State.setIdle_img (b : Bool) : (State.setIdle b s).img = s.img := rfl
@[simp] theorem State.setIdle_fb (b : Bool) : (State.setIdle b s).fb = s.fb := rfl
@[simp] theorem State.setIdle_ps (b : Bool) : (State.setIdle b s).ps = s.ps := rfl
@[simp] theorem State.setIdle_csOut (b : Bool) : (State.setIdle b s).csOut = s.csOut := rfl
@[simp] theorem State.setIdle_csIn (b : Bool) : (State.setIdle b s).csIn = s.csIn := rfl
@[simp] theorem State.setIdle_hostQ (b : Bool) : (State.setIdle b s).hostQ = s.hostQ := rfl
@[simp] theorem State.setIdle_hostData (b : Bool) : (State.setIdle b s).hostData = s.hostData := rfl
@[simp] theorem State.setIdle_stopAfter (b : Bool) : (State.setIdle b s).stopAfter = s.stopAfter := rfl
@[simp] theorem State.setIdle_powerOns (b : Bool) : (State.setIdle b s).powerOns = s.powerOns := rfl
@[simp] theorem State.setIdle_csInWrites (b : Bool) : (State.setIdle b s).csInWrites = s.csInWrites := rfl

/-! ### appendOut -/

@[simp] theorem State.appendOut_cfg (l : List Byte) : (State.appendOut l s).cfg = s.cfg := rfl
@[simp] theorem State.appendOut_panelW (l : List Byte) : (State.appendOut l s).panelW = s.panelW := rfl
@[simp] theorem State.appendOut_panelH (l : List Byte) : (State.appendOut l s).panelH = s.panelH := rfl
@[simp] theorem State.appendOut_tileSize (l : List Byte) : (State.appendOut l s).tileSize = s.tileSize := rfl
@[simp] theorem State.appendOut_levelCount (l : List Byte) : (State.appendOut l s).levelCount = s.levelCount := rfl
@[simp] theorem State.appendOut_mode (l : List Byte) : (State.appendOut l s).mode = s.mode := rfl
@[simp] theorem State.appendOut_contrast (l : List Byte) : (State.appendOut l s).contrast = s.contrast := rfl
@[simp] theorem State.appendOut_strength (l : List Byte) : (State.appendOut l s).strength = s.strength := rfl
@[simp] theorem State.appendOut_grayStep (l : List Byte) : (State.appendOut l s).grayStep = s.grayStep := rfl
@[simp] theorem State.appendOut_delayMs (l : List Byte) : (State.appendOut l s).delayMs = s.delayMs := rfl
@[simp] theorem State.appendOut_levels (l : List Byte) : (State.appendOut l s).levels = s.levels := rfl
@[simp] theorem State.appendOut_cfgErr (l : List Byte) : (State.appendOut l s).cfgErr = s.cfgErr := rfl
@[simp] theorem State.appendOut_decIdle (l : List Byte) : (State.appendOut l s).decIdle = s.decIdle := rfl
@[simp] theorem State.appendOut_errCode (l : List Byte) : (State.appendOut l s).errCode = s.errCode := rfl
@[simp] theorem State.appendOut_lineNo (l : List Byte) : (State.appendOut l s).lineNo = s.lineNo := rfl
@[simp] theorem State.appendOut_diag (l : List Byte) : (State.appendOut l s).diag = s.diag := rfl
@[simp] theorem State.appendOut_diagIndex (l : List Byte) : (State.appendOut l s).diagIndex = s.diagIndex := rfl
@[simp] theorem State.appendOut_img (l : List Byte) : (State.appendOut l s).img = s.img := rfl
@[simp] theorem State.appendOut_fb (l : List Byte) : (State.appendOut l s).fb = s.fb := rfl
@[simp] theorem State.appendOut_ps (l : List Byte) : (State.appendOut l s).ps = s.ps := rfl
@[simp] theorem State.appendOut_csOut (l : List Byte) : (State.appendOut l s).csOut = s.csOut ++ l := rfl
@[simp] theorem State.appendOut_csIn (l : List Byte) : (State.appendOut l s).csIn = s.csIn := rfl
@[simp] theorem State.appendOut_hostQ (l : List Byte) : (State.appendOut l s).hostQ = s.hostQ := rfl
@[simp] theorem State.appendOut_hostData (l : List Byte) : (State.appendOut l s).hostData = s.hostData := rfl
@[simp] theorem State.appendOut_stopAfter (l : List Byte) : (State.appendOut l s).stopAfter = s.stopAfter := rfl
@[simp] theorem State.appendOut_powerOns (l : List Byte) : (State.appendOut l s).powerOns = s.powerOns := rfl
@[simp] theorem State.appendOut_csInWrites (l : List Byte) : (State.appendOut l s).csInWrites = s.csInWrites := rfl

/-! ### setHostQ -/

@[simp] theorem State.setHostQ_cfg (q : List HostAction) : (State.setHostQ q s).cfg = s.cfg := rfl
@[simp] theorem State.setHostQ_panelW (q : List HostAction) : (State.setHostQ q s).panelW = s.panelW := rfl
@[simp] theorem State.setHostQ_panelH (q : List HostAction) : (State.setHostQ q s).panelH = s.panelH := rfl
@[simp] theorem State.setHostQ_tileSize (q : List HostAction) : (State.setHostQ q s).tileSize = s.tileSize := rfl
@[simp] theorem State.setHostQ_levelCount (q : List HostAction) : (State.setHostQ q s).levelCount = s.levelCount := rfl
@[simp] theorem State.setHostQ_mode (q : List HostAction) : (State.setHostQ q s).mode = s.mode := rfl
@[simp] theorem State.setHostQ_contrast (q : List HostAction) : (State.setHostQ q s).contrast = s.contrast := rfl
@[simp] theorem State.setHostQ_strength (q : List HostAction) : (State.setHostQ q s).strength = s.strength := rfl
@[simp] theorem State.setHostQ_grayStep (q : List HostAction) : (State.setHostQ q s).grayStep = s.grayStep := rfl
@[simp] theorem State.setHostQ_delayMs (q : List HostAction) : (State.setHostQ q s).delayMs = s.delayMs := rfl
@[simp] theorem State.setHostQ_levels (q : List HostAction) : (State.setHostQ q s).levels = s.levels := rfl
@[simp] theorem State.setHostQ_cfgErr (q : List HostAction) : (State.setHostQ q s).cfgErr = s.cfgErr := rfl
@[simp] theorem State.setHostQ_decIdle (q : List HostAction) : (State.setHostQ q s).decIdle = s.decIdle := rfl
@[simp] theorem State.setHostQ_errCode (q : List HostAction) : (State.setHostQ q s).errCode = s.errCode := rfl
@[simp] theorem State.setHostQ_lineNo (q : List HostAction) : (State.setHostQ q s).lineNo = s.lineNo := rfl
@[simp] theorem State.setHostQ_diag (q : List HostAction) : (State.setHostQ q s).diag = s.diag := rfl
@[simp] theorem State.setHostQ_diagIndex (q : List HostAction) : (State.setHostQ q s).diagIndex = s.diagIndex := rfl
@[simp] theorem State.setHostQ_img (q : List HostAction) : (State.setHostQ q s).img = s.img := rfl
@[simp] theorem State.setHostQ_fb (q : List HostAction) : (State.setHostQ q s).fb = s.fb := rfl
@[simp] theorem State.setHostQ_ps (q : List HostAction) : (State.setHostQ q s).ps = s.ps := rfl
@[simp] theorem State.setHostQ_csOut (q : List HostAction) : (State.setHostQ q s).csOut = s.csOut := rfl
@[simp] theorem State.setHostQ_csIn (q : List HostAction) : (State.setHostQ q s).csIn = s.csIn := rfl
@[simp] theorem State.setHostQ_hostQ (q : List HostAction) : (State.setHostQ q s).hostQ = q := rfl
@[simp] theorem State.setHostQ_hostData (q : List HostAction) : (State.setHostQ q s).hostData = s.hostData := rfl
@[simp] theorem State.setHostQ_stopAfter (q : List HostAction) : (State.setHostQ q s).stopAfter = s.stopAfter := rfl
@[simp] theorem State.setHostQ_powerOns (q : List HostAction) : (State.setHostQ q s).powerOns = s.powerOns := rfl
@[simp] theorem State.setHostQ_csInWrites (q : List HostAction) : (State.setHostQ q s).csInWrites = s.csInWrites := rfl

/-! ### setHostData -/

@[simp] theorem State.setHostData_cfg (w : Word) : (State.setHostData w s).cfg = s.cfg := rfl
@[simp] theorem State.setHostData_panelW (w : Word) : (State.setHostData w s).panelW = s.panelW := rfl
@[simp] theorem State.setHostData_panelH (w : Word) : (State.setHostData w s).panelH = s.panelH := rfl
@[simp] theorem State.setHostData_tileSize (w : Word) : (State.setHostData w s).tileSize = s.tileSize := rfl
@[simp] theorem State.setHostData_levelCount (w : Word) : (State.setHostData w s).levelCount = s.levelCount := rfl
@[simp] theorem State.setHostData_mode (w : Word) : (State.setHostData w s).mode = s.mode := rfl
@[simp] theorem State.setHostData_contrast (w : Word) : (State.setHostData w s).contrast = s.contrast := rfl
@[simp] theorem State.setHostData_strength (w : Word) : (State.setHostData w s).strength = s.strength := rfl
@[simp] theorem State.setHostData_grayStep (w : Word) : (State.setHostData w s).grayStep = s.grayStep := rfl
@[simp] theorem State.setHostData_delayMs (w : Word) : (State.setHostData w s).delayMs = s.delayMs := rfl
@[simp] theorem State.setHostData_levels (w : Word) : (State.setHostData w s).levels = s.levels := rfl
@[simp] theorem State.setHostData_cfgErr (w : Word) : (State.setHostData w s).cfgErr = s.cfgErr := rfl
@[simp] theorem State.setHostData_decIdle (w : Word) : (State.setHostData w s).decIdle = s.decIdle := rfl
@[simp] theorem State.setHostData_errCode (w : Word) : (State.setHostData w s).errCode = s.errCode := rfl
@[simp] theorem State.setHostData_lineNo (w : Word) : (State.setHostData w s).lineNo = s.lineNo := rfl
@[simp] theorem State.setHostData_diag (w : Word) : (State.setHostData w s).diag = s.diag := rfl
@[simp] theorem State.setHostData_diagIndex (w : Word) : (State.setHostData w s).diagIndex = s.diagIndex := rfl
@[simp] theorem State.setHostData_img (w : Word) : (State.setHostData w s).img = s.img := rfl
@[simp] theorem State.setHostData_fb (w : Word) : (State.setHostData w s).fb = s.fb := rfl
@[simp] theorem State.setHostData_ps (w : Word) : (State.setHostData w s).ps = s.ps := rfl
@[simp] theorem State.setHostData_csOut (w : Word) : (State.setHostData w s).csOut = s.csOut := rfl
@[simp] theorem State.setHostData_csIn (w : Word) : (State.setHostData w s).csIn = s.csIn := rfl
@[simp] theorem State.setHostData_hostQ (w : Word) : (State.setHostData w s).hostQ = s.hostQ := rfl
@[simp] theorem State.setHostData_hostData (w : Word) : (State.setHostData w s).hostData = w := rfl
@[simp] theorem State.setHostData_stopAfter (w : Word) : (State.setHostData w s).stopAfter = s.stopAfter := rfl
@[simp] theorem State.setHostData_powerOns (w : Word) : (State.setHostData w s).powerOns = s.powerOns := rfl
@[simp] theorem State.setHostData_csInWrites (w : Word) : (State.setHostData w s).csInWrites = s.csInWrites := rfl

/-! ### setStop -/

@[simp] theorem State.setStop_cfg (n : Option Nat) : (State.setStop n s).cfg = s.cfg := rfl
@[simp] theorem State.setStop_panelW (n : Option Nat) : (State.setStop n s).panelW = s.panelW := rfl
@[simp] theorem State.setStop_panelH (n : Option Nat) : (State.setStop n s).panelH = s.panelH := rfl
@[simp] theorem State.setStop_tileSize (n : Option Nat) : (State.setStop n s).tileSize = s.tileSize := rfl
@[simp] theorem State.setStop_levelCount (n : Option Nat) : (State.setStop n s).levelCount = s.levelCount := rfl
@[simp] theorem State.setStop_mode (n : Option Nat) : (State.setStop n s).mode = s.mode := rfl
@[simp] theorem State.setStop_contrast (n : Option Nat) : (State.setStop n s).contrast = s.contrast := rfl
@[simp] theorem State.setStop_strength (n : Option Nat) : (State.setStop n s).strength = s.strength := rfl
@[simp] theorem State.setStop_grayStep (n : Option Nat) : (State.setStop n s).grayStep = s.grayStep := rfl
@[simp] theorem State.setStop_delayMs (n : Option Nat) : (State.setStop n s).delayMs = s.delayMs := rfl
@[simp] theorem State.setStop_levels (n : Option Nat) : (State.setStop n s).levels = s.levels := rfl
@[simp] theorem State.setStop_cfgErr (n : Option Nat) : (State.setStop n s).cfgErr = s.cfgErr := rfl
@[simp] theorem State.setStop_decIdle (n : Option Nat) : (State.setStop n s).decIdle = s.decIdle := rfl
@[simp] theorem State.setStop_errCode (n : Option Nat) : (State.setStop n s).errCode = s.errCode := rfl
@[simp] theorem State.setStop_lineNo (n : Option Nat) : (State.setStop n s).lineNo = s.lineNo := rfl
@[simp] theorem State.setStop_diag (n : Option Nat) : (State.setStop n s).diag = s.diag := rfl
@[simp] theorem State.setStop_diagIndex (n : Option Nat) : (State.setStop n s).diagIndex = s.diagIndex := rfl
@[simp] theorem State.setStop_img (n : Option Nat) : (State.setStop n s).img = s.img := rfl
@[simp] theorem State.setStop_fb (n : Option Nat) : (State.setStop n s).fb = s.fb := rfl
@[simp] theorem State.setStop_ps (n : Option Nat) : (State.setStop n s).ps = s.ps := rfl
@[simp] theorem State.setStop_csOut (n : Option Nat) : (State.setStop n s).csOut = s.csOut := rfl
@[simp] theorem State.setStop_csIn (n : Option Nat) : (State.setStop n s).csIn = s.csIn := rfl
@[simp] theorem State.setStop_hostQ (n : Option Nat) : (State.setStop n s).hostQ = s.hostQ := rfl
@[simp] theorem State.setStop_hostData (n : Option Nat) : (State.setStop n s).hostData = s.hostData := rfl
@[simp] theorem State.setStop_stopAfter (n : Option Nat) : (State.setStop n s).stopAfter = n := rfl
@[simp] theorem State.setStop_powerOns (n : Option Nat) : (State.setStop n s).powerOns = s.powerOns := rfl
@[simp] theorem State.setStop_csInWrites (n : Option Nat) : (State.setStop n s).csInWrites = s.csInWrites := rfl

/-! ### setMem_img -/

@[simp] theorem State.setMem_img_cfg (m : Memory) : (State.setMem s .img m).cfg = s.cfg := rfl
@[simp] theorem State.setMem_img_panelW (m : Memory) : (State.setMem s .img m).panelW = s.panelW := rfl
@[simp] theorem State.setMem_img_panelH (m : Memory) : (State.setMem s .img m).panelH = s.panelH := rfl
@[simp] theorem State.setMem_img_tileSize (m : Memory) : (State.setMem s .img m).tileSize = s.tileSize := rfl
@[simp] theorem State.setMem_img_levelCount (m : Memory) : (State.setMem s .img m).levelCount = s.levelCount := rfl
@[simp] theorem State.setMem_img_mode (m : Memory) : (State.setMem s .img m).mode = s.mode := rfl
@[simp] theorem State.setMem_img_contrast (m : Memory) : (State.setMem s .img m).contrast = s.contrast := rfl
@[simp] theorem State.setMem_img_strength (m : Memory) : (State.setMem s .img m).strength = s.strength := rfl
@[simp] theorem State.setMem_img_grayStep (m : Memory) : (State.setMem s .img m).grayStep = s.grayStep := rfl
@[simp] theorem State.setMem_img_delayMs (m : Memory) : (State.setMem s .img m).delayMs = s.delayMs := rfl
@[simp] theorem State.setMem_img_levels (m : Memory) : (State.setMem s .img m).levels = s.levels := rfl
@[simp] theorem State.setMem_img_cfgErr (m : Memory) : (State.setMem s .img m).cfgErr = s.cfgErr := rfl
@[simp] theorem State.setMem_img_decIdle (m : Memory) : (State.setMem s .img m).decIdle = s.decIdle := rfl
@[simp] theorem State.setMem_img_errCode (m : Memory) : (State.setMem s .img m).errCode = s.errCode := rfl
@[simp] theorem State.setMem_img_lineNo (m : Memory) : (State.setMem s .img m).lineNo = s.lineNo := rfl
@[simp] theorem State.setMem_img_diag (m : Memory) : (State.setMem s .img m).diag = s.diag := rfl
@[simp] theorem State.setMem_img_diagIndex (m : Memory) : (State.setMem s .img m).diagIndex = s.diagIndex := rfl
@[simp] theorem State.setMem_img_img (m : Memory) : (State.setMem s .img m).img = m := rfl
@[simp] theorem State.setMem_img_fb (m : Memory) : (State.setMem s .img m).fb = s.fb := rfl
@[simp] theorem State.setMem_img_ps (m : Memory) : (State.setMem s .img m).ps = s.ps := rfl
@[simp] theorem State.setMem_img_csOut (m : Memory) : (State.setMem s .img m).csOut = s.csOut := rfl
@[simp] theorem State.setMem_img_csIn (m : Memory) : (State.setMem s .img m).csIn = s.csIn := rfl
@[simp] theorem State.setMem_img_hostQ (m : Memory) : (State.setMem s .img m).hostQ = s.hostQ := rfl
@[simp] theorem State.setMem_img_hostData (m : Memory) : (State.setMem s .img m).hostData = s.hostData := rfl
@[simp] theorem State.setMem_img_stopAfter (m : Memory) : (State.setMem s .img m).stopAfter = s.stopAfter := rfl
@[simp] theorem State.setMem_img_powerOns (m : Memory) : (State.setMem s .img m).powerOns = s.powerOns := rfl
@[simp] theorem State.setMem_img_csInWrites (m : Memory) : (State.setMem s .img m).csInWrites = s.csInWrites := rfl

/-! ### setMem_fb -/

@[simp] theorem State.setMem_fb_cfg (m : Memory) : (State.setMem s .fb m).cfg = s.cfg := rfl
@[simp] theorem State.setMem_fb_panelW (m : Memory) : (State.setMem s .fb m).panelW = s.panelW := rfl
@[simp] theorem State.setMem_fb_panelH (m : Memory) : (State.setMem s .fb m).panelH = s.panelH := rfl
@[simp] theorem State.setMem_fb_tileSize (m : Memory) : (State.setMem s .fb m).tileSize = s.tileSize := rfl
@[simp] theorem State.setMem_fb_levelCount (m : Memory) : (State.setMem s .fb m).levelCount = s.levelCount := rfl
@[simp] theorem State.setMem_fb_mode (m : Memory) : (State.setMem s .fb m).mode = s.mode := rfl
@[simp] theorem State.setMem_fb_contrast (m : Memory) : (State.setMem s .fb m).contrast = s.contrast := rfl
@[simp] theorem State.setMem_fb_strength (m : Memory) : (State.setMem s .fb m).strength = s.strength := rfl
@[simp] theorem State.setMem_fb_grayStep (m : Memory) : (State.setMem s .fb m).grayStep = s.grayStep := rfl
@[simp] theorem State.setMem_fb_delayMs (m : Memory) : (State.setMem s .fb m).delayMs = s.delayMs := rfl
@[simp] theorem State.setMem_fb_levels (m : Memory) : (State.setMem s .fb m).levels = s.levels := rfl
@[simp] theorem State.setMem_fb_cfgErr (m : Memory) : (State.setMem s .fb m).cfgErr = s.cfgErr := rfl
@[simp] theorem State.setMem_fb_decIdle (m : Memory) : (State.setMem s .fb m).decIdle = s.decIdle := rfl
@[simp] theorem State.setMem_fb_errCode (m : Memory) : (State.setMem s .fb m).errCode = s.errCode := rfl
@[simp] theorem State.setMem_fb_lineNo (m : Memory) : (State.setMem s .fb m).lineNo = s.lineNo := rfl
@[simp] theorem State.setMem_fb_diag (m : Memory) : (State.setMem s .fb m).diag = s.diag := rfl
@[simp] theorem State.setMem_fb_diagIndex (m : Memory) : (State.setMem s .fb m).diagIndex = s.diagIndex := rfl
@[simp] theorem State.setMem_fb_img (m : Memory) : (State.setMem s .fb m).img = s.img := rfl
@[simp] theorem State.setMem_fb_fb (m : Memory) : (State.setMem s .fb m).fb = m := rfl
@[simp] theorem State.setMem_fb_ps (m : Memory) : (State.setMem s .fb m).ps = s.ps := rfl
@[simp] theorem State.setMem_fb_csOut (m : Memory) : (State.setMem s .fb m).csOut = s.csOut := rfl
@[simp] theorem State.setMem_fb_csIn (m : Memory) : (State.setMem s .fb m).csIn = s.csIn := rfl
@[simp] theorem State.setMem_fb_hostQ (m : Memory) : (State.setMem s .fb m).hostQ = s.hostQ := rfl
@[simp] theorem State.setMem_fb_hostData (m : Memory) : (State.setMem s .fb m).hostData = s.hostData := rfl
@[simp] theorem State.setMem_fb_stopAfter (m : Memory) : (State.setMem s .fb m).stopAfter = s.stopAfter := rfl
@[simp] theorem State.setMem_fb_powerOns (m : Memory) : (State.setMem s .fb m).powerOns = s.powerOns := rfl
@[simp] theorem State.setMem_fb_csInWrites (m : Memory) : (State.setMem s .fb m).csInWrites = s.csInWrites := rfl

/-! ### setMem_ps -/

@[simp] theorem State.setMem_ps_cfg (m : Memory) : (State.setMem s .ps m).cfg = s.cfg := rfl
@[simp] theorem State.setMem_ps_panelW (m : Memory) : (State.setMem s .ps m).panelW = s.panelW := rfl
@[simp] theorem State.setMem_ps_panelH (m : Memory) : (State.setMem s .ps m).panelH = s.panelH := rfl
@[simp] theorem State.setMem_ps_tileSize (m : Memory) : (State.setMem s .ps m).tileSize = s.tileSize := rfl
@[simp] theorem State.setMem_ps_levelCount (m : Memory) : (State.setMem s .ps m).levelCount = s.levelCount := rfl
@[simp] theorem State.setMem_ps_mode (m : Memory) : (State.setMem s .ps m).mode = s.mode := rfl
@[simp] theorem State.setMem_ps_contrast (m : Memory) : (State.setMem s .ps m).contrast = s.contrast := rfl
@[simp] theorem State.setMem_ps_strength (m : Memory) : (State.setMem s .ps m).strength = s.strength := rfl
@[simp] theorem State.setMem_ps_grayStep (m : Memory) : (State.setMem s .ps m).grayStep = s.grayStep := rfl
@[simp] theorem State.setMem_ps_delayMs (m : Memory) : (State.setMem s .ps m).delayMs = s.delayMs := rfl
@[simp] theorem State.setMem_ps_levels (m : Memory) : (State.setMem s .ps m).levels = s.levels := rfl
@[simp] theorem State.setMem_ps_cfgErr (m : Memory) : (State.setMem s .ps m).cfgErr = s.cfgErr := rfl
@[simp] theorem State.setMem_ps_decIdle (m : Memory) : (State.setMem s .ps m).decIdle = s.decIdle := rfl
@[simp] theorem State.setMem_ps_errCode (m : Memory) : (State.setMem s .ps m).errCode = s.errCode := rfl
@[simp] theorem State.setMem_ps_lineNo (m : Memory) : (State.setMem s .ps m).lineNo = s.lineNo := rfl
@[simp] theorem State.setMem_ps_diag (m : Memory) : (State.setMem s .ps m).diag = s.diag := rfl
@[simp] theorem State.setMem_ps_diagIndex (m : Memory) : (State.setMem s .ps m).diagIndex = s.diagIndex := rfl
@[simp] theorem State.setMem_ps_img (m : Memory) : (State.setMem s .ps m).img = s.img := rfl
@[simp] theorem State.setMem_ps_fb (m : Memory) : (State.setMem s .ps m).fb = s.fb := rfl
@[simp] theorem State.setMem_ps_ps (m : Memory) : (State.setMem s .ps m).ps = m := rfl
@[simp] theorem State.setMem_ps_csOut (m : Memory) : (State.setMem s .ps m).csOut = s.csOut := rfl
@[simp] theorem State.setMem_ps_csIn (m : Memory) : (State.setMem s .ps m).csIn = s.csIn := rfl
@[simp] theorem State.setMem_ps_hostQ (m : Memory) : (State.setMem s .ps m).hostQ = s.hostQ := rfl
@[simp] theorem State.setMem_ps_hostData (m : Memory) : (State.setMem s .ps m).hostData = s.hostData := rfl
@[simp] theorem State.setMem_ps_stopAfter (m : Memory) : (State.setMem s .ps m).stopAfter = s.stopAfter := rfl
@[simp] theorem State.setMem_ps_powerOns (m : Memory) : (State.setMem s .ps m).powerOns = s.powerOns := rfl
@[simp] theorem State.setMem_ps_csInWrites (m : Memory) : (State.setMem s .ps m).csInWrites = s.csInWrites := rfl

end Sys2Proof.Machine
end

