-- ==== Sys2Proof/Laws/Memory.lean ====
section
/-! SUPPORT. Everything the memory operations can do: read after write, canonical form, capacity. -/

namespace Sys2Proof.Machine

/-! ## lookup -/

@[simp] theorem lookup_nil (a : Nat) : Memory.lookup [] a = none := rfl

theorem lookup_cons (c : Host.Cell) (m : Memory) (a : Nat) :
    Memory.lookup (c :: m) a = if c.1 = a then some c.2 else Memory.lookup m a := rfl

theorem lookup_append (l m : Memory) (a : Nat) :
    Memory.lookup (l ++ m) a = (Memory.lookup l a).or (Memory.lookup m a) := by
  induction l with
  | nil => simp
  | cons c l ih =>
    simp only [List.cons_append, lookup_cons, ih]
    split <;> simp

theorem lookup_eq_none (m : Memory) (a : Nat) (h : ∀ c ∈ m, c.1 ≠ a) : Memory.lookup m a = none := by
  induction m with
  | nil => rfl
  | cons c m ih =>
    rw [lookup_cons, if_neg (h c (by simp))]
    exact ih fun d hd => h d (by simp [hd])

theorem lookup_filter_ge (n a : Nat) (m : Memory) :
    Memory.lookup (m.filter (fun c => decide (n ≤ c.1))) a = if n ≤ a then m.lookup a else none := by
  induction m with
  | nil => simp
  | cons c m ih =>
    by_cases hc : n ≤ c.1
    · simp only [List.filter_cons, hc, decide_true, if_true, lookup_cons, ih]
      by_cases hca : c.1 = a
      · simp [hca, hca ▸ hc]
      · simp [hca]
    · simp only [List.filter_cons, hc, decide_false, Bool.false_eq_true, if_false, lookup_cons, ih]
      by_cases hca : c.1 = a
      · have : ¬ n ≤ a := hca ▸ hc
        simp [this]
      · simp [hca]

theorem lookup_rangeMap (g : Nat → Option Byte) (n a : Nat) :
    Memory.lookup ((List.range n).filterMap (fun b => (g b).map (fun v => (b, v)))) a = if a < n then g a else none := by
  induction n with
  | zero => simp
  | succ n ih =>
    rw [List.range_succ, List.filterMap_append, lookup_append, ih]
    by_cases h : a < n
    · have h' : a < n + 1 := by omega
      simp only [h, h', if_true]
      cases hg : g n with
      | none => simp [hg]
      | some v =>
        have : n ≠ a := by omega
        simp [hg, lookup_cons, this]
    · simp only [h, if_false, Option.none_or]
      by_cases h2 : a = n
      · subst h2
        cases hg : g a <;> simp [hg, lookup_cons]
      · have h' : ¬ a < n + 1 := by omega
        have : n ≠ a := fun h => h2 h.symm
        cases hg : g n <;> simp [hg, lookup_cons, h', this]

/-! ## Read after write -/

theorem lookup_store (m : Memory) (a b : Nat) (v : Byte) :
    (m.store a v).lookup b = if b = a then some v else m.lookup b := by
  induction m with
  | nil => simp only [Memory.store, lookup_cons, lookup_nil, eq_comm]
  | cons c m ih =>
    have flip (x : Nat) : (x = b) = (b = x) := propext eq_comm
    unfold Memory.store
    split
    case isTrue => simp only [lookup_cons (a, v), flip]
    case isFalse =>
      split
      case isTrue h2 => subst h2; simp only [lookup_cons, flip]; split <;> rfl
      case isFalse h2 =>
        simp only [lookup_cons, ih, flip]
        by_cases h3 : b = c.1
        · have : b ≠ a := by omega
          simp only [if_pos h3, if_neg this]
        · simp only [if_neg h3]

theorem lookup_update (n : Nat) (f : Nat → Option Byte) (m : Memory) (a : Nat) :
    (m.update n f).lookup a = if a < n then (f a).or (m.lookup a) else m.lookup a := by
  unfold Memory.update
  rw [lookup_append, lookup_rangeMap (fun b => (f b).or (m.lookup b)), lookup_filter_ge]
  by_cases h : a < n
  · have : ¬ n ≤ a := by omega
    simp [h, this]
  · have : n ≤ a := by omega
    simp [h, this]

@[simp] theorem read_store (n : Nat) (k : MemId) (m : Memory) (a b : Nat) (v : Byte) :
    (m.store a v).read n k b = if b = a then v else m.read n k b := by
  unfold Memory.read
  rw [lookup_store]
  split <;> simp

@[simp] theorem read_update (n : Nat) (k : MemId) (m : Memory) (len : Nat) (f : Nat → Option Byte) (a : Nat) :
    (m.update len f).read n k a = if a < len then (f a).getD (m.read n k a) else m.read n k a := by
  unfold Memory.read
  rw [lookup_update]
  split
  · cases f a <;> simp
  · rfl

@[simp] theorem read_fill (n : Nat) (k : MemId) (m : Memory) (len : Nat) (v : Byte) (a : Nat) :
    (m.fill len v).read n k a = if a < len then v else m.read n k a := by
  simp [Memory.fill]

/-! ## Membership, canonical form and capacity -/

theorem mem_store {m : Memory} {a : Nat} {v : Byte} {c : Host.Cell} (h : c ∈ m.store a v) : c = (a, v) ∨ c ∈ m := by
  induction m with
  | nil => simpa [Memory.store] using h
  | cons d m ih =>
    unfold Memory.store at h
    split at h
    · rcases List.mem_cons.1 h with h | h
      · exact .inl h
      · exact .inr h
    · split at h
      · rcases List.mem_cons.1 h with h | h
        · exact .inl h
        · exact .inr (by simp [h])
      · rcases List.mem_cons.1 h with h | h
        · exact .inr (by simp [h])
        · rcases ih h with h | h
          · exact .inl h
          · exact .inr (by simp [h])

theorem store_wf {m : Memory} (h : m.wf) (a : Nat) (v : Byte) : (m.store a v).wf := by
  induction m with
  | nil => simp [Memory.store, Memory.wf]
  | cons d m ih =>
    have hd := (List.pairwise_cons.1 h).1
    have hm := (List.pairwise_cons.1 h).2
    unfold Memory.store
    split
    case isTrue h1 =>
      refine List.pairwise_cons.2 ⟨fun c hc => ?_, h⟩
      rcases List.mem_cons.1 hc with hc | hc
      · subst hc; exact h1
      · exact Nat.lt_trans h1 (hd c hc)
    case isFalse h1 =>
      split
      case isTrue h2 =>
        subst h2
        exact List.pairwise_cons.2 ⟨hd, hm⟩
      case isFalse h2 =>
        refine List.pairwise_cons.2 ⟨fun c hc => ?_, ih hm⟩
        rcases mem_store hc with hc | hc
        · subst hc; show d.1 < a; omega
        · exact hd c hc

theorem mem_update {n : Nat} {f : Nat → Option Byte} {m : Memory} {c : Host.Cell} (h : c ∈ m.update n f) :
    c.1 < n ∨ c ∈ m := by
  unfold Memory.update at h
  rcases List.mem_append.1 h with h | h
  · obtain ⟨a, ha, h⟩ := List.mem_filterMap.1 h
    obtain ⟨v, -, rfl⟩ := Option.map_eq_some_iff.1 h
    exact .inl (List.mem_range.1 ha)
  · exact .inr (List.mem_filter.1 h).1

theorem update_wf {m : Memory} (h : m.wf) (n : Nat) (f : Nat → Option Byte) : (m.update n f).wf := by
  unfold Memory.update Memory.wf
  refine List.pairwise_append.2 ⟨?_, List.Pairwise.filter _ h, ?_⟩
  · rw [List.pairwise_filterMap]
    refine List.Pairwise.imp ?_ List.pairwise_lt_range
    intro a b hab c hc d hd
    obtain ⟨v, -, rfl⟩ := Option.map_eq_some_iff.1 hc
    obtain ⟨w, -, rfl⟩ := Option.map_eq_some_iff.1 hd
    exact hab
  · intro c hc d hd
    obtain ⟨a, ha, hc⟩ := List.mem_filterMap.1 hc
    obtain ⟨v, -, rfl⟩ := Option.map_eq_some_iff.1 hc
    have hn : n ≤ d.1 := by simpa using (List.mem_filter.1 hd).2
    exact Nat.lt_of_lt_of_le (List.mem_range.1 ha) hn

/-- Canonical and within a bound. -/
abbrev Memory.Within (m : Memory) (n : Nat) : Prop := m.wf ∧ ∀ c ∈ m, c.1 < n

theorem store_within {m : Memory} {n a : Nat} (h : m.Within n) (ha : a < n) (v : Byte) : (m.store a v).Within n :=
  ⟨store_wf h.1 a v, fun c hc => by
    rcases mem_store hc with rfl | hc
    · exact ha
    · exact h.2 c hc⟩

theorem update_within {m : Memory} {n len : Nat} (h : m.Within n) (hl : len ≤ n) (f : Nat → Option Byte) :
    (m.update len f).Within n :=
  ⟨update_wf h.1 len f, fun c hc => by
    rcases mem_update hc with hc | hc
    · exact Nat.lt_of_lt_of_le hc hl
    · exact h.2 c hc⟩

theorem fill_within {m : Memory} {n len : Nat} (h : m.Within n) (hl : len ≤ n) (v : Byte) : (m.fill len v).Within n :=
  update_within h hl _

/-! ## Folds of memory writes -/

/-- A property every write of a fold keeps, the fold keeps. -/
theorem foldl_keeps {α β : Type} (P : β → Prop) (f : β → α → β) (l : List α) (b : β) (hb : P b)
    (hf : ∀ b a, a ∈ l → P b → P (f b a)) : P (l.foldl f b) := by
  induction l generalizing b with
  | nil => exact hb
  | cons a l ih =>
    exact ih (f b a) (hf b a (by simp) hb) fun b a' ha => hf b a' (by simp [ha])

/-! ## Reads of the state -/

@[simp] theorem State.readMem_setMem_same (s : State) (k : MemId) (m : Memory) (a : Nat) :
    (s.setMem k m).readMem k a = m.read s.powerOns k a := by
  cases k <;> rfl

theorem State.readMem_setMem_other (s : State) (k j : MemId) (m : Memory) (a : Nat) (h : j ≠ k) :
    (s.setMem k m).readMem j a = s.readMem j a := by
  cases k <;> cases j <;> first | rfl | exact absurd rfl h

@[simp] theorem State.mem_setMem_same (s : State) (k : MemId) (m : Memory) : (s.setMem k m).mem k = m := by
  cases k <;> rfl

theorem State.mem_setMem_other (s : State) (k j : MemId) (m : Memory) (h : j ≠ k) : (s.setMem k m).mem j = s.mem j := by
  cases k <;> cases j <;> first | rfl | exact absurd rfl h

@[simp] theorem State.readMem_img (s : State) (a : Nat) : s.readMem .img a = s.img.read s.powerOns .img a := rfl
@[simp] theorem State.readMem_fb (s : State) (a : Nat) : s.readMem .fb a = s.fb.read s.powerOns .fb a := rfl
@[simp] theorem State.readMem_ps (s : State) (a : Nat) : s.readMem .ps a = s.ps.read s.powerOns .ps a := rfl

end Sys2Proof.Machine
end

