-- ==== Sys2Proof/Laws/Pixels.lean ====
section
/-! SUPPORT. The rotation mapping is a bijection (20_memory.md R48), and what one pixel write and the pixel loops of `TILE` and
`RECT` do to every bit of the framebuffer. -/

namespace Sys2Proof.Machine

/-! ## Sizes -/

theorem State.width_le (s : State) : s.width ≤ 255 := by
  have := s.panelW.isLt; unfold State.width; omega

theorem State.height_le (s : State) : s.height ≤ 255 := by
  have := s.panelH.isLt; unfold State.height; omega

theorem State.lineBytes_le (s : State) : s.lineBytes ≤ 32 := by
  have := s.height_le; unfold State.lineBytes ceil8; omega

theorem State.fbUsed_le (s : State) : s.width * s.lineBytes ≤ MemId.capacity .fb :=
  Nat.le_trans (Nat.mul_le_mul s.width_le s.lineBytes_le) (by decide)

theorem State.pixelsUsed_le (s : State) : s.width * s.height ≤ 65025 :=
  Nat.le_trans (Nat.mul_le_mul s.width_le s.height_le) (by decide)

/-! ## The mapping -/

theorem State.byteCol_lt {s : State} {y : Nat} (hy : y < s.height) : y / 8 < s.lineBytes := by
  unfold State.lineBytes ceil8; omega

theorem State.byteIndex_lt {s : State} {x y : Nat} (h : s.OnPanel x y) : s.byteIndex x y < s.width * s.lineBytes := by
  have hc := State.byteCol_lt h.2
  have hr : s.rotatedRow x + 1 ≤ s.width := by have := h.1; unfold State.rotatedRow; omega
  calc s.byteIndex x y < s.rotatedRow x * s.lineBytes + s.lineBytes := by unfold State.byteIndex; omega
    _ = (s.rotatedRow x + 1) * s.lineBytes := by rw [Nat.succ_mul]
    _ ≤ s.width * s.lineBytes := Nat.mul_le_mul_right _ hr

theorem State.byteIndex_inj {s : State} {x y x' y' : Nat} (h : s.OnPanel x y) (h' : s.OnPanel x' y')
    (he : s.byteIndex x y = s.byteIndex x' y') : x = x' ∧ y / 8 = y' / 8 := by
  have hc := State.byteCol_lt h.2
  have hc' := State.byteCol_lt h'.2
  unfold State.byteIndex at he
  have hpos : 0 < s.lineBytes := by omega
  have hrow : s.rotatedRow x = s.rotatedRow x' := by
    have e := congrArg (· / s.lineBytes) he
    simpa [Nat.mul_add_div hpos, Nat.mul_comm _ s.lineBytes, Nat.div_eq_of_lt hc, Nat.div_eq_of_lt hc'] using e
  have hx := h.1
  have hx' := h'.1
  rw [hrow] at he
  unfold State.rotatedRow at hrow
  omega

/-! ## Bits of a byte -/

theorem bitMask_bit (y i : Nat) : (bitMask y).getLsbD i = decide (i = 7 - y % 8) := by
  have hy : y % 8 < 8 := Nat.mod_lt _ (by decide)
  unfold bitMask
  generalize y % 8 = r at hy
  have : (0x80 : Byte).getLsbD (r + i) = decide (r + i = 7) := by
    by_cases h : r + i < 8
    · have : ∀ j : Fin 8, (0x80 : Byte).getLsbD j.val = decide (j.val = 7) := by decide
      exact this ⟨r + i, h⟩
    · rw [BitVec.getLsbD_of_ge _ _ (by omega)]
      simp; omega
  rw [BitVec.getLsbD_ushiftRight, this]
  simp; omega

theorem getPixel_eq_bit (b : Byte) (y : Nat) : ((b &&& bitMask y) != 0) = b.getLsbD (7 - y % 8) := by
  have hy : y % 8 < 8 := Nat.mod_lt _ (by decide)
  unfold bitMask
  generalize y % 8 = r at hy
  have : ∀ r : Fin 8, ∀ b : Fin (2 ^ 8),
      (((BitVec.ofFin b : Byte) &&& ((0x80 : Byte) >>> r.val)) != 0) = (BitVec.ofFin b : Byte).getLsbD (7 - r.val) := by
    decide +kernel
  exact this ⟨r, hy⟩ b.toFin

/-- A pixel of framebuffer content `fb`: true is white. -/
def State.fbPixel (s : State) (fb : Memory) (x y : Nat) : Bool :=
  (fb.read s.powerOns .fb (s.byteIndex x y)).getLsbD (7 - y % 8)

theorem State.getPixel_eq (s : State) (x y : Nat) : s.getPixel x y = s.fbPixel s.fb x y := by
  unfold State.getPixel State.fbPixel
  rw [getPixel_eq_bit]; rfl

/-! ## One pixel write -/

/-- Every bit of the framebuffer after one pixel write. -/
theorem State.setPixel_bit (s : State) (px py : Nat) (white : Bool) (fb : Memory) (a i : Nat) (hi : i < 8) :
    ((s.setPixel px py white fb).read s.powerOns .fb a).getLsbD i =
      if s.OnPanel px py ∧ a = s.byteIndex px py ∧ i = 7 - py % 8 then white
      else (fb.read s.powerOns .fb a).getLsbD i := by
  unfold State.setPixel
  by_cases hp : s.OnPanel px py
  · have : ¬ (s.width ≤ px ∨ s.height ≤ py) := by have := hp.1; have := hp.2; omega
    rw [if_neg this, read_store, if_congr (and_iff_right hp) rfl rfl]
    by_cases ha : a = s.byteIndex px py
    · subst ha
      simp only [if_true, true_and]
      cases white with
      | true =>
        simp only [if_true, BitVec.getLsbD_or, bitMask_bit]
        by_cases h : i = 7 - py % 8 <;> simp [h]
      | false =>
        have h255 : (0xFF : Byte).getLsbD i = true := by
          have : ∀ j : Fin 8, (0xFF : Byte).getLsbD j.val = true := by decide
          exact this ⟨i, hi⟩
        simp only [Bool.false_eq_true, if_false, BitVec.getLsbD_and, BitVec.getLsbD_xor, bitMask_bit, h255]
        by_cases h : i = 7 - py % 8 <;> simp [h]
    · simp [ha]
  · have : s.width ≤ px ∨ s.height ≤ py := by
      by_contra hc
      exact hp ⟨by omega, by omega⟩
    have hc : ¬ (s.OnPanel px py ∧ a = s.byteIndex px py ∧ i = 7 - py % 8) := fun h => hp h.1
    simp only [if_pos this, if_neg hc]

/-- A pixel write sets the pixel it names and no other. -/
theorem State.fbPixel_setPixel (s : State) (px py : Nat) (white : Bool) (fb : Memory) {x y : Nat} (h : s.OnPanel x y) :
    s.fbPixel (s.setPixel px py white fb) x y = if x = px ∧ y = py then white else s.fbPixel fb x y := by
  unfold State.fbPixel
  rw [State.setPixel_bit _ _ _ _ _ _ _ (by omega)]
  by_cases hxy : x = px ∧ y = py
  · obtain ⟨rfl, rfl⟩ := hxy
    simp [h]
  · rw [if_neg hxy, if_neg]
    rintro ⟨hp, ha, hi⟩
    have := State.byteIndex_inj h hp ha
    exact hxy ⟨this.1, by omega⟩

/-- A pixel write leaves every byte but the one it addresses. -/
theorem State.read_setPixel (s : State) (px py : Nat) (white : Bool) (fb : Memory) (a : Nat)
    (ha : ¬ (s.OnPanel px py ∧ a = s.byteIndex px py)) :
    (s.setPixel px py white fb).read s.powerOns .fb a = fb.read s.powerOns .fb a := by
  unfold State.setPixel
  split
  · rfl
  · rw [read_store, if_neg]
    intro he
    exact ha ⟨⟨by omega, by omega⟩, he⟩

theorem State.setPixel_within (s : State) (px py : Nat) (white : Bool) {fb : Memory} (h : fb.Within (MemId.capacity .fb)) :
    (s.setPixel px py white fb).Within (MemId.capacity .fb) := by
  unfold State.setPixel
  split
  · exact h
  · exact store_within h (Nat.lt_of_lt_of_le (State.byteIndex_lt ⟨by omega, by omega⟩) s.fbUsed_le) _

/-! ## A rectangle of pixel writes -/

/-- The pixel loops of `TILE` and `RECT`: rows of pixel writes from `(x, y)`, `white c r` giving the colour. -/
def State.paint (s : State) (x y w h : Nat) (white : Nat → Nat → Bool) (fb : Memory) : Memory :=
  (List.range h).foldl (fun fb r =>
    (List.range w).foldl (fun fb c => s.setPixel (x + c) (y + r) (white c r) fb) fb) fb

theorem State.tilePixels_eq (s : State) (x y w h : Nat) (payload : List Byte) :
    s.tilePixels x y w h payload = s.paint x y w h (fun c r => !payloadBit w payload c r) s.fb := rfl

theorem State.rectPixels_eq (s : State) (x1 y1 x2 y2 : Nat) (white : Bool) :
    s.rectPixels x1 y1 x2 y2 white = s.paint x1 y1 (x2 + 1 - x1) (y2 + 1 - y1) (fun _ _ => white) s.fb := rfl

theorem State.fbPixel_row (s : State) (x yr w : Nat) (white : Nat → Bool) (fb : Memory) {X Y : Nat} (h : s.OnPanel X Y) :
    s.fbPixel ((List.range w).foldl (fun fb c => s.setPixel (x + c) yr (white c) fb) fb) X Y =
      if Y = yr ∧ x ≤ X ∧ X < x + w then white (X - x) else s.fbPixel fb X Y := by
  induction w with
  | zero => rw [if_neg (by omega)]; rfl
  | succ w ih =>
    rw [List.range_succ, List.foldl_append, List.foldl_cons, List.foldl_nil, State.fbPixel_setPixel _ _ _ _ _ h, ih]
    by_cases h1 : X = x + w ∧ Y = yr
    · obtain ⟨rfl, rfl⟩ := h1
      simp
    · rw [if_neg h1]
      by_cases h2 : Y = yr ∧ x ≤ X ∧ X < x + w
      · rw [if_pos h2, if_pos (by omega)]
      · rw [if_neg h2, if_neg (by omega)]

/-- Every pixel of the panel after a rectangle of pixel writes. -/
theorem State.fbPixel_paint (s : State) (x y w h : Nat) (white : Nat → Nat → Bool) (fb : Memory) {X Y : Nat}
    (hp : s.OnPanel X Y) :
    s.fbPixel (s.paint x y w h white fb) X Y =
      if (x ≤ X ∧ X < x + w) ∧ y ≤ Y ∧ Y < y + h then white (X - x) (Y - y) else s.fbPixel fb X Y := by
  unfold State.paint
  induction h with
  | zero => rw [if_neg (by omega)]; rfl
  | succ h ih =>
    rw [List.range_succ, List.foldl_append, List.foldl_cons, List.foldl_nil,
      State.fbPixel_row s x (y + h) w (fun c => white c h) _ hp, ih]
    by_cases h1 : Y = y + h ∧ x ≤ X ∧ X < x + w
    · rw [if_pos h1, if_pos (by omega)]
      have : Y - y = h := by omega
      rw [this]
    · rw [if_neg h1]
      by_cases h2 : (x ≤ X ∧ X < x + w) ∧ y ≤ Y ∧ Y < y + h
      · rw [if_pos h2, if_pos (by omega)]
      · rw [if_neg h2, if_neg (by omega)]

/-- A byte that no pixel of the rectangle addresses is as before. -/
theorem State.read_paint (s : State) (x y w h : Nat) (white : Nat → Nat → Bool) (fb : Memory) (a : Nat)
    (ha : ∀ X Y, s.OnPanel X Y → x ≤ X → X < x + w → y ≤ Y → Y < y + h → a ≠ s.byteIndex X Y) :
    (s.paint x y w h white fb).read s.powerOns .fb a = fb.read s.powerOns .fb a := by
  unfold State.paint
  refine foldl_keeps (fun m : Memory => m.read s.powerOns .fb a = fb.read s.powerOns .fb a) _ _ _ rfl fun m r hr hm => ?_
  refine foldl_keeps (fun m : Memory => m.read s.powerOns .fb a = fb.read s.powerOns .fb a) _ _ _ hm fun m c hc hm => ?_
  have hr := List.mem_range.1 hr
  have hc := List.mem_range.1 hc
  rw [State.read_setPixel, hm]
  rintro ⟨hp, he⟩
  exact ha _ _ hp (by omega) (by omega) (by omega) (by omega) he

/-- A bit that stands for no pixel of the panel is as before: pad bits, and bytes beyond those in use. -/
theorem State.paint_otherBits (s : State) (x y w h : Nat) (white : Nat → Nat → Bool) (fb : Memory) (a i : Nat) (hi : i < 8)
    (ha : ∀ X Y, s.OnPanel X Y → ¬ (a = s.byteIndex X Y ∧ i = 7 - Y % 8)) :
    ((s.paint x y w h white fb).read s.powerOns .fb a).getLsbD i = (fb.read s.powerOns .fb a).getLsbD i := by
  unfold State.paint
  refine foldl_keeps (fun m : Memory => (m.read s.powerOns .fb a).getLsbD i = (fb.read s.powerOns .fb a).getLsbD i)
    _ _ _ rfl fun m r _ hm => ?_
  refine foldl_keeps (fun m : Memory => (m.read s.powerOns .fb a).getLsbD i = (fb.read s.powerOns .fb a).getLsbD i)
    _ _ _ hm fun m c _ hm => ?_
  rw [State.setPixel_bit _ _ _ _ _ _ _ hi, if_neg, hm]
  rintro ⟨hp, hb⟩
  exact ha _ _ hp hb

theorem State.paint_within (s : State) (x y w h : Nat) (white : Nat → Nat → Bool) {fb : Memory}
    (hf : fb.Within (MemId.capacity .fb)) : (s.paint x y w h white fb).Within (MemId.capacity .fb) := by
  unfold State.paint
  refine foldl_keeps (fun m : Memory => m.Within (MemId.capacity .fb)) _ _ _ hf fun m r _ hm => ?_
  exact foldl_keeps (fun m : Memory => m.Within (MemId.capacity .fb)) _ _ _ hm fun m c _ hm => s.setPixel_within _ _ _ hm

end Sys2Proof.Machine
end

