-- ==== Sys2Proof/Laws/Exec.lean ====
section
/-! SUPPORT. What each meaning can do: `exec` always goes on, a command changes only decoder state, the check has two outcomes,
a step of the decoder takes one command line. -/

namespace Sys2Proof.Machine

/-! ## The configuration check -/

theorem State.panelW_zero (s : State) : s.panelW = 0 ↔ s.width = 0 := by
  unfold State.width
  exact ⟨fun h => by rw [h]; rfl, fun h => BitVec.eq_of_toNat_eq h⟩

theorem State.panelH_zero (s : State) : s.panelH = 0 ↔ s.height = 0 := by
  unfold State.height
  exact ⟨fun h => by rw [h]; rfl, fun h => BitVec.eq_of_toNat_eq h⟩

theorem State.checkConfig_dims (s : State) : s.checkConfig .dims = if s.width = 0 ∨ s.height = 0 then some .dimensions else none := by
  unfold State.checkConfig
  simp only [State.panelW_zero, State.panelH_zero]

theorem State.checkConfig_dims_none (s : State) : s.checkConfig .dims = none ↔ s.DimsOk := by
  rw [State.checkConfig_dims]
  unfold State.DimsOk
  split
  case isTrue h => exact ⟨fun e => (nomatch e), fun e => absurd h (by omega)⟩
  case isFalse h => exact ⟨fun _ => by omega, fun _ => rfl⟩

theorem State.levelsAscend_iff (s : State) : s.levelsAscend = true ↔ s.LevelsSorted := by
  unfold State.levelsAscend State.LevelsSorted
  simp only [List.all_eq_true, List.mem_range, decide_eq_true_eq]
  exact ⟨fun h i hi => h i (by omega), fun h i hi => h i (by omega)⟩

theorem State.checkConfig_full_none (s : State) : s.checkConfig .full = none ↔ s.ConfigOk := by
  have ht : s.tileSize = 0 ↔ s.tileSize.toNat = 0 := ⟨fun h => by rw [h]; rfl, fun h => BitVec.eq_of_toNat_eq h⟩
  unfold State.checkConfig
  simp only [State.panelW_zero, State.panelH_zero, ht]
  constructor
  · intro h
    split at h
    · cases h
    · split at h
      · cases h
      · split at h
        · cases h
        · split at h
          · cases h
          · split at h
            · cases h
            · refine ⟨⟨by omega, by omega⟩, by omega, by omega, ?_, by omega⟩
              exact s.levelsAscend_iff.1 (by simpa using ‹¬ s.levelsAscend = false›)
  · intro h
    have hs := s.levelsAscend_iff.2 h.sorted
    have hd := h.dims
    unfold State.DimsOk at hd
    have := h.tile
    have := h.count
    have := h.mode
    rw [if_neg (by omega), if_neg (by omega), if_neg (by omega), if_neg (by simp [hs]), if_neg (by omega)]

theorem State.guarded_cases (k : CheckKind) (act : State → State) (s : State) :
    (∃ e, s.checkConfig k = some e ∧ s.guarded k act = s.raiseConfig e) ∨
      (s.checkConfig k = none ∧ s.guarded k act = act s.clearConfig) := by
  unfold State.guarded
  cases h : s.checkConfig k with
  | none => exact .inr ⟨rfl, rfl⟩
  | some e => exact .inl ⟨e, rfl, rfl⟩

theorem State.guarded_pass {k : CheckKind} {s : State} (h : s.checkConfig k = none) (act : State → State) :
    s.guarded k act = act s.clearConfig := by
  unfold State.guarded; rw [h]

theorem State.guarded_fail {k : CheckKind} {s : State} {e : ConfigError} (h : s.checkConfig k = some e) (act : State → State) :
    s.guarded k act = s.raiseConfig e := by
  unfold State.guarded; rw [h]

/-! ## Commands -/

/-- A command's meaning is its effect. -/
theorem exec_command {i : Instr} (h : i.isCommand = true) (s : State) : exec i s = .next (s.runCommand i) := by
  cases i <;> first | rfl | cases h

/-- A command changes the framebuffer, the screen and the log, and nothing else. -/
theorem State.runCommand_frame (i : Instr) (s : State) :
    s.runCommand i =
      { s with fb := (s.runCommand i).fb, ps := (s.runCommand i).ps, diag := (s.runCommand i).diag } := by
  cases i with
  | tile x y r0 r1 w h payload =>
    show s.drawTile x y w h payload = _
    simp only [State.runCommand]
    unfold State.drawTile
    split <;> rfl
  | rect x1 y1 x2 y2 color =>
    show s.drawRect x1 y1 x2 y2 color = _
    simp only [State.runCommand]
    unfold State.drawRect
    split <;> rfl
  | _ => rfl

theorem State.runCommand_fb_within (i : Instr) {s : State} (h : s.fb.Within (MemId.capacity .fb)) :
    (s.runCommand i).fb.Within (MemId.capacity .fb) := by
  cases i with
  | clear => exact fill_within h s.fbUsed_le _
  | tile x y r0 r1 w hh payload =>
    show (s.drawTile x y w hh payload).fb.Within _
    unfold State.drawTile
    split
    · exact h
    · exact s.paint_within _ _ _ _ _ h
  | rect x1 y1 x2 y2 color =>
    show (s.drawRect x1 y1 x2 y2 color).fb.Within _
    unfold State.drawRect
    split
    · exact h
    · exact s.paint_within _ _ _ _ _ h
  | _ => exact h

theorem State.runCommand_ps_within (i : Instr) {s : State} (h : s.ps.Within (MemId.capacity .ps)) :
    (s.runCommand i).ps.Within (MemId.capacity .ps) := by
  cases i with
  | whiteout => exact fill_within h s.pixelsUsed_le _
  | endLayer => exact update_within h s.pixelsUsed_le _
  | tile x y r0 r1 w hh payload =>
    show (s.drawTile x y w hh payload).ps.Within _
    unfold State.drawTile
    split <;> exact h
  | rect x1 y1 x2 y2 color =>
    show (s.drawRect x1 y1 x2 y2 color).ps.Within _
    unfold State.drawRect
    split <;> exact h
  | _ => exact h

/-- A command adds at most one record, of the current line. -/
theorem State.runCommand_diag (i : Instr) (s : State) :
    (s.runCommand i).diag = s.diag ∨ ∃ e : LineError, (s.runCommand i).diag = s.diag ++ [{ line := s.lineNo, code := e.code }] := by
  cases i with
  | tile x y r0 r1 w h payload =>
    show (s.drawTile x y w h payload).diag = _ ∨ ∃ e : LineError, (s.drawTile x y w h payload).diag = _
    unfold State.drawTile
    split
    · exact .inr ⟨_, rfl⟩
    · exact .inl rfl
  | rect x1 y1 x2 y2 color =>
    show (s.drawRect x1 y1 x2 y2 color).diag = _ ∨ ∃ e : LineError, (s.drawRect x1 y1 x2 y2 color).diag = _
    unfold State.drawRect
    split
    · exact .inr ⟨_, rfl⟩
    · exact .inl rfl
  | _ => exact .inl rfl

/-! ## One step of the decoder -/

theorem State.stepLine_idle {s : State} (h : (fetchLine s.csIn).found = .idle) :
    s.stepLine = (s.takeLines (fetchLine s.csIn).lines (fetchLine s.csIn).rest).setIdle true := by
  unfold State.stepLine State.takeFetched; rw [h]

theorem State.stepLine_error {s : State} {e : LineError} (h : (fetchLine s.csIn).found = .error e) :
    s.stepLine = ((s.takeLines (fetchLine s.csIn).lines (fetchLine s.csIn).rest).logDiag e).setIdle false := by
  unfold State.stepLine State.takeFetched; rw [h]

theorem State.stepLine_command {s : State} {i : Instr} (h : (fetchLine s.csIn).found = .command i) :
    s.stepLine = ((s.takeLines (fetchLine s.csIn).lines (fetchLine s.csIn).rest).runCommand i).setIdle false := by
  unfold State.stepLine State.takeFetched; rw [h]

theorem State.stepLine_csIn (s : State) : s.stepLine.csIn = (fetchLine s.csIn).rest := by
  unfold State.stepLine State.takeFetched
  cases (fetchLine s.csIn).found with
  | idle => rfl
  | error e => rfl
  | command i =>
    simp only [State.setIdle_csIn]
    rw [State.runCommand_frame]
    rfl

theorem State.stepLine_decIdle (s : State) : s.stepLine.decIdle = decide ((fetchLine s.csIn).found = .idle) := by
  unfold State.stepLine State.takeFetched
  cases (fetchLine s.csIn).found <;> rfl

theorem State.stepLine_lineNo (s : State) : s.stepLine.lineNo = satAdd s.lineNo (fetchLine s.csIn).lines := by
  unfold State.stepLine State.takeFetched
  cases (fetchLine s.csIn).found with
  | idle => rfl
  | error e => rfl
  | command i =>
    simp only [State.setIdle_lineNo]
    rw [State.runCommand_frame]
    rfl

/-- A step of the decoder changes the queue, the position, the log, the two decoder memories and `DEC_IDLE`, nothing else. -/
theorem State.stepLine_frame (s : State) :
    s.stepLine =
      { s with csIn := s.stepLine.csIn, lineNo := s.stepLine.lineNo, diag := s.stepLine.diag, fb := s.stepLine.fb,
               ps := s.stepLine.ps, decIdle := s.stepLine.decIdle } := by
  unfold State.stepLine State.takeFetched
  cases (fetchLine s.csIn).found with
  | idle => rfl
  | error e => rfl
  | command i =>
    simp only
    rw [State.runCommand_frame]
    rfl

/-- A property of states that every step of the decoder keeps, every run of it keeps. -/
theorem State.runLines_keeps (P : State → Prop) (hP : ∀ s, P s → P s.stepLine) (fuel : Nat) (stop : Option Nat) (s : State)
    (h : P s) : P (s.runLines fuel stop) := by
  induction fuel generalizing stop s with
  | zero => exact h
  | succ fuel ih =>
    unfold State.runLines
    have h1 := hP s h
    split
    · exact h1
    · split
      · exact ih _ _ h1
      · split
        · exact h1
        · exact ih _ _ h1

/-- With enough fuel a run without a stop request ends idle, with no LF left in the queue (43_host_ops.md R164). -/
theorem State.runLines_ends (fuel : Nat) (s : State) (hf : s.csIn.length < fuel) :
    (s.runLines fuel none).decIdle = true ∧ lf ∉ (s.runLines fuel none).csIn := by
  induction fuel generalizing s with
  | zero => omega
  | succ fuel ih =>
    unfold State.runLines
    rcases fetchLine_cases s.csIn with ⟨h1, h2, -⟩ | ⟨h1, h2⟩
    · have hi : s.stepLine.decIdle = true := by rw [State.stepLine_decIdle]; simp [h1]
      rw [if_pos hi]
      exact ⟨hi, by rw [State.stepLine_csIn]; exact h2⟩
    · have hi : s.stepLine.decIdle = false := by rw [State.stepLine_decIdle]; simp [h1]
      rw [if_neg (by simp [hi])]
      exact ih _ (by rw [State.stepLine_csIn]; omega)

/-- More fuel than bytes makes no difference. -/
theorem State.runLines_fuel (fuel fuel' : Nat) (stop : Option Nat) (s : State) (hf : s.csIn.length < fuel)
    (hf' : s.csIn.length < fuel') : s.runLines fuel stop = s.runLines fuel' stop := by
  induction fuel generalizing fuel' stop s with
  | zero => omega
  | succ fuel ih =>
    obtain ⟨fuel', rfl⟩ : ∃ n, fuel' = n + 1 := ⟨fuel' - 1, by omega⟩
    unfold State.runLines
    rcases fetchLine_cases s.csIn with ⟨h1, -, -⟩ | ⟨h1, h2⟩
    · have hi : s.stepLine.decIdle = true := by rw [State.stepLine_decIdle]; simp [h1]
      rw [if_pos hi, if_pos hi]
    · have hi : s.stepLine.decIdle = false := by rw [State.stepLine_decIdle]; simp [h1]
      have hlen : s.stepLine.csIn.length < s.csIn.length := by rw [State.stepLine_csIn]; exact h2
      rw [if_neg (by simp [hi]), if_neg (by simp [hi])]
      cases stop with
      | none => exact ih _ _ _ (by omega) (by omega)
      | some n =>
        simp only
        split
        · rfl
        · exact ih _ _ _ (by omega) (by omega)

/-- A run changes what a step changes, nothing else. -/
theorem State.runLines_frame (fuel : Nat) (stop : Option Nat) (s : State) :
    s.runLines fuel stop =
      { s with csIn := (s.runLines fuel stop).csIn, lineNo := (s.runLines fuel stop).lineNo,
               diag := (s.runLines fuel stop).diag, fb := (s.runLines fuel stop).fb, ps := (s.runLines fuel stop).ps,
               decIdle := (s.runLines fuel stop).decIdle } := by
  refine State.runLines_keeps
    (fun t => t = { s with csIn := t.csIn, lineNo := t.lineNo, diag := t.diag, fb := t.fb, ps := t.ps, decIdle := t.decIdle })
    ?_ fuel stop s rfl
  intro t ht
  rw [State.stepLine_frame t]
  generalize t.stepLine = u
  rw [ht]

/-! ## The operations past their check -/

theorem exec_decStep {s : State} (h : s.DimsOk) : exec .decStep s = .next s.clearConfig.stepLine :=
  congrArg Host.Outcome.next (State.guarded_pass (s.checkConfig_dims_none.2 h) _)

theorem exec_decRun {s : State} (h : s.DimsOk) : exec .decRun s = .next s.clearConfig.runStream :=
  congrArg Host.Outcome.next (State.guarded_pass (s.checkConfig_dims_none.2 h) _)

theorem exec_decReset {s : State} (h : s.DimsOk) : exec .decReset s = .next s.clearConfig.resetDecoder :=
  congrArg Host.Outcome.next (State.guarded_pass (s.checkConfig_dims_none.2 h) _)

theorem exec_quantize {s : State} (h : s.ConfigOk) : exec .quantize s = .next s.clearConfig.quantizeImg :=
  congrArg Host.Outcome.next (State.guarded_pass (s.checkConfig_full_none.2 h) _)

theorem exec_encode {s : State} (h : s.ConfigOk) : exec .encode s = .next s.clearConfig.encodeImg :=
  congrArg Host.Outcome.next (State.guarded_pass (s.checkConfig_full_none.2 h) _)

/-! ## Saturating counters -/

theorem satAdd_toNat (w : Word) (n : Nat) : (satAdd w n).toNat = min (w.toNat + n) maxWord := by
  unfold satAdd maxWord
  rw [BitVec.toNat_ofNat]
  exact Nat.mod_eq_of_lt (by omega)

theorem satAdd_add (w : Word) (m n : Nat) : satAdd (satAdd w m) n = satAdd w (m + n) := by
  apply BitVec.eq_of_toNat_eq
  simp only [satAdd_toNat]
  omega

theorem satAdd_le (w : Word) (n : Nat) : w.toNat ≤ (satAdd w n).toNat := by
  have := w.isLt
  rw [satAdd_toNat]
  unfold maxWord
  omega

end Sys2Proof.Machine
end

