-- ==== Sys2Proof/Laws/Quantizer.lean ====
section
/-! SUPPORT. The quantizer: the nearest level, one pass over all pixels, one pixel of error diffusion. -/

namespace Sys2Proof.Machine

/-! ## The nearest level -/

/-- The scan keeps its start where no level is strictly nearer, else it ends at a level that beats every earlier one strictly and
every later one at least weakly. -/
theorem nearest_fold (v : Int) (ls : List Nat) (best : Nat) :
    (ls.foldl (nearer v) best = best ∧ ∀ l : Nat, l ∈ ls → (v - (best : Int)).natAbs ≤ (v - (l : Int)).natAbs) ∨
      ∃ (pre : List Nat) (l : Nat) (post : List Nat), ls = pre ++ l :: post ∧ ls.foldl (nearer v) best = l ∧
        (v - (l : Int)).natAbs < (v - (best : Int)).natAbs ∧
        (∀ m : Nat, m ∈ pre → (v - (l : Int)).natAbs < (v - (m : Int)).natAbs) ∧
        ∀ m : Nat, m ∈ post → (v - (l : Int)).natAbs ≤ (v - (m : Int)).natAbs := by
  induction ls generalizing best with
  | nil => exact .inl ⟨rfl, by simp⟩
  | cons l ls ih =>
    rw [List.foldl_cons, nearer]
    by_cases h : (v - (l : Int)).natAbs < (v - (best : Int)).natAbs
    · rw [if_pos h]
      rcases ih l with ⟨h1, h2⟩ | ⟨pre, m, post, h1, h2, h3, h4, h5⟩
      · exact .inr ⟨[], l, ls, rfl, h1, h, by simp, h2⟩
      · refine .inr ⟨l :: pre, m, post, by rw [h1]; rfl, h2, by omega, ?_, h5⟩
        intro x hx
        rcases List.mem_cons.1 hx with rfl | hx
        · exact h3
        · exact h4 x hx
    · rw [if_neg h]
      rcases ih best with ⟨h1, h2⟩ | ⟨pre, m, post, h1, h2, h3, h4, h5⟩
      · refine .inl ⟨h1, fun x hx => ?_⟩
        rcases List.mem_cons.1 hx with rfl | hx
        · omega
        · exact h2 x hx
      · refine .inr ⟨l :: pre, m, post, by rw [h1]; rfl, h2, h3, ?_, h5⟩
        intro x hx
        rcases List.mem_cons.1 hx with rfl | hx
        · omega
        · exact h4 x hx

/-- The nearest level is one of the levels. -/
theorem nearestOf_mem (v : Int) {ls : List Nat} (h : ls ≠ []) : nearestOf v ls ∈ ls := by
  cases ls with
  | nil => exact absurd rfl h
  | cons l0 ls =>
    rcases nearest_fold v ls l0 with ⟨h1, -⟩ | ⟨pre, l, post, h1, h2, -⟩
    · show ls.foldl (nearer v) l0 ∈ l0 :: ls
      rw [h1]; simp
    · show ls.foldl (nearer v) l0 ∈ l0 :: ls
      rw [h2, h1]; simp

theorem State.level_lt (s : State) (i : Nat) : s.level i < 256 := by
  unfold State.level
  split
  · exact (s.levels[i]).isLt
  · omega

theorem State.usedLevels_ne_nil {s : State} (h : s.levelsUsed ≠ 0) : s.usedLevels ≠ [] := by
  unfold State.usedLevels
  simp [h]

theorem State.mem_usedLevels {s : State} {n : Nat} : n ∈ s.usedLevels ↔ ∃ k, k < s.levelsUsed ∧ s.level k = n := by
  unfold State.usedLevels
  simp [List.mem_map]

/-- The result of `nearest` is a level in use (40_quantizer.md R91). -/
theorem State.nearest_is_level {s : State} (h : s.levelsUsed ≠ 0) (v : Int) :
    ∃ k, k < s.levelsUsed ∧ (s.nearest v).toNat = s.level k := by
  obtain ⟨k, hk, he⟩ := State.mem_usedLevels.1 (nearestOf_mem v (State.usedLevels_ne_nil h))
  refine ⟨k, hk, ?_⟩
  unfold State.nearest
  rw [BitVec.toNat_ofNat, ← he]
  exact Nat.mod_eq_of_lt (s.level_lt k)

/-! ## Passes -/

theorem State.read_mapImg (s : State) (g : Nat → Byte → Byte) (img : Memory) (a : Nat) :
    (s.mapImg g img).read s.powerOns .img a =
      if a < s.width * s.height then g a (img.read s.powerOns .img a) else img.read s.powerOns .img a := by
  unfold State.mapImg
  rw [read_update]
  rfl

theorem State.mapImg_within (s : State) (g : Nat → Byte → Byte) {img : Memory} (h : img.Within (MemId.capacity .img)) :
    (s.mapImg g img).Within (MemId.capacity .img) := update_within h s.pixelsUsed_le _

/-! ## Error diffusion -/

theorem State.pixelOffset_lt {s : State} {x y : Nat} (h : s.OnPanel x y) : s.pixelOffset x y < s.width * s.height := by
  have hx := h.1
  have hy : (y + 1) * s.width ≤ s.height * s.width := Nat.mul_le_mul_right _ h.2
  rw [Nat.succ_mul] at hy
  unfold State.pixelOffset
  rw [Nat.mul_comm s.width]
  omega

theorem State.pixelOffset_inj {s : State} {x y x' y' : Nat} (hx : x < s.width) (hx' : x' < s.width)
    (h : s.pixelOffset x y = s.pixelOffset x' y') : x = x' ∧ y = y' := by
  unfold State.pixelOffset at h
  have hpos : 0 < s.width := by omega
  have hm := congrArg (· % s.width) h
  have hd := congrArg (· / s.width) h
  simp only [Nat.mul_comm _ s.width, Nat.mul_add_mod, Nat.mod_eq_of_lt hx, Nat.mod_eq_of_lt hx', Nat.mul_add_div hpos,
    Nat.div_eq_of_lt hx, Nat.div_eq_of_lt hx', Nat.add_zero] at hm hd
  exact ⟨hm, hd⟩

/-- A neighbour outside the image gets nothing (40_quantizer.md R98). -/
theorem State.spread_outside (s : State) (nx ny : Int) (k : Nat) (err : Int) (img : Memory)
    (h : nx < 0 ∨ (s.width : Int) ≤ nx ∨ (s.height : Int) ≤ ny) : s.spread nx ny k err img = img := by
  unfold State.spread
  rw [if_pos h]

/-- A neighbour inside the image gets its share, and no other byte changes (40_quantizer.md R98). -/
theorem State.read_spread (s : State) (x y k : Nat) (err : Int) (img : Memory) (h : s.OnPanel x y) (a : Nat) :
    (s.spread x y k err img).read s.powerOns .img a =
      if a = s.pixelOffset x y then
        toByte (clamp255 (((img.read s.powerOns .img a).toNat : Int) + s.share k err))
      else img.read s.powerOns .img a := by
  have := h.1
  have := h.2
  unfold State.spread
  rw [if_neg (by omega)]
  simp only [Int.toNat_natCast, read_store]
  split
  · rename_i he; rw [he]
  · rfl

/-- The same for any neighbour, inside the image or outside. -/
theorem State.read_spread_any (s : State) (nx ny : Int) (k : Nat) (err : Int) (img : Memory) (hy : 0 ≤ ny) (a : Nat) :
    (s.spread nx ny k err img).read s.powerOns .img a =
      if 0 ≤ nx ∧ nx.toNat < s.width ∧ ny.toNat < s.height ∧ a = ny.toNat * s.width + nx.toNat then
        toByte (clamp255 (((img.read s.powerOns .img a).toNat : Int) + s.share k err))
      else img.read s.powerOns .img a := by
  by_cases h : 0 ≤ nx ∧ nx.toNat < s.width ∧ ny.toNat < s.height
  · have := s.read_spread nx.toNat ny.toNat k err img ⟨h.2.1, h.2.2⟩ a
    rw [Int.toNat_of_nonneg h.1, Int.toNat_of_nonneg hy] at this
    rw [this]
    exact if_congr ⟨fun e => ⟨h.1, h.2.1, h.2.2, e⟩, fun e => e.2.2.2⟩ rfl rfl
  · rw [State.spread_outside _ _ _ _ _ _ (by omega), if_neg (fun e => h ⟨e.1, e.2.1, e.2.2.1⟩)]

/-- What one pixel of error diffusion leaves at every offset (40_quantizer.md R97, R98, R99): the pixel holds its level, each of
the four neighbours inside the image its old value with its share added and clamped, every other byte is as before. -/
theorem State.read_fsPixel (s : State) (x y : Nat) (img : Memory) (hp : s.OnPanel x y) (a : Nat) :
    (s.fsPixel x y img).read s.powerOns .img a =
      (let r := fun b => img.read s.powerOns .img b
       let old : Int := (r (y * s.width + x)).toNat
       let moved := fun (k : Nat) => toByte (clamp255 (((r a).toNat : Int) + s.share k (old - (s.nearest old).toNat)))
       if a = y * s.width + x then s.nearest old
       else if x + 1 < s.width ∧ a = y * s.width + (x + 1) then moved 7
       else if 0 < x ∧ y + 1 < s.height ∧ a = (y + 1) * s.width + (x - 1) then moved 3
       else if y + 1 < s.height ∧ a = (y + 1) * s.width + x then moved 5
       else if x + 1 < s.width ∧ y + 1 < s.height ∧ a = (y + 1) * s.width + (x + 1) then moved 1
       else r a) := by
  have hx := hp.1
  have hy := hp.2
  have e1 : ((x : Int) + 1).toNat = x + 1 := by omega
  have e2 : ((x : Int) - 1).toNat = x - 1 := by omega
  have e3 : ((y : Int) + 1).toNat = y + 1 := by omega
  have ey : ((y : Int)).toNat = y := by omega
  have ex : ((x : Int)).toNat = x := by omega
  have hw : (y + 1) * s.width = y * s.width + s.width := Nat.succ_mul _ _
  unfold State.fsPixel
  simp only [State.pixelOffset]
  rw [State.read_spread_any _ _ _ _ _ _ (by omega), State.read_spread_any _ _ _ _ _ _ (by omega),
    State.read_spread_any _ _ _ _ _ _ (by omega), State.read_spread_any _ _ _ _ _ _ (by omega), read_store]
  simp only [e1, e2, e3, ex, ey, hw]
  by_cases h0 : a = y * s.width + x
  · repeat rw [if_neg (by omega)]
    rw [if_pos h0, if_pos h0]
  · rw [if_neg h0, if_neg h0]
    by_cases h1 : x + 1 < s.width ∧ a = y * s.width + (x + 1)
    · rw [if_pos h1, if_neg (by omega), if_neg (by omega), if_neg (by omega), if_pos (by omega)]
    · rw [if_neg h1, if_neg (c := 0 ≤ (x : Int) + 1 ∧ x + 1 < s.width ∧ y < s.height ∧ a = y * s.width + (x + 1)) (by omega)]
      by_cases h3 : 0 < x ∧ y + 1 < s.height ∧ a = y * s.width + s.width + (x - 1)
      · rw [if_pos h3, if_neg (by omega), if_neg (by omega), if_pos (by omega)]
      · rw [if_neg h3,
          if_neg (c := 0 ≤ (x : Int) - 1 ∧ x - 1 < s.width ∧ y + 1 < s.height ∧ a = y * s.width + s.width + (x - 1)) (by omega)]
        by_cases h5 : y + 1 < s.height ∧ a = y * s.width + s.width + x
        · rw [if_pos h5, if_neg (by omega), if_pos (by omega)]
        · rw [if_neg h5,
            if_neg (c := 0 ≤ (x : Int) ∧ x < s.width ∧ y + 1 < s.height ∧ a = y * s.width + s.width + x) (by omega)]
          exact if_congr (by omega) rfl rfl

theorem State.spread_within (s : State) (nx ny : Int) (k : Nat) (err : Int) {img : Memory} (hy : 0 ≤ ny)
    (h : img.Within (MemId.capacity .img)) : (s.spread nx ny k err img).Within (MemId.capacity .img) := by
  unfold State.spread
  split
  · exact h
  · have hp : s.OnPanel nx.toNat ny.toNat := ⟨by omega, by omega⟩
    exact store_within h (Nat.lt_of_lt_of_le (State.pixelOffset_lt hp) s.pixelsUsed_le) _

theorem State.fsPixel_within (s : State) (x y : Nat) {img : Memory} (hp : s.OnPanel x y)
    (h : img.Within (MemId.capacity .img)) : (s.fsPixel x y img).Within (MemId.capacity .img) := by
  unfold State.fsPixel
  refine s.spread_within _ _ _ _ (by omega) (s.spread_within _ _ _ _ (by omega) (s.spread_within _ _ _ _ (by omega)
    (s.spread_within _ _ _ _ (by omega) ?_)))
  exact store_within h (Nat.lt_of_lt_of_le (State.pixelOffset_lt hp) s.pixelsUsed_le) _

/-- A pixel of error diffusion leaves every earlier byte in raster order alone (40_quantizer.md R97, R100). -/
theorem State.fsPixel_earlier (s : State) (x y : Nat) (img : Memory) (hp : s.OnPanel x y) (a : Nat) (h : a < y * s.width + x) :
    (s.fsPixel x y img).read s.powerOns .img a = img.read s.powerOns .img a := by
  have hx := hp.1
  have hw : (y + 1) * s.width = y * s.width + s.width := Nat.succ_mul _ _
  rw [State.read_fsPixel _ _ _ _ hp]
  simp only
  rw [if_neg (by omega), if_neg (by omega), if_neg (by omega), if_neg (by omega), if_neg (by omega)]

/-- Induction over the pass in raster order: what holds after `n` pixels. -/
theorem State.fsPass_induct (s : State) (P : Nat → Memory → Prop) (img : Memory) (h0 : P 0 img)
    (hs : ∀ x y m, s.OnPanel x y → P (y * s.width + x) m → P (y * s.width + x + 1) (s.fsPixel x y m)) :
    P (s.width * s.height) (s.fsPass img) := by
  have row : ∀ y, y < s.height → ∀ n, n ≤ s.width → ∀ m, P (y * s.width) m →
      P (y * s.width + n) ((List.range n).foldl (fun img x => s.fsPixel x y img) m) := by
    intro y hy n
    induction n with
    | zero => intro _ m hm; exact hm
    | succ n ih =>
      intro hn m hm
      rw [List.range_succ, List.foldl_append]
      exact hs n y _ ⟨by omega, hy⟩ (ih (by omega) m hm)
  have rows : ∀ k, k ≤ s.height → P (k * s.width)
      ((List.range k).foldl (fun img y => (List.range s.width).foldl (fun img x => s.fsPixel x y img) img) img) := by
    intro k
    induction k with
    | zero => intro _; simpa using h0
    | succ k ih =>
      intro hk
      rw [List.range_succ, List.foldl_append, Nat.succ_mul]
      exact row k (by omega) s.width (Nat.le_refl _) _ (ih (by omega))
  rw [Nat.mul_comm]
  exact rows s.height (Nat.le_refl _)

/-- The image after `n` pixels of the pass in raster order (40_quantizer.md R97). -/
def State.fsStage (s : State) (img : Memory) : Nat → Memory
  | 0 => img
  | n + 1 => s.fsPixel (n % s.width) (n / s.width) (s.fsStage img n)

theorem State.fsStage_succ (s : State) (img : Memory) {x y : Nat} (hp : s.OnPanel x y) :
    s.fsStage img (y * s.width + x + 1) = s.fsPixel x y (s.fsStage img (y * s.width + x)) := by
  have hx := hp.1
  show s.fsPixel ((y * s.width + x) % s.width) ((y * s.width + x) / s.width) _ = _
  rw [Nat.mul_comm y, Nat.mul_add_mod, Nat.mod_eq_of_lt hx, Nat.mul_add_div (by omega), Nat.div_eq_of_lt hx, Nat.add_zero]

/-- The pass is its pixels' steps, one after another in raster order (40_quantizer.md R97). -/
theorem State.fsPass_eq_fsStage (s : State) (img : Memory) : s.fsPass img = s.fsStage img (s.width * s.height) := by
  refine s.fsPass_induct (fun n m => m = s.fsStage img n) img rfl ?_
  rintro x y m hp rfl
  exact (s.fsStage_succ img hp).symm

theorem State.fsPass_within (s : State) {img : Memory} (h : img.Within (MemId.capacity .img)) :
    (s.fsPass img).Within (MemId.capacity .img) := by
  unfold State.fsPass
  refine foldl_keeps (fun m : Memory => m.Within (MemId.capacity .img)) _ _ _ h fun m y hy hm => ?_
  exact foldl_keeps (fun m : Memory => m.Within (MemId.capacity .img)) _ _ _ hm fun m x hx hm =>
    s.fsPixel_within _ _ ⟨List.mem_range.1 hx, List.mem_range.1 hy⟩ hm

theorem State.quantized_within (s : State) (h : s.img.Within (MemId.capacity .img)) :
    s.quantized.Within (MemId.capacity .img) := by
  have hc : (s.contrastPass s.img).Within (MemId.capacity .img) := s.mapImg_within _ h
  unfold State.quantized
  split
  · exact s.mapImg_within _ hc
  · split
    · exact s.mapImg_within _ hc
    · exact s.fsPass_within hc

/-! ## Arithmetic -/

theorem clamp255_range (v : Int) : 0 ≤ clamp255 v ∧ clamp255 v ≤ 255 := by
  unfold clamp255
  split
  · omega
  · split <;> omega

theorem toByte_toNat {v : Int} (h0 : 0 ≤ v) (h1 : v ≤ 255) : ((toByte v).toNat : Int) = v := by
  unfold toByte
  rw [BitVec.toNat_ofNat]
  omega

end Sys2Proof.Machine
end

