-- ==== Sys2Proof/Laws/Encoder.lean ====
section
/-! SUPPORT. The tile encoder: payload packing is undone by the payload bit of the decoder, tile origins cover a side. -/

namespace Sys2Proof.Machine

/-! ## Packing -/

/-- Bit `k` of a packed group, MSB-first (20_memory.md R43). -/
theorem packByte_bit (bit : Nat → Bool) (k : Nat) (hk : k < 8) : (packByte bit).getLsbD (7 - k) = bit k := by
  have key : ∀ b : Fin 8 → Bool, ∀ j : Fin 8,
      (packByte (fun n => if h : n < 8 then b ⟨n, h⟩ else false)).getLsbD (7 - j.val) = b j := by
    decide +kernel
  have he : packByte bit = packByte (fun n => if h : n < 8 then bit n else false) := by
    unfold packByte
    refine List.foldl_ext _ _ _ fun acc n hn => ?_
    have : n < 8 := List.mem_range.1 hn
    simp [this]
  rw [he]
  simpa using key (fun n => bit n.val) ⟨k, hk⟩

theorem packTile_length (w h : Nat) (bit : Nat → Nat → Bool) : (packTile w h bit).length = h * ceil8 w := by
  unfold packTile
  induction h with
  | zero => simp
  | succ h ih =>
    rw [List.range_succ, List.flatMap_append, List.length_append, ih]
    simp [Nat.succ_mul]

theorem packTile_byte (w h : Nat) (bit : Nat → Nat → Bool) (r k : Nat) (hr : r < h) (hk : k < ceil8 w) :
    (packTile w h bit)[r * ceil8 w + k]? =
      some (packByte (fun j => decide (8 * k + j < w) && bit (8 * k + j) r)) := by
  induction h with
  | zero => omega
  | succ h ih =>
    have hsplit : packTile w (h + 1) bit =
        packTile w h bit ++ (List.range (ceil8 w)).map (fun k => packByte (fun j => decide (8 * k + j < w) && bit (8 * k + j) h)) := by
      unfold packTile
      rw [List.range_succ, List.flatMap_append]
      simp
    rw [hsplit]
    by_cases hrh : r < h
    · have hlt : r * ceil8 w + k < h * ceil8 w := by
        have := Nat.mul_le_mul_right (ceil8 w) hrh
        rw [Nat.succ_mul] at this
        omega
      rw [List.getElem?_append_left (by rw [packTile_length]; exact hlt)]
      exact ih hrh
    · have : r = h := by omega
      subst this
      rw [List.getElem?_append_right (by rw [packTile_length]; omega), packTile_length]
      simp [hk]

/-- The decoder reads from a packed tile the bit the encoder put there (30_encoding.md R72). -/
theorem payloadBit_packTile (w h : Nat) (bit : Nat → Nat → Bool) (c r : Nat) (hc : c < w) (hr : r < h) :
    payloadBit w (packTile w h bit) c r = bit c r := by
  have hk : c / 8 < ceil8 w := by unfold ceil8; omega
  unfold payloadBit
  rw [List.getD_eq_getElem?_getD, packTile_byte w h bit r (c / 8) hr hk, Option.getD_some,
    packByte_bit _ _ (Nat.mod_lt c (by decide))]
  have : 8 * (c / 8) + c % 8 = c := by omega
  rw [this]
  simp [hc]

/-- The pad bits of a packed tile are 0 (30_encoding.md R72). -/
theorem payloadBit_packTile_pad (w h : Nat) (bit : Nat → Nat → Bool) (c r : Nat) (hc : w ≤ c) (hp : c < 8 * ceil8 w)
    (hr : r < h) : payloadBit w (packTile w h bit) c r = false := by
  have hk : c / 8 < ceil8 w := by omega
  unfold payloadBit
  rw [List.getD_eq_getElem?_getD, packTile_byte w h bit r (c / 8) hr hk, Option.getD_some,
    packByte_bit _ _ (Nat.mod_lt c (by decide))]
  have h : ¬ 8 * (c / 8) + c % 8 < w := by omega
  simp [h]

/-! ## Tile origins -/

/-- The origins are the multiples of the tile size below the side (41_encoder.md R114). -/
theorem mem_tileOrigins {ts n o : Nat} (ht : 0 < ts) : o ∈ tileOrigins ts n ↔ ts ∣ o ∧ o < n := by
  unfold tileOrigins
  simp only [List.mem_map, List.mem_range]
  constructor
  · rintro ⟨k, hk, rfl⟩
    refine ⟨Nat.dvd_mul_left _ _, ?_⟩
    have h1 : (k + 1) * ts ≤ n + ts - 1 :=
      Nat.le_trans (Nat.mul_le_mul_right _ hk) (Nat.div_mul_le_self _ _)
    rw [Nat.succ_mul] at h1
    omega
  · rintro ⟨⟨k, rfl⟩, hlt⟩
    refine ⟨k, ?_, Nat.mul_comm _ _⟩
    rw [Nat.lt_iff_add_one_le, Nat.le_div_iff_mul_le ht, Nat.succ_mul, Nat.mul_comm k]
    omega

/-- The origins along one side ascend (41_encoder.md R114). -/
theorem tileOrigins_ascend {ts : Nat} (h : 0 < ts) (n : Nat) : (tileOrigins ts n).Pairwise (fun a b => a < b) := by
  unfold tileOrigins
  rw [List.pairwise_map]
  exact List.pairwise_lt_range.imp fun hab => Nat.mul_lt_mul_of_pos_right hab h

/-- What `encode_tile` emits is a tile at its origin (41_encoder.md R116). -/
theorem State.mem_encodeTile {s : State} {t tx ty w h : Nat} {i : Instr} (hi : i ∈ s.encodeTile t tx ty w h) :
    i = .tile (BitVec.ofNat 8 tx) (BitVec.ofNat 8 ty) 0 0 (BitVec.ofNat 8 w) (BitVec.ofNat 8 h)
      (packTile w h (fun c r => s.maskBit t (tx + c) (ty + r))) := by
  unfold State.encodeTile at hi
  simp only at hi
  split at hi
  · exact List.mem_singleton.1 hi
  · cases hi

end Sys2Proof.Machine
end

