-- ==== Sys2Proof/Laws/PerInstr.lean ====
section
/-! SUPPORT. Per instruction: the form its encoding takes (30_encoding.md R60, R66, R76, R79). -/

namespace Sys2Proof.Laws.EncodedForm

/-- A well-formed command is encoded as a line that holds no LF and is never over-long; a host operation as a `CTRL` word that
names it. -/
def Statement (i : Instr) : Prop :=
  i.wellFormed = true →
    match encode i with
    | .line raw => i.isCommand = true ∧ lf ∉ raw ∧ raw.length ≤ 24500
    | .ctrl word => i.isCommand = false ∧ decodeCtrl word = some i

theorem hexLine_form (b : Byte) (bs : List Byte) (h : bs.length ≤ 8166) :
    lf ∉ hexLine (b :: bs) ∧ (hexLine (b :: bs)).length ≤ 24500 :=
  ⟨fun hm => (hexLine_chars _ _ hm).2.1 rfl, by rw [hexLine_length]; omega⟩

theorem clear : Statement .clear := fun _ => ⟨rfl, by decide, by decide⟩

theorem whiteout : Statement .whiteout := fun _ => ⟨rfl, by decide, by decide⟩

theorem tile (x y res0 res1 w h : Byte) (payload : List Byte) : Statement (.tile x y res0 res1 w h payload) := by
  intro hw
  have hlen : payload.length = h.toNat * ceil8 w.toNat := by
    simpa [Instr.wellFormed, tilePayloadFits] using hw
  have hh := h.isLt
  have hc : ceil8 w.toNat ≤ 32 := by have := w.isLt; unfold ceil8; omega
  have hb : h.toNat * ceil8 w.toNat ≤ 255 * 32 := Nat.mul_le_mul (by omega) hc
  exact ⟨rfl, hexLine_form _ _ (by simp only [List.length_cons]; omega)⟩

theorem rect (x1 y1 x2 y2 color : Byte) : Statement (.rect x1 y1 x2 y2 color) :=
  fun _ => ⟨rfl, hexLine_form _ _ (by simp)⟩

theorem endLayer : Statement .endLayer := fun _ => ⟨rfl, by decide, by decide⟩

theorem delay (ms : Word) : Statement (.delay ms) := by
  intro _
  refine ⟨rfl, fun hm => ?_, ?_⟩
  · have hm : lf ∈ delayKeyword ++ space :: decimal ms := hm
    rcases List.mem_append.1 hm with h | h
    · revert h; decide
    · rcases List.mem_cons.1 h with h | h
      · revert h; decide
      · exact (decimalDigits_plain _ _ _ h).2.2 rfl
  · have := (decimalDigits_length 10 ms.toNat (by decide)).2
    show (delayKeyword ++ space :: decimal ms).length ≤ 24500
    simp only [List.length_append, List.length_cons, delayKeyword, decimal, List.length_nil]
    omega

theorem quantize : Statement .quantize := fun _ => ⟨rfl, rfl⟩

theorem encode : Statement .encode := fun _ => ⟨rfl, rfl⟩

theorem decStep : Statement .decStep := fun _ => ⟨rfl, rfl⟩

theorem decRun : Statement .decRun := fun _ => ⟨rfl, rfl⟩

theorem decReset : Statement .decReset := fun _ => ⟨rfl, rfl⟩

end Sys2Proof.Laws.EncodedForm
end

