-- ==== Sys2Proof/Laws/Step.lean ====
section
/-! SUPPORT. What one step does, by the host's next action; where a host address leads. -/

namespace Sys2Proof.Machine

/-! ## Addresses -/

theorem noRegister_iff (addr : Nat) : noRegister addr = true ↔ addr < 0x100 ∧ addr % 4 ≠ 0 := by
  unfold noRegister regSpace; simp

theorem noRegister_above {addr : Nat} (h : 0x100 ≤ addr) : noRegister addr = false := by
  unfold noRegister regSpace; simp; omega

theorem noRegister_aligned {addr : Nat} (h : addr % 4 = 0) : noRegister addr = false := by
  unfold noRegister; simp [h]

/-- The six constants of the memory windows (20_memory.md R40), in a form `omega` reads. -/
theorem window_consts :
    MemId.base .img = 65536 ∧ MemId.base .fb = 131072 ∧ MemId.base .ps = 196608 ∧ MemId.capacity .img = 65025 ∧
      MemId.capacity .fb = 8160 ∧ MemId.capacity .ps = 65025 := ⟨rfl, rfl, rfl, rfl, rfl, rfl⟩

/-- Every offset of a memory is reached through its window (20_memory.md R40). -/
theorem windowAt_mem (k : MemId) (a : Nat) (h : a < k.capacity) : windowAt (k.base + a) = .mem k a := by
  obtain ⟨b1, b2, b3, c1, c2, c3⟩ := window_consts
  unfold windowAt MemId.holds
  simp only [Bool.and_eq_true, decide_eq_true_eq]
  cases k with
  | img => rw [if_pos (by omega), Nat.add_sub_cancel_left]
  | fb => rw [if_neg (by omega), if_pos (by omega), Nat.add_sub_cancel_left]
  | ps => rw [if_neg (by omega), if_neg (by omega), if_pos (by omega), Nat.add_sub_cancel_left]

theorem windowAt_bayer (addr : Nat) (h0 : 0x40000 ≤ addr) (h1 : addr < 0x40040) : windowAt addr = .bayer (addr - 0x40000) := by
  obtain ⟨b1, b2, b3, c1, c2, c3⟩ := window_consts
  unfold windowAt MemId.holds
  simp only [Bool.and_eq_true, decide_eq_true_eq]
  rw [if_neg (by omega), if_neg (by omega), if_neg (by omega), if_pos ⟨h0, h1⟩]; rfl

theorem windowAt_hole (addr : Nat) (h : ∀ k : MemId, ¬ (k.base ≤ addr ∧ addr < k.base + k.capacity))
    (hb : ¬ (0x40000 ≤ addr ∧ addr < 0x40040)) : windowAt addr = .hole := by
  unfold windowAt MemId.holds
  simp only [Bool.and_eq_true, decide_eq_true_eq]
  rw [if_neg (h .img), if_neg (h .fb), if_neg (h .ps)]
  exact if_neg hb

/-! ## Registers -/

/-- The read-write registers (10_state.md R14). -/
def Reg.isReadWrite : Reg → Bool
  | .panelW | .panelH | .tileSize | .levelCount | .mode | .contrast | .strength | .grayStep | .delayMs | .diagIndex => true
  | .level i => decide (i < 16)
  | .id | .ctrl | .status | .errCode | .diagCount | .lineNo | .diagLast | .thresh _ | .csOutData | .csOutLevel | .csInData
  | .csInLevel | .diagEntry | .unlisted => false

theorem regAt_level {i : Nat} (h : i < 16) : regAt (0x40 + 4 * i) = .level i := by
  unfold regAt
  rw [if_neg (by omega), if_pos (by omega), Nat.add_sub_cancel_left, Nat.mul_div_cancel_left _ (by decide)]

theorem regAt_thresh {i : Nat} (h : i < 15) : regAt (0x80 + 4 * i) = .thresh i := by
  unfold regAt
  rw [if_neg (by omega), if_neg (by omega), if_pos (by omega), Nat.add_sub_cancel_left, Nat.mul_div_cancel_left _ (by decide)]

/-- One entry of the level table after a write of one (10_state.md R24). -/
theorem State.level_set (s : State) {i : Nat} (hi : i < 16) (v : Byte) (j : Nat) :
    State.level { s with levels := s.levels.setIfInBounds i v } j = if j = i then v.toNat else s.level j := by
  unfold State.level
  by_cases hj : j < 16
  · rw [dif_pos hj, dif_pos hj]
    by_cases h : j = i
    · subst h; simp
    · rw [if_neg h, Vector.getElem_setIfInBounds_ne]
      omega
  · rw [dif_neg hj, dif_neg hj, if_neg (by omega)]

/-- A write of a read-write register writes configuration registers, the table or the index, and nothing else (10_state.md R14). -/
theorem State.writeReg_frame (s : State) (v : Word) {r : Reg} (hr : r.isReadWrite = true) :
    s.writeReg v r =
      let t := s.writeReg v r
      { s with
        panelW := t.panelW, panelH := t.panelH, tileSize := t.tileSize, levelCount := t.levelCount, mode := t.mode,
        contrast := t.contrast, strength := t.strength, grayStep := t.grayStep, delayMs := t.delayMs, levels := t.levels,
        diagIndex := t.diagIndex } := by
  cases r <;> first | rfl | exact Bool.noConfusion hr

/-- A write of one read-write register leaves what every other one reads (10_state.md R14). -/
theorem State.regValue_writeReg_ne (s : State) (v : Word) {r r' : Reg} (h : r' ≠ r) (hr : r.isReadWrite = true)
    (hr' : r'.isReadWrite = true) : (s.writeReg v r).regValue r' = s.regValue r' := by
  cases r <;> first
    | exact Bool.noConfusion hr
    | (cases r' <;> first | rfl | exact Bool.noConfusion hr' | exact absurd rfl h | skip)
  rename_i i j
  show BitVec.ofNat 32 (State.level { s with levels := s.levels.setIfInBounds i (v.setWidth 8) } j) = BitVec.ofNat 32 (s.level j)
  rw [s.level_set (of_decide_eq_true hr), if_neg fun e => h (by rw [e])]

/-! ## Steps -/

@[simp] theorem starts_write (addr : Nat) (v : Word) :
    (HostAction.write addr v).starts = if addr = 4 then decodeCtrl v else none := rfl
@[simp] theorem starts_read (addr : Nat) : (HostAction.read addr).starts = none := rfl
@[simp] theorem starts_reset : HostAction.reset.starts = none := rfl
@[simp] theorem starts_askStop (n : Nat) : (HostAction.askStop n).starts = none := rfl

theorem step_wait {s : State} (h : s.hostQ = []) : step s = .next s := by unfold step; rw [h]

/-- A host action that starts an operation. -/
theorem step_starts {s : State} {a : HostAction} {rest : List HostAction} {i : Instr} (h : s.hostQ = a :: rest)
    (hi : a.starts = some i) : step s = exec i (s.setHostQ rest) := by
  unfold step; rw [h]; simp only [hi]

/-- A host action that starts none. -/
theorem step_acts {s : State} {a : HostAction} {rest : List HostAction} (h : s.hostQ = a :: rest) (hi : a.starts = none) :
    step s = (s.setHostQ rest).hostAct a := by
  unfold step; rw [h]; simp only [hi]

theorem step_writeReg {s : State} {o : Nat} {v : Word} {q : List HostAction} (ho : o < 256) (h4 : o % 4 = 0) (hc : o ≠ 4)
    (h : s.hostQ = .write o v :: q) : step s = .next ((s.setHostQ q).writeReg v (regAt o)) := by
  rw [step_acts h (by simp [hc])]
  simp only [State.hostAct, State.hostWrite, noRegister_aligned h4, if_pos (show o < regSpace from ho), Bool.false_eq_true, if_false]

theorem step_readReg {s : State} {o : Nat} {q : List HostAction} (ho : o < 256) (h4 : o % 4 = 0)
    (h : s.hostQ = .read o :: q) :
    step s = .next (((s.setHostQ q).readEffect (regAt o)).setHostData ((s.setHostQ q).regValue (regAt o))) := by
  rw [step_acts h (by simp)]
  simp only [State.hostAct, State.hostRead, noRegister_aligned h4, if_pos (show o < regSpace from ho), Bool.false_eq_true, if_false]

theorem step_writeWindow {s : State} {a : Nat} {v : Word} {q : List HostAction} (ha : 0x100 ≤ a)
    (h : s.hostQ = .write a v :: q) : step s = .next ((s.setHostQ q).writeWindow (v.setWidth 8) (windowAt a)) := by
  rw [step_acts h (by simp; omega)]
  simp only [State.hostAct, State.hostWrite, noRegister_above ha, if_neg (show ¬ a < regSpace from Nat.not_lt.2 ha), Bool.false_eq_true, if_false]

theorem step_readWindow {s : State} {a : Nat} {q : List HostAction} (ha : 0x100 ≤ a) (h : s.hostQ = .read a :: q) :
    step s = .next ((s.setHostQ q).setHostData (((s.setHostQ q).windowByte (windowAt a)).setWidth 32)) := by
  rw [step_acts h (by simp)]
  simp only [State.hostAct, State.hostRead, noRegister_above ha, if_neg (show ¬ a < regSpace from Nat.not_lt.2 ha), Bool.false_eq_true, if_false]

/-- No instruction stops the machine. -/
theorem exec_next (i : Instr) (s : State) : ∃ t, exec i s = .next t := by
  cases i <;> exact ⟨_, rfl⟩

end Sys2Proof.Machine
end

