-- ==== Sys2Proof/Tests/Slice0.lean ====
section
/-! SUPPORT. Tests from the spec's own encodings and vectors, and for each statement with hypotheses a witness that meets them. -/

namespace Sys2Proof.Tests

open Sys2Proof Sys2Proof.Machine

/-! ## Helpers -/

/-- The reset state with a panel of the given size. -/
def panel (w h : BitVec 8) : State := { State.reset with panelW := w, panelH := h }

/-- A memory whose first bytes have been written with these values. -/
def written (l : List Nat) : Memory := (List.range l.length).zip (l.map (BitVec.ofNat 8))

/-- The bytes listed in a memory. -/
def bytesOf (m : Memory) : List Nat := m.map (fun c => c.2.toNat)

/-- The next state of an outcome. -/
def after : Host.Outcome State Fault Refusal → State
  | .next s => s
  | .fault _ => State.reset
  | .refused _ => State.reset

/-- The eight-level table of 10_state.md R24. -/
def eightLevels : Vector Byte 16 := #v[0, 36, 73, 109, 146, 182, 219, 255, 0, 0, 0, 0, 0, 0, 0, 0]

/-- An 8×8 panel whose framebuffer is all white. -/
def white8 : State := { panel 8 8 with fb := written (List.replicate 8 255) }

/-- A state whose next host action is the given one. -/
def asked (a : HostAction) : State := { State.reset with hostQ := [a] }

/-! ## Well-formedness refuses ill-formed terms -/

theorem test_tile_payload_too_short_refused : Instr.wellFormed (.tile 0 0 0 0 8 2 [0xFF]) = false := by decide
theorem test_tile_payload_too_long_refused : Instr.wellFormed (.tile 0 0 0 0 8 1 [0xFF, 0xFF]) = false := by decide
theorem test_rect_reserved_color_refused : Instr.wellFormed (.rect 0 0 1 1 2) = false := by decide
theorem test_empty_tile_accepted : Instr.wellFormed (.tile 0 0 0 0 0 5 []) = true := by decide

/-! ## Decoding: codes written out from 30_encoding.md R67 to R70, R79 -/

theorem test_decode_clear : decodeLine [0x30, 0x31] = .command .clear := by decide
theorem test_decode_whiteout : decodeLine [0x20, 0x30, 0x32, 0x0D] = .command .whiteout := by decide
theorem test_decode_tile :
    decodeLine [0x30, 0x33, 0x20, 0x30, 0x31, 0x20, 0x30, 0x32, 0x20, 0x61, 0x61, 0x20, 0x35, 0x35, 0x20, 0x30, 0x39, 0x20,
      0x30, 0x31, 0x20, 0x46, 0x30, 0x20, 0x38, 0x30] = .command (.tile 1 2 0xAA 0x55 9 1 [0xF0, 0x80]) := by decide
theorem test_decode_rect :
    decodeLine [0x30, 0x34, 0x20, 0x30, 0x32, 0x20, 0x30, 0x33, 0x20, 0x30, 0x39, 0x20, 0x46, 0x46, 0x20, 0x30, 0x30] =
      .command (.rect 2 3 9 255 0) := by decide
theorem test_decode_endLayer : decodeLine [0x09, 0x30, 0x35] = .command .endLayer := by decide
theorem test_decode_delay :
    decodeLine [0x44, 0x45, 0x4C, 0x41, 0x59, 0x20, 0x34, 0x32, 0x39, 0x34, 0x39, 0x36, 0x37, 0x32, 0x39, 0x35] =
      .command (.delay 4294967295) := by decide
theorem test_decode_quantize : decodeCtrl 0xFFFFFFF1 = some .quantize := by decide
theorem test_decode_encode : decodeCtrl 0x12 = some .encode := by decide
theorem test_decode_decStep : decodeCtrl 3 = some .decStep := by decide
theorem test_decode_decRun : decodeCtrl 4 = some .decRun := by decide
theorem test_decode_decReset : decodeCtrl 5 = some .decReset := by decide
theorem test_decode_reserved_operations : decodeCtrl 0 = none ∧ decodeCtrl 6 = none ∧ decodeCtrl 0xF = none := by decide

/-- Rows of 95_test_vectors.md section 2.7: two CRs, a comment after a command, `0x01`, one digit, ` 0a `, two bytes of CLEAR. -/
theorem test_decode_faulty_hex_lines :
    [[0x30, 0x35, 0x0D, 0x0D], [0x30, 0x31, 0x20, 0x23, 0x20, 0x63], [0x30, 0x78, 0x30, 0x31], [0x31], [0x20, 0x30, 0x61, 0x20],
      [0x30, 0x31, 0x09, 0x09, 0x30, 0x32]].map decodeLine =
    [.error .badToken, .error .badToken, .error .badToken, .error .badToken, .error .unknownOpcode, .error .badByteCount] := by
  decide

/-- Rows of 95_test_vectors.md section 2.7: 2^32, eleven digits, no count, no separator, a sign, lower case. -/
theorem test_decode_faulty_delays :
    [[0x44, 0x45, 0x4C, 0x41, 0x59, 0x20, 0x34, 0x32, 0x39, 0x34, 0x39, 0x36, 0x37, 0x32, 0x39, 0x36],
      [0x44, 0x45, 0x4C, 0x41, 0x59, 0x20, 0x30, 0x30, 0x30, 0x30, 0x30, 0x30, 0x30, 0x30, 0x30, 0x30, 0x31],
      [0x44, 0x45, 0x4C, 0x41, 0x59], [0x44, 0x45, 0x4C, 0x41, 0x59, 0x35], [0x44, 0x45, 0x4C, 0x41, 0x59, 0x20, 0x2D, 0x35],
      [0x64, 0x65, 0x6C, 0x61, 0x79, 0x20, 0x35]].map decodeLine =
    [.error .badDelay, .error .badDelay, .error .badDelay, .error .badDelay, .error .badDelay, .error .badToken] := by decide

/-- 95_test_vectors.md section 2.7: blank, comment, and the reserved colour of section 2.8 K5. -/
theorem test_decode_ignored_lines :
    [[], [0x09, 0x20, 0x20], [0x23, 0x20, 0x30, 0x31], [0x20, 0x20, 0x23, 0x78]].map decodeLine =
    [.ignored, .ignored, .ignored, .ignored] := by decide
theorem test_decode_reserved_color :
    decodeLine [0x30, 0x34, 0x20, 0x46, 0x46, 0x20, 0x46, 0x46, 0x20, 0x30, 0x30, 0x20, 0x30, 0x30, 0x20, 0x30, 0x37] =
      .error .badColor := by decide

/-- The words of the opcode table's rows (log 2). -/
theorem test_table_words :
    [(8, 1), (8, 2), (8, 3), (8, 4), (8, 5), (0, 0), (4, 1), (4, 2), (4, 3), (4, 4), (4, 5), (32, 5)].map
      (fun p => decodeTableWord p.1 p.2) =
    [some .clear, some .whiteout, some (.tile 0 0 0 0 0 0 []), some (.rect 0 0 0 0 0), some .endLayer, some (.delay 0),
      some .quantize, some .encode, some .decStep, some .decRun, some .decReset, some .decReset] := by decide

/-! ## Memories and addressing -/

/-- 95_test_vectors.md section 2.6, the reference panel. -/
theorem test_rotation_reference_panel :
    [(0, 0), (249, 0), (0, 121), (249, 121), (10, 20), (125, 61), (1, 8)].map
      (fun p => (State.reset.byteIndex p.1 p.2, bitMask p.2)) =
    [(3984, 0x80), (0, 0x80), (3999, 0x40), (15, 0x40), (3826, 0x08), (1991, 0x04), (3969, 0x80)] := by decide

/-- 20_memory.md R40: the last byte of the `FB` window, and the first hole after it. -/
theorem test_window_edges : windowAt (0x20000 + 8159) = .mem .fb 8159 ∧ windowAt (0x20000 + 8160) = .hole := by decide

/-! ## Commands: 95_test_vectors.md section 2.8 -/

theorem test_clear : (after (exec .clear (panel 3 10))).fb = written (List.replicate 6 255) := by decide
theorem test_whiteout : (after (exec .whiteout (panel 3 2))).ps = written (List.replicate 6 255) := by decide

/-- K1. -/
theorem test_tile :
    bytesOf (after (exec (.tile 0 0 0 0 8 2 [0xFF, 0x0F]) white8)).fb = [0x3F, 0x3F, 0x3F, 0x3F, 0x7F, 0x7F, 0x7F, 0x7F] := by
  decide +kernel

/-- K3: clipping, without wrap-around and without a record. -/
theorem test_tile_clips :
    bytesOf (after (exec (.tile 7 7 0xFF 0xFF 16 1 [0xFF, 0xFF])
      (after (exec (.tile 6 7 0 0 4 2 [0xF0, 0xF0]) white8)))).fb = [0xFE, 0xFE, 255, 255, 255, 255, 255, 255] := by
  decide +kernel

/-- K5. -/
theorem test_rect :
    bytesOf (after (exec (.rect 2 3 9 3 0) white8)).fb = [0xEF, 0xEF, 0xEF, 0xEF, 0xEF, 0xEF, 255, 255] := by decide +kernel

/-- K5: swapped corners draw nothing, a first corner off the panel adds a record. -/
theorem test_rect_corners :
    after (exec (.rect 5 5 4 4 0) white8) = white8 ∧
      (after (exec (.rect 8 0 8 0 0) white8)).diag = [{ line := 0, code := 0x41 }] := by decide +kernel

/-- K6: 1×1 panel, step 100: 255, 155, 55, 0. -/
theorem test_endLayer_floors_at_zero :
    let s := { panel 1 1 with grayStep := 100, fb := [(0, 0x7F)], ps := [(0, 255)] }
    let t := after (exec .endLayer s)
    let u := after (exec .endLayer t)
    [t, u, after (exec .endLayer u)].map (fun v => bytesOf v.ps) = [[155], [55], [0]] := by decide +kernel

/-- Section 2.6, small panel: `PS[22]` and `PS[25]` become 238. -/
theorem test_endLayer_reads_through_rotation :
    bytesOf (after (exec .endLayer
      { panel 3 10 with fb := written [255, 255, 0xFE, 0x7F, 255, 255], ps := written (List.replicate 30 255) })).ps =
    List.replicate 22 255 ++ [238, 255, 255, 238] ++ List.replicate 4 255 := by decide +kernel

theorem test_delay : after (exec (.delay 1000) white8) = white8 := by decide +kernel

/-! ## Quantizer: 95_test_vectors.md sections 2.1 to 2.4 -/

theorem test_nearest :
    ([-128, -1, 0, 8, 9, 17, 25, 26, 127, 128, 246, 247, 255, 300, 382] : List Int).map (fun v => (State.reset.nearest v).toNat) =
    [0, 0, 0, 0, 17, 17, 17, 34, 119, 136, 238, 255, 255, 255, 255] := by decide

/-- Ties of the eight-level table go to the darker level. -/
theorem test_nearest_ties :
    ([18, 19, 91, 164, 237, 238] : List Int).map
      (fun v => (({ State.reset with levelCount := 8, levels := eightLevels } : State).nearest v).toNat) =
    [0, 36, 73, 146, 219, 255] := by decide

theorem test_contrast :
    ([384, 128, 512, 65535] : List Nat).map (fun c => ([0, 1, 64, 127, 128, 129, 192, 254, 255] : List Nat).map
      (fun p => (({ State.reset with contrast := BitVec.ofNat 16 c } : State).contrastOf (BitVec.ofNat 8 p)).toNat)) =
    [[0, 0, 32, 127, 128, 130, 224, 255, 255], [64, 65, 96, 128, 128, 129, 160, 191, 192], [0, 0, 0, 126, 128, 130, 255, 255, 255],
      [0, 0, 0, 0, 128, 255, 255, 255, 255]] := by decide +kernel

/-- Strength 0.5: the half rounds up, for a negative value too. The entries are those of the default ROM. -/
theorem test_bias :
    ([(0, 0), (1, 0), (0, 7), (7, 7), (4, 3), (8, 8), (9, 0), (3, 4)] : List (Nat × Nat)).map
      (fun p => ({ State.reset with strength := 128 } : State).bias p.1 p.2) = [-64, 1, 64, -21, 62, -64, 1, 23] := by decide +kernel

/-- Section 2.4, the mixed image at both strengths. -/
theorem test_quantize_errorDiffusion :
    [256, 128].map (fun g => bytesOf (after (exec .quantize
      { panel 3 2 with mode := 2, strength := BitVec.ofNat 9 g, img := written [100, 50, 200, 10, 250, 128] })).img) =
    [[102, 51, 204, 17, 238, 136], [102, 51, 204, 17, 255, 119]] := by decide +kernel

/-- P4: the first two rows in Bayer mode, with the default ROM. -/
theorem test_quantize_bayer :
    bytesOf (after (exec .quantize
      { panel 10 2 with
        levelCount := 8, levels := eightLevels, mode := 1
        img := written [0, 25, 50, 75, 100, 125, 150, 175, 200, 225, 10, 35, 60, 85, 110, 135, 160, 185, 210, 235] })).img =
    [0, 36, 0, 109, 0, 146, 73, 219, 73, 219, 73, 0, 146, 36, 182, 73, 255, 146, 255, 182] := by decide +kernel

/-! ## Encoder: 95_test_vectors.md section 2.5 -/

/-- E4: payloads. -/
theorem test_packTile :
    packTile 2 3 (fun c r => r == 0 || (r == 1 && c == 1) || (r == 2 && c == 0)) = [0xC0, 0x40, 0x80] ∧
      packTile 10 1 (fun _ _ => true) = [0xFF, 0xC0] ∧ packTile 8 1 (fun c _ => c == 7) = [0x01] := by decide +kernel

/-- E5: the whole stream, command by command. -/
theorem test_encode_commands :
    ({ panel 4 2 with
        tileSize := 2, levelCount := 8, levels := eightLevels, delayMs := 0
        img := written [0, 255, 109, 146, 36, 255, 219, 182] } : State).encodedCommands =
    [.clear, .whiteout, .delay 0, .clear,
      .tile 0 0 0 0 2 2 [0x80, 0x80], .tile 2 0 0 0 2 2 [0xC0, 0xC0], .endLayer, .clear,
      .tile 0 0 0 0 2 2 [0x80, 0x80], .tile 2 0 0 0 2 2 [0xC0, 0x40], .endLayer, .clear,
      .tile 0 0 0 0 2 2 [0x80, 0x80], .tile 2 0 0 0 2 2 [0xC0, 0x00], .endLayer, .clear,
      .tile 0 0 0 0 2 2 [0x80, 0x80], .tile 2 0 0 0 2 2 [0x80, 0x00], .endLayer, .clear,
      .tile 0 0 0 0 2 2 [0x80, 0x80], .endLayer, .clear,
      .tile 0 0 0 0 2 2 [0x80, 0x80], .endLayer, .clear,
      .tile 0 0 0 0 2 2 [0x80, 0x00], .endLayer, .clear] := by decide +kernel

/-- P5: an all-white image on an 8×8 panel gives 110 bytes. -/
theorem test_encode_length :
    (after (exec .encode { panel 8 8 with img := written (List.replicate 64 255) })).csOut.length = 110 := by decide +kernel

/-- 41_encoder.md R114, R118: the tiles of a 3×3 black image in raster order, those at the edges clipped, pad bits 0. -/
theorem test_layer_in_raster_order :
    ({ panel 3 3 with tileSize := 2, img := written (List.replicate 9 0) } : State).layerTiles 8 =
      [.tile 0 0 0 0 2 2 [0xC0, 0xC0], .tile 2 0 0 0 1 2 [0x80, 0x80], .tile 0 2 0 0 2 1 [0xC0], .tile 2 2 0 0 1 1 [0x80]] := by
  decide +kernel

/-! ## Decoder operations: 95_test_vectors.md section 2.10 -/

/-- H1: the first step passes a comment and a blank line and clears; the second whitens the screen; the third is idle. -/
theorem test_decStep :
    let s := { panel 1 1 with csIn := [0x23, 0x20, 0x78, 0x0A, 0x0A, 0x30, 0x31, 0x0A, 0x30, 0x32, 0x0A] }
    let t := after (exec .decStep s)
    let u := after (exec .decStep t)
    let v := after (exec .decStep u)
    [t, u, v].map (fun s => (s.lineNo, s.decIdle, bytesOf s.fb, bytesOf s.ps)) =
      [(3, false, [255], []), (4, false, [255], [255]), (4, true, [255], [255])] := by decide +kernel

/-- H3: a stream of one comment line. -/
theorem test_decStep_only_comment :
    let t := after (exec .decStep { State.reset with csIn := [0x23, 0x20, 0x6F, 0x0A] })
    (t.lineNo, t.decIdle, t.csIn) = (1, true, []) := by decide +kernel

/-- H2: the bytes after the last LF stay. -/
theorem test_decRun :
    let t := after (exec .decRun { panel 1 1 with csIn := [0x30, 0x31, 0x0A, 0x30, 0x32] })
    (t.lineNo, t.decIdle, t.csIn, bytesOf t.fb) = (1, true, [0x30, 0x32], [255]) := by decide +kernel

/-- P3, line 5 between two good lines: one record, and the run goes on. -/
theorem test_decRun_skips_faults :
    let t := after (exec .decRun { panel 1 1 with csIn := [0x30, 0x31, 0x0A, 0x37, 0x46, 0x20, 0x30, 0x30, 0x0A, 0x30, 0x32, 0x0A] })
    (t.diag, t.lineNo, bytesOf t.ps) = ([{ line := 2, code := 0x32 }], 3, [255]) := by decide +kernel

theorem test_decReset :
    let t := after (exec .decReset { white8 with csIn := [0x30], lineNo := 7, diag := [{ line := 7, code := 0x31 }], diagIndex := 3 })
    (t.csIn, t.lineNo, t.diag, t.diagIndex, bytesOf t.fb) = ([], 0, [], 0, List.replicate 8 255) := by decide +kernel

/-- 95_test_vectors.md section 2.9: the code each change leaves in `ERR_CODE`, and the decoder's check of the dimensions only. -/
theorem test_configuration_errors :
    [after (exec .quantize { panel 0 122 with tileSize := 0 }), after (exec .encode { State.reset with tileSize := 0, levelCount := 9 }),
      after (exec .encode { State.reset with levelCount := 9, mode := 5 }),
      after (exec .encode { State.reset with levels := State.reset.levels.set 2 17, mode := 3 }),
      after (exec .encode { State.reset with mode := 3 }), after (exec .decStep (panel 0 122)),
      after (exec .decStep { State.reset with tileSize := 0, levelCount := 9, mode := 7 })].map (fun s => (s.cfgErr, s.errCode)) =
    [(true, 0x11), (true, 0x12), (true, 0x13), (true, 0x14), (true, 0x15), (true, 0x11), (false, 0)] := by decide +kernel

/-! ## Steps -/

/-- H5: what the host reads back after a write. -/
theorem test_step_registers_read_back :
    [(0x28, 300, 256), (0x10, 0x1FA, 0xFA), (0x1C, 40, 8)].map (fun p => (after (step (after (step
      { State.reset with hostQ := [.write p.1 (BitVec.ofNat 32 p.2.1), .read p.1] })))).hostData.toNat == p.2.2) =
    [true, true, true] := by decide +kernel

/-- P5: an illegal level count, then `ENCODE` through `CTRL`, then `STATUS` and `ERR_CODE`. -/
theorem test_step_configuration_error :
    let t := after (step (after (step { State.reset with hostQ := [.write 0x1C 12, .write 0x04 2, .read 0x08] })))
    (t.status, t.errCode, t.csOut, (after (step t)).hostData) = (1, 0x13, [], 1) := by decide +kernel

/-- 20_memory.md R49: the interface has no register at an offset that is no multiple of 4. -/
theorem test_step_no_register : step (asked (.read 0x05)) = .fault (.noSuchRegisterAccess 0x05) := by rfl

/-- A table word runs as the first instruction after reset (log 2). -/
theorem test_step_withFetchWord :
    (after (step (State.reset.withFetchWord 8 1))).fb.length = 4000 ∧ (after (step (State.reset.withFetchWord 4 5))).hostQ = [] ∧
      (after (step (State.reset.withFetchWord 0 0))).lineNo = 1 := by decide +kernel

/-! ## Witnesses

For each statement with hypotheses, concrete states and operands that meet them, clause by clause and at the ends of the ranges. -/

/-- A two-pixel panel with a legal configuration and a written image. -/
def ready : State := { panel 2 1 with tileSize := 2, img := [(0, 0), (1, 200)], fb := [(0, 255), (1, 255)], ps := [(0, 255), (1, 9)] }

/-- An image of one more pixel value than `ready`'s. -/
def otherImg : Memory := [(0, 0), (1, 3)]

/-- A tile with every field at a value of its own. -/
def someTile : Instr := .tile 255 1 0xAA 0x55 10 2 [1, 2, 3, 4]

theorem configOk_of_check {s : State} (h : s.checkConfig .full = none) : s.ConfigOk := (State.checkConfig_full_none s).1 h
theorem dimsOk_of_check {s : State} (h : s.checkConfig .dims = none) : s.DimsOk := (State.checkConfig_dims_none s).1 h

theorem ready_configOk : ready.ConfigOk := configOk_of_check (by decide +kernel)
theorem ready_dimsOk : ready.DimsOk := dimsOk_of_check (by decide +kernel)

/-- `ready` with these bytes queued for the decoder. -/
def fed (q : List Byte) : State := { ready with csIn := q }

theorem fed_dimsOk (q : List Byte) : (fed q).DimsOk := ready_dimsOk
theorem fed_csIn (q : List Byte) : (fed q).csIn = q := rfl

theorem witness_DecodeOfEncodeIsIdentity :
    someTile.wellFormed = true ∧ Instr.wellFormed (.rect 255 0 255 0 1) = true ∧ Instr.wellFormed (.delay 4294967295) = true := by
  decide
theorem witness_EmittedCommandIsTakenWhole : someTile.wellFormed = true ∧ someTile.isCommand = true := by decide
theorem witness_BlanksAndCrAroundALineAreHarmless :
    someTile.wellFormed = true ∧ someTile.isCommand = true ∧ (∀ c ∈ ([0x20, 0x09] : List Byte), isBlank c = true) ∧
      ([0x20, 0x09] ++ commandText someTile ++ [0x20, 0x09]).length < lineMax := by decide
theorem witness_DecodedInstructionsAreWellFormed :
    decode (.line [0x30, 0x31]) = .ok .clear ∧ decode (.ctrl 0x12) = .ok .encode := ⟨rfl, rfl⟩
/-- The tail ` 4294967295` of a Delay line. -/
theorem greatest_delayTail :
    DelayTail [0x20, 0x34, 0x32, 0x39, 0x34, 0x39, 0x36, 0x37, 0x32, 0x39, 0x35]
      [0x34, 0x32, 0x39, 0x34, 0x39, 0x36, 0x37, 0x32, 0x39, 0x35] :=
  ⟨[0x20], rfl, by decide, by decide, by decide, by decide, by decide, by decide⟩

/-- Nothing at all, and a count without a separator, are no tails of a Delay line. -/
theorem not_delayTail (digits : List Byte) : ¬ DelayTail [] digits ∧ ¬ DelayTail [0x35] digits := by
  refine ⟨fun ⟨gap, h, hg, _⟩ => ?_, fun ⟨gap, h, hg, hb, _⟩ => ?_⟩
  · exact hg (List.append_eq_nil_iff.1 h.symm).1
  · cases gap with
    | nil => exact hg rfl
    | cons c gap =>
      obtain ⟨rfl, -⟩ := List.cons.inj h
      exact absurd (hb 0x35 (by simp)) (by decide)

theorem witness_IllegalLinesAreFaulted :
    (3 * ([0, 0, 0, 0, 2] : List Byte).length + 2 ≤ lineMax ∧ ((0 : Byte).toNat = 0 ∨ 6 ≤ (0 : Byte).toNat) ∧
      6 ≤ (0x06 : Byte).toNat ∧ 6 ≤ (0xFF : Byte).toNat ∧ ([0] : List Byte) ≠ [] ∧ ([0, 0, 0, 0, 0] : List Byte).length < 6 ∧
      ([0, 0, 0, 0, 1, 1] : List Byte).length ≠ 6 + 1 * ceil8 1 ∧ ([0, 0, 0, 0] : List Byte).length ≠ 5 ∧
      2 ≤ (([0, 0, 0, 0, 2] : List Byte).getD 4 0).toNat) ∧
    (∀ tail ∈ ([[], [0x35], [0x20, 0x34, 0x32, 0x39, 0x34, 0x39, 0x36, 0x37, 0x32, 0x39, 0x35]] : List (List Byte)),
      (∀ c ∈ tail.getLast?, isBlank c = false) ∧ ([0x09] ++ delayKeyword ++ tail ++ [0x20]).getLast? ≠ some cr ∧
        ([0x09] ++ delayKeyword ++ tail ++ [0x20]).length ≤ lineMax) ∧
    (∀ digits, ¬ DelayTail [] digits) ∧ (∀ digits, ¬ DelayTail [0x35] digits) ∧ ∃ tail digits, DelayTail tail digits :=
  ⟨by decide, by decide, fun d => (not_delayTail d).1, fun d => (not_delayTail d).2, _, _, greatest_delayTail⟩
/-- Lines as their first token and their gaps and tokens: `0G`, `1`, `delay`, `01`, each before a `#`, or before a CR inside the
line. -/
def badLines : List (List Byte × List (List Byte × List Byte)) :=
  [[0x30, 0x47], [0x31], [0x64, 0x65, 0x6C, 0x61, 0x79], [0x30, 0x31]].flatMap (fun first =>
    [(first, [([0x20, 0x09], [0x23])]), (first, [([0x20], [0x30, 0x0D]), ([0x20], [0x30, 0x30])])])

theorem witness_BadTokenIsReportedFirst :
    ∀ l ∈ badLines,
      (∀ p ∈ l.2, p.1 ≠ [] ∧ ∀ c ∈ p.1, isBlank c = true) ∧ (∀ t ∈ l.1 :: l.2.map Prod.snd, t ≠ [] ∧ ∀ c ∈ t, isBlank c = false) ∧
        l.1.head? ≠ some hash ∧ l.1.take 5 ≠ delayKeyword ∧ (∃ t ∈ l.1 :: l.2.map Prod.snd, tokenByte t = none) ∧
        ([space] ++ l.1 ++ l.2.flatMap (fun p : List Byte × List Byte => p.1 ++ p.2) ++ [0x09]).getLast? ≠ some cr ∧
        ([space] ++ l.1 ++ l.2.flatMap (fun p : List Byte × List Byte => p.1 ++ p.2) ++ [0x09]).length ≤ lineMax := by decide
theorem witness_BlankAndCommentLinesAreIgnored :
    (∀ c ∈ ([0x20, 0x09] : List Byte), isBlank c = true) ∧ ([0x20, 0x09] ++ hash :: [0x30, 0x31, 0x0D]).length ≤ lineMax := by decide

/-- A line of `n` letters A. -/
def letters (n : Nat) : List Byte := List.replicate n 0x41

theorem letters_length (n : Nat) : (letters n).length = n := List.length_replicate
theorem letters_noLf (n : Nat) : lf ∉ letters n := fun h => absurd (List.eq_of_mem_replicate h) (by decide)

theorem witness_OverLongLineIsConsumedAndLogged :
    ∃ (s : State) (raw : List Byte), s.DimsOk ∧ s.csIn = raw ++ lf :: [0x30] ∧ lf ∉ raw ∧ 32768 < raw.length :=
  ⟨fed (letters 32769 ++ lf :: [0x30]), letters 32769, fed_dimsOk _, fed_csIn _, letters_noLf 32769,
    (letters_length 32769).symm ▸ (by decide : 32768 < 32769)⟩
theorem witness_RotationMappingIsBijective :
    State.reset.OnPanel 0 0 ∧ State.reset.OnPanel 249 121 ∧ 249 < State.reset.width ∧ 121 < State.reset.height := by decide
theorem witness_WindowWriteReadsBack :
    (65024 < MemId.capacity .img ∧ 8159 < MemId.capacity .fb ∧ 65024 < MemId.capacity .ps) ∧
      ({ ready with hostQ := [.write (0x10000 + 65024) 0x1FF, .read (0x10000 + 65024)] } : State).hostQ =
        .write (MemId.base .img + 65024) 0x1FF :: .read (MemId.base .img + 65024) :: [] := by decide
theorem witness_AccessWithoutTargetIsInert :
    (∀ addr ∈ [0x100, 0x1FE01, 0x21FE0, 0x3FE01, 0x40040], 0x100 ≤ addr ∧
      (¬ (MemId.base .img ≤ addr ∧ addr < MemId.base .img + MemId.capacity .img)) ∧
      (¬ (MemId.base .fb ≤ addr ∧ addr < MemId.base .fb + MemId.capacity .fb)) ∧
      (¬ (MemId.base .ps ≤ addr ∧ addr < MemId.base .ps + MemId.capacity .ps)) ∧ ¬ (0x40000 ≤ addr ∧ addr < 0x40040) ∧
      (asked (.write addr 1)).hostQ = [.write addr 1] ∧ (asked (.read addr)).hostQ = [.read addr]) ∧
    (∀ addr ∈ [0x40000, 0x4003F], 0x40000 ≤ addr ∧ addr < 0x40040) ∧ (∀ addr ∈ [0xBC, 0xD8, 0xFC], unlistedOffset addr) ∧
    ∀ addr ∈ [0x00, 0x08, 0x0C, 0x34, 0x3C, 0x80, 0xB8, 0xC0, 0xC4, 0xCC, 0xD4], readOnlyOffset addr := by decide
theorem witness_RegisterWriteReadsBack :
    (∀ o ∈ [0x10, 0x1C, 0x28, 0x30, 0x40, 0x7C, 0xD0], readWriteOffset o) ∧
      ({ ready with hostQ := [.write 0x28 300, .read 0x28] } : State).hostQ = .write 0x28 300 :: .read 0x28 :: [] := by decide
theorem witness_ThreshReadsTheThreshold :
    (asked (.read (0x80 + 4 * 0))).hostQ = [.read 0x80] ∧ (asked (.read (0x80 + 4 * 14))).hostQ = [.read 0xB8] ∧
      (asked (.write 0xB8 5)).hostQ = [.write (0x80 + 4 * 14) 5] := by decide
theorem witness_StatusReadsTheFlags :
    ∀ addr ∈ [0x08, 0x00, 0x04, 0x0C, 0x38], (asked (.read addr)).hostQ = .read addr :: [] := by decide
/-- A log of two records, with the index at a position of its own. -/
def logged (index : Word) : State :=
  { asked (.read 0xD4) with diag := [{ line := 2, code := 0x31 }, { line := 5, code := 0x41 }], diagIndex := index }

theorem witness_DiagRegistersReadTheLog :
    ((logged 1).hostQ = [.read 0xD4] ∧ (logged 1).diag = [{ line := 2, code := 0x31 }] ++ [{ line := 5, code := 0x41 }] ∧
      (logged 1).diag[(logged 1).diagIndex.toNat]? = some { line := 5, code := 0x41 } ∧
      (asked (.read 0x34)).hostQ = [.read 0x34] ∧ (asked (.read 0x3C)).diag = []) ∧
    (logged 1).diagIndex.toNat < 4294967295 ∧ min (logged 2).diag.length 4294967295 ≤ (logged 2).diagIndex.toNat ∧
      min (logged 0xFFFFFFFF).diag.length 4294967295 ≤ (logged 0xFFFFFFFF).diagIndex.toNat :=
  ⟨by decide, by decide, Nat.le_trans (Nat.min_le_left _ _) (by decide), Nat.le_trans (Nat.min_le_left _ _) (by decide)⟩
theorem witness_QueueRegistersPopAndPush :
    let s := { asked (.read 0xC0) with csOut := [0x30, 0x31] }
    s.csOut = 0x30 :: [0x31] ∧ s.hostQ = [.read 0xC0] ∧ (asked (.read 0xC0)).csOut = [] ∧
      (asked (.write 0xC8 0x30)).hostQ = [.write 0xC8 0x30] ∧ (asked (.read 0xC4)).hostQ = [.read 0xC4] ∧
      (asked (.read 0xCC)).hostQ = [.read 0xCC] ∧ (asked (.read 0xCC)).csIn.length ≤ 4294967295 := by decide
theorem witness_TilePaintsItsRectangle :
    ([1, 2, 3, 4] : List Byte).length = (2 : Byte).toNat * ceil8 (10 : Byte).toNat ∧
      State.reset.OnPanel (249 : Byte).toNat (121 : Byte).toNat := by decide
theorem witness_RectFillsItsRectangle : State.reset.OnPanel (249 : Byte).toNat (0 : Byte).toNat := by decide
theorem witness_DrawingLeavesOtherBytesAndPadBits :
    (∃ res0 res1 bw bh payload, Instr.tile 0 0 1 2 2 1 [0x40] = .tile 0 0 res0 res1 bw bh payload ∧ 2 = bw.toNat ∧ 1 = bh.toNat) ∧
      (∃ color, Instr.rect 0 0 1 0 1 = .rect 0 0 1 0 color ∧ 2 = (1 : Byte).toNat + 1 - (0 : Byte).toNat ∧
        1 = (0 : Byte).toNat + 1 - (0 : Byte).toNat) ∧
      exec (.tile 0 0 1 2 2 1 [0x40]) ready = .next (after (exec (.tile 0 0 1 2 2 1 [0x40]) ready)) ∧
      exec (.rect 0 0 1 0 1) ready = .next (after (exec (.rect 0 0 1 0 1) ready)) :=
  ⟨⟨1, 2, 2, 1, [0x40], rfl, rfl, rfl⟩, ⟨1, rfl, rfl, rfl⟩, rfl, rfl⟩
theorem witness_OriginOffThePanelIsLogged :
    ¬ State.reset.OnPanel (250 : Byte).toNat (0 : Byte).toNat ∧ ¬ State.reset.OnPanel (0 : Byte).toNat (122 : Byte).toNat := by decide
theorem witness_EndLayerDarkensBlackPixels : ready.OnPanel 0 0 ∧ ready.OnPanel 1 0 ∧ ready.width * ready.height ≤ 2 := by decide
theorem witness_OnlyWhiteoutRaisesTheScreen :
    Instr.isCommand .endLayer = true ∧ Instr.endLayer ≠ .whiteout ∧ exec .endLayer ready = .next (after (exec .endLayer ready)) :=
  ⟨rfl, by decide, rfl⟩

theorem witness_DecStepRunsTheNextCommand :
    (fed [0x30, 0x35, 0x0A, 0x30]).DimsOk ∧ (fed [0x30, 0x35, 0x0A, 0x30]).csIn = [0x30, 0x35] ++ lf :: [0x30] ∧
      lf ∉ ([0x30, 0x35] : List Byte) ∧ decode (.line [0x30, 0x35]) = .ok .endLayer :=
  ⟨ready_dimsOk, rfl, by decide, rfl⟩
theorem witness_DecStepPassesOverIgnoredLines :
    (fed [0x23, 0x0A, 0x30]).DimsOk ∧ (fed [0x23, 0x0A, 0x30]).csIn = [0x23] ++ lf :: [0x30] ∧ lf ∉ ([0x23] : List Byte) ∧
      decode (.line [0x23]) = .error .blankOrComment :=
  ⟨ready_dimsOk, rfl, by decide, rfl⟩
theorem witness_DecStepLogsAFaultyLine :
    (∀ p ∈ ([([0x30, 0x47], .badToken, 0x31), ([0x30, 0x36], .unknownOpcode, 0x32), ([0x30, 0x31, 0x20, 0x30, 0x32], .badByteCount, 0x33),
        (delayKeyword, .badDelay, 0x34), (hexLine [4, 0, 0, 0, 0, 2], .badColor, 0x35)] : List (List Byte × LineError × Byte)),
      lf ∉ p.1 ∧ decode (.line p.1) = .error (.faulty p.2.1) ∧ (p.2.1, p.2.2) ∈ causeCodes) ∧
    ((fed [0x30, 0x47, 0x0A]).DimsOk ∧ (fed [0x30, 0x47, 0x0A]).csIn = [0x30, 0x47] ++ lf :: []) ∧
    lf ∉ letters 32769 ∧ decode (.line (letters 32769)) = .error (.faulty .overLong) ∧
      (LineError.overLong, (0x36 : Byte)) ∈ causeCodes := by
  refine ⟨by decide, ⟨ready_dimsOk, rfl⟩, letters_noLf _, ?_, by decide⟩
  have h : decodeLine (letters 32769) = .error .overLong := by
    unfold decodeLine
    rw [letters_length, if_pos (by decide)]
  simp only [decode, h]
theorem witness_DecStepWithoutALineIsIdle : (fed [0x30, 0x31]).DimsOk ∧ lf ∉ (fed [0x30, 0x31]).csIn :=
  ⟨ready_dimsOk, by decide⟩
theorem witness_DecRunConsumesEveryLine : (fed [0x30, 0x31, 0x0A, 0x30]).DimsOk ∧ (fed [0x30, 0x31, 0x0A, 0x30]).stopAfter = none :=
  ⟨ready_dimsOk, rfl⟩
theorem witness_DecRunRepeatsDecStep : (fed [0x30, 0x31, 0x0A, 0x30]).DimsOk ∧ (fed [0x30, 0x31, 0x0A, 0x30]).stopAfter = none :=
  ⟨ready_dimsOk, rfl⟩
theorem witness_DecRunStopsOnRequest :
    ({ ready with stopAfter := some 0 } : State).DimsOk ∧ ({ ready with stopAfter := some 0 } : State).stopAfter = some 0 ∧
      ({ ready with stopAfter := some 2 } : State).stopAfter = some 2 :=
  ⟨ready_dimsOk, rfl, rfl⟩
theorem witness_DecResetStartsAfresh : ready.DimsOk ∧ ¬ (panel 0 5).DimsOk := ⟨ready_dimsOk, fun h => h.1 rfl⟩
theorem witness_NoInputStopsOrEscapesTheDecoder :
    (Instr.decRun = .decStep ∨ Instr.decRun = .decRun) ∧ (fed [0x30, 0x47, 0x0A]).DimsOk ∧
      ready.width * ready.lineBytes ≤ 2 ∧ ready.width * ready.height ≤ 2 :=
  ⟨.inr rfl, ready_dimsOk, by decide, by decide⟩
theorem witness_ConfigurationErrorsComeInOrder :
    ready.ConfigOk ∧ ¬ (panel 0 5).ConfigOk ∧ ¬ ({ ready with mode := 3 } : State).ConfigOk ∧ (panel 0 5).panelW = 0 ∧
      (panel 5 0).panelH = 0 ∧ ready.panelW ≠ 0 ∧ ready.panelH ≠ 0 :=
  ⟨ready_configOk, fun h => h.dims.1 rfl, fun h => absurd h.mode (by decide), rfl, rfl, by decide, by decide⟩
theorem witness_ReservedOperationsDoNothing :
    (0 : Word).toNat % 16 = 0 ∧ 6 ≤ (6 : Word).toNat % 16 ∧ 6 ≤ (15 : Word).toNat % 16 ∧ (0xFFFFFFF0 : Word).toNat % 16 = 0 ∧
      (asked (.write 0x04 9)).hostQ = .write 0x04 9 :: [] := by decide
theorem witness_NearestIsTheClosestDarkestLevel : ready.levelsUsed ≠ 0 := by decide
theorem witness_ContrastFixesMidGrayAndKeepsOrder :
    ready.contrast = 0x0100 ∧ ({ ready with contrast := 0 } : State).contrast = 0 ∧ (0 : Byte).toNat ≤ (255 : Byte).toNat := by decide
theorem witness_BiasIsTheScaledMatrixValue :
    ready.strength = 256 ∧ ({ ready with strength := 0 } : State).strength = 0 ∧ ready.strength.toNat ≤ 256 := by decide
theorem witness_ThresholdModeQuantizesEachPixel : ready.ConfigOk ∧ ready.mode = 0 := ⟨ready_configOk, rfl⟩
theorem witness_BayerModeQuantizesWithBias :
    ({ ready with mode := 1 } : State).ConfigOk ∧ ({ ready with mode := 1 } : State).mode = 1 :=
  ⟨configOk_of_check (by decide +kernel), rfl⟩
theorem witness_ErrorDiffusionRunsInRasterOrder :
    (({ panel 3 2 with mode := 2 } : State).OnPanel 1 0 ∧ 1 + 1 < (panel 3 2).width ∧ 0 < 1 ∧ 0 + 1 < (panel 3 2).height ∧
      ({ panel 3 2 with mode := 2 } : State).OnPanel 2 1) ∧
    ({ ready with mode := 2 } : State).ConfigOk ∧ ({ ready with mode := 2 } : State).mode = 2 :=
  ⟨by decide, configOk_of_check (by decide +kernel), rfl⟩
theorem witness_ErrorDiffusionWithoutStrengthIsThreshold :
    let s : State := { ready with mode := 2, strength := 0 }
    s.ConfigOk ∧ s.mode = 2 ∧ s.strength = 0 ∧ exec .quantize s = .next (after (exec .quantize s)) ∧
      exec .quantize { s with mode := 0 } = .next (after (exec .quantize { s with mode := 0 })) :=
  ⟨configOk_of_check (by decide +kernel), rfl, rfl, rfl, rfl⟩
theorem witness_QuantizedPixelsAreLevels : ready.ConfigOk ∧ 1 < ready.width * ready.height ∧ ready.width * ready.height ≤ 2 :=
  ⟨ready_configOk, by decide, by decide⟩
theorem witness_QuantizeIsCausalInRasterOrder :
    ready.ConfigOk ∧ (∀ a, a ≤ 0 → ready.readMem .img a = State.readMem { ready with img := otherImg } .img a) ∧
      exec .quantize ready = .next (after (exec .quantize ready)) ∧
      exec .quantize { ready with img := otherImg } = .next (after (exec .quantize { ready with img := otherImg })) :=
  ⟨ready_configOk, by decide, rfl, rfl⟩
theorem witness_QuantizingTwiceIsQuantizingOnce :
    ready.ConfigOk ∧ ready.mode = 0 ∧ ready.contrast = 0x0100 ∧ exec .quantize ready = .next (after (exec .quantize ready)) ∧
      exec .quantize (after (exec .quantize ready)) = .next (after (exec .quantize (after (exec .quantize ready)))) :=
  ⟨ready_configOk, rfl, rfl, rfl, rfl⟩
theorem witness_ThresholdsLieBetweenTheirLevels :
    ready.LevelsSorted ∧ 0 + 1 < ready.levelsUsed ∧ 14 + 1 < ready.levelsUsed ∧
      (List.range 8).map ({ ready with levels := eightLevels } : State).level = [0, 36, 73, 109, 146, 182, 219, 255] :=
  ⟨ready_configOk.sorted, by decide, by decide, by decide⟩

/-- A table whose first two levels differ by 1 and whose others differ by more. -/
def closeLevels : State := { ready with levelCount := 8, levels := #v[0, 1, 73, 109, 146, 182, 219, 255, 0, 0, 0, 0, 0, 0, 0, 0] }

theorem witness_LayersOfALevel :
    ready.LevelsSorted ∧ closeLevels.LevelsSorted ∧ 0 + 1 < closeLevels.levelsUsed ∧ 7 < closeLevels.levelsUsed ∧
      (∀ j, j < 15 → ready.level j + 2 ≤ ready.level (j + 1)) ∧ closeLevels.level (0 + 1) = closeLevels.level 0 + 1 :=
  ⟨ready_configOk.sorted, (configOk_of_check (by decide +kernel)).sorted, by decide, by decide, by decide, by decide⟩
theorem witness_EncodeAppendsOneStream : ready.ConfigOk := ready_configOk
theorem witness_EmittedTilesAreTheMask :
    ready.tileSize.toNat ≠ 0 ∧ Instr.tile 0 0 0 0 2 1 [0x80] ∈ ready.layerTiles 8 ∧ (2 : Byte).toNat ≤ 7 ∧
      7 < 8 * ceil8 (2 : Byte).toNat := by decide +kernel
theorem witness_EveryDarkPixelIsInATile :
    ready.tileSize.toNat ≠ 0 ∧ ready.OnPanel 0 0 ∧ ready.pixel 0 0 < 8 ∧
      ∀ px, px < 2 → 201 ≤ ({ ready with img := [(0, 255), (1, 201)] } : State).pixel px 0 := by decide +kernel
theorem witness_ReplayRestoresTheGrays :
    let u := after (exec .encode ready)
    let d : State := { ready with grayStep := 100, csIn := u.csOut }
    ready.ConfigOk ∧ exec .encode ready = .next u ∧ d.panelW = ready.panelW ∧ d.panelH = ready.panelH ∧ ready.csOut = [] ∧
      d.csIn = u.csOut ∧ d.stopAfter = none :=
  ⟨ready_configOk, rfl, rfl, rfl, rfl, rfl, rfl⟩
theorem witness_InstructionsWriteOnlyTheirOwnState :
    ((Instr.quantize = .quantize ∨ Instr.quantize = .encode) ∧ Instr.encode ≠ .quantize ∧ Instr.quantize ≠ .encode ∧
      Instr.decRun ≠ .decReset ∧ Instr.decStep ≠ .decRun) ∧ ¬ (panel 0 5).DimsOk ∧ ready.DimsOk :=
  ⟨by decide, fun h => h.1 rfl, ready_dimsOk⟩
theorem witness_EncoderAndDecoderOperationsCommute :
    ready.ConfigOk ∧ (Instr.encode = .quantize ∨ Instr.encode = .encode) ∧
      (Instr.decReset = .decStep ∨ Instr.decReset = .decRun ∨ Instr.decReset = .decReset) :=
  ⟨ready_configOk, .inr rfl, .inr (.inr rfl)⟩
theorem witness_StepRunsTheDecodedInstruction :
    (asked (.write 0x04 0x12)).hostQ = .write 0x04 0x12 :: [] ∧ decode (.ctrl 0x12) = .ok .encode ∧ ready.DimsOk ∧
      lf ∉ ([0x30, 0x35] : List Byte) ∧ decode (.line [0x30, 0x35]) = .ok .endLayer :=
  ⟨rfl, rfl, ready_dimsOk, by decide, rfl⟩
theorem witness_StepStopsOnlyOnAMissingRegister :
    (asked (.read 0x01)).hostQ = .read 0x01 :: [] ∧ 0x01 < 0x100 ∧ 0x01 % 4 ≠ 0 ∧ (asked (.write 0xFF 0)).hostQ = .write 0xFF 0 :: [] ∧
      0xFF < 0x100 ∧ 0xFF % 4 ≠ 0 ∧ ready.hostQ = [] := by decide

/-- A safe state with an error taken, a record logged and an operation to come. -/
def busy : State :=
  { ready with hostQ := [.write 0x04 5], cfgErr := true, errCode := 0x13, lineNo := 6, diag := [{ line := 5, code := 0x32 }] }

theorem witness_StepKeepsTheStateSafe : busy.Inv ∧ step busy = .next (after (step busy)) := by
  refine ⟨⟨?_, by decide, Or.inr ⟨rfl, .levelCount, rfl⟩, ?_, by decide⟩, rfl⟩
  · intro k
    cases k <;> exact ⟨by decide, by decide⟩
  · intro r hr
    have h : r = { line := 5, code := 0x32 } := by simpa [busy] using hr
    subst h
    exact ⟨⟨.unknownOpcode, rfl⟩, by decide⟩
theorem witness_ResetGivesTheTableValues :
    (asked .reset).hostQ = .reset :: [] ∧ step (asked .reset) = .next (after (step (asked .reset))) := ⟨rfl, rfl⟩

end Sys2Proof.Tests
end

section
/-! PROOFS (O58, O59, O60). The safety invariant, one lemma per named update of the state and per meaning, then per step; the
state after reset. -/

namespace Sys2Proof.Machine

section
variable {s t : State}

/-! ## The log -/

/-- The invariant of the log speaks of the records and of `LINE_NO` alone (10_state.md R29). -/
theorem State.LogOk.congr (h : s.LogOk) (hd : t.diag = s.diag) (hl : t.lineNo = s.lineNo) : t.LogOk := by
  unfold State.LogOk
  rw [hd, hl]
  exact h

theorem State.LogOk.logDiag (h : s.LogOk) (e : LineError) : (s.logDiag e).LogOk := by
  obtain ⟨hrec, hord⟩ := h
  refine ⟨fun r hr => ?_, List.pairwise_append.2 ⟨hord, List.pairwise_singleton _ _, fun a ha b hb => ?_⟩⟩
  · rcases List.mem_append.1 hr with hr | hr
    · exact hrec r hr
    · obtain rfl := List.mem_singleton.1 hr
      exact ⟨⟨e, rfl⟩, Nat.le_refl _⟩
  · obtain rfl := List.mem_singleton.1 hb
    exact (hrec a ha).2

/-! ## The named updates keep the state safe -/

theorem State.Inv.setMem (h : s.Inv) {k : MemId} {m : Memory} (hm : m.Within k.capacity) : (s.setMem k m).Inv where
  mem j := by
    unfold State.MemOk
    by_cases hj : j = k
    · subst hj
      rw [State.mem_setMem_same]
      exact hm
    · rw [State.mem_setMem_other _ _ _ _ hj]
      exact h.mem j
  strength := by cases k <;> exact h.strength
  err := by cases k <;> exact h.err
  log := by cases k <;> exact h.log

theorem State.Inv.raiseConfig (h : s.Inv) (e : ConfigError) : (s.raiseConfig e).Inv :=
  ⟨h.mem, h.strength, .inr ⟨rfl, e, rfl⟩, h.log⟩

theorem State.Inv.clearConfig (h : s.Inv) : s.clearConfig.Inv :=
  ⟨h.mem, h.strength, .inl ⟨rfl, rfl⟩, h.log⟩

theorem State.Inv.logDiag (h : s.Inv) (e : LineError) : (s.logDiag e).Inv :=
  ⟨h.mem, h.strength, h.err, h.log.logDiag e⟩

/-- Counting further lines leaves every logged line a counted one: `LINE_NO` only rises (10_state.md R12). -/
theorem State.Inv.takeLines (h : s.Inv) (n : Nat) (rest : List Byte) : (s.takeLines n rest).Inv where
  mem := h.mem
  strength := h.strength
  err := h.err
  log := ⟨fun r hr => ⟨(h.log.1 r hr).1, Nat.le_trans (h.log.1 r hr).2 (satAdd_le _ _)⟩, h.log.2⟩

theorem State.Inv.setIdle (h : s.Inv) (b : Bool) : (s.setIdle b).Inv := ⟨h.mem, h.strength, h.err, h.log⟩

theorem State.Inv.appendOut (h : s.Inv) (bytes : List Byte) : (s.appendOut bytes).Inv :=
  ⟨h.mem, h.strength, h.err, h.log⟩

theorem State.Inv.setHostQ (h : s.Inv) (q : List HostAction) : (s.setHostQ q).Inv :=
  ⟨h.mem, h.strength, h.err, h.log⟩

theorem State.Inv.setHostData (h : s.Inv) (w : Word) : (s.setHostData w).Inv := ⟨h.mem, h.strength, h.err, h.log⟩

theorem State.Inv.setStop (h : s.Inv) (n : Option Nat) : (s.setStop n).Inv := ⟨h.mem, h.strength, h.err, h.log⟩

/-! ## The instructions keep the state safe -/

theorem State.Inv.runCommand (h : s.Inv) (i : Instr) : (s.runCommand i).Inv := by
  have hfb := State.runCommand_fb_within i (h.mem .fb)
  have hps := State.runCommand_ps_within i (h.mem .ps)
  have hlog : (s.runCommand i).LogOk := by
    have hl : (s.runCommand i).lineNo = s.lineNo := by rw [State.runCommand_frame]
    rcases State.runCommand_diag i s with hd | ⟨e, hd⟩
    · exact h.log.congr hd hl
    · exact (h.log.logDiag e).congr hd hl
  rw [State.runCommand_frame] at hlog ⊢
  refine ⟨fun k => ?_, h.strength, h.err, hlog⟩
  cases k with
  | img => exact h.mem .img
  | fb => exact hfb
  | ps => exact hps

theorem State.Inv.stepLine (h : s.Inv) : s.stepLine.Inv := by
  have ht := h.takeLines (fetchLine s.csIn).lines (fetchLine s.csIn).rest
  cases hf : (fetchLine s.csIn).found with
  | idle => rw [State.stepLine_idle hf]; exact ht.setIdle true
  | error e => rw [State.stepLine_error hf]; exact (ht.logDiag e).setIdle false
  | command i => rw [State.stepLine_command hf]; exact (ht.runCommand i).setIdle false

theorem State.Inv.runStream (h : s.Inv) : s.runStream.Inv :=
  (State.runLines_keeps State.Inv (fun _ ht => ht.stepLine) _ _ s h).setStop none

theorem State.Inv.resetDecoder (h : s.Inv) : s.resetDecoder.Inv :=
  ⟨h.mem, h.strength, h.err, fun _ hr => (nomatch hr), List.Pairwise.nil⟩

theorem State.Inv.quantizeImg (h : s.Inv) : s.quantizeImg.Inv := h.setMem (s.quantized_within (h.mem .img))

theorem State.Inv.encodeImg (h : s.Inv) : s.encodeImg.Inv := h.appendOut _

/-- An operation is safe in both outcomes of its check (43_host_ops.md R166). -/
theorem State.Inv.guarded (h : s.Inv) (k : CheckKind) {act : State → State} (ha : ∀ u : State, u.Inv → (act u).Inv) :
    (s.guarded k act).Inv := by
  rcases State.guarded_cases k act s with ⟨e, -, hg⟩ | ⟨-, hg⟩
  · rw [hg]; exact h.raiseConfig e
  · rw [hg]; exact ha _ h.clearConfig

theorem State.Inv.exec (h : s.Inv) {i : Instr} (ht : exec i s = .next t) : t.Inv := by
  cases i with
  | quantize => cases ht; exact h.guarded _ fun _ hu => hu.quantizeImg
  | encode => cases ht; exact h.guarded _ fun _ hu => hu.encodeImg
  | decStep => cases ht; exact h.guarded _ fun _ hu => hu.stepLine
  | decRun => cases ht; exact h.guarded _ fun _ hu => hu.runStream
  | decReset => cases ht; exact h.guarded _ fun _ hu => hu.resetDecoder
  | _ => cases (exec_command rfl s).symm.trans ht; exact h.runCommand _

/-! ## The host's own accesses keep the state safe -/

/-- `STRENGTH` never exceeds 256 (10_state.md R21). -/
theorem saturateStrength_toNat (v : Word) : (saturateStrength v).toNat = min v.toNat 256 := by
  unfold saturateStrength
  split
  case isTrue hv => exact (Nat.min_eq_right (Nat.le_of_lt hv)).symm
  case isFalse hv => rw [BitVec.toNat_setWidth, Nat.mod_eq_of_lt (by omega), Nat.min_eq_left (by omega)]

theorem State.Inv.writeReg (h : s.Inv) (v : Word) (r : Reg) : (s.writeReg v r).Inv := by
  cases r with
  | strength => exact ⟨h.mem, by rw [State.writeReg, saturateStrength_toNat]; exact Nat.min_le_right _ _, h.err, h.log⟩
  | _ => exact ⟨h.mem, h.strength, h.err, h.log⟩

theorem State.Inv.readEffect (h : s.Inv) (r : Reg) : (s.readEffect r).Inv := by
  cases r <;> exact ⟨h.mem, h.strength, h.err, h.log⟩

/-- A window reaches no offset beyond its memory's capacity (20_memory.md R40). -/
theorem windowAt_lt_capacity {addr a : Nat} {k : MemId} (h : windowAt addr = .mem k a) : a < k.capacity := by
  obtain ⟨b1, b2, b3, c1, c2, c3⟩ := window_consts
  unfold windowAt MemId.holds at h
  simp only [Bool.and_eq_true, decide_eq_true_eq] at h
  repeat' split at h
  all_goals cases h
  all_goals omega

theorem State.Inv.writeWindow (h : s.Inv) (v : Byte) (addr : Nat) : (s.writeWindow v (windowAt addr)).Inv := by
  cases hw : windowAt addr with
  | mem k a => exact h.setMem (store_within (h.mem k) (windowAt_lt_capacity hw) v)
  | bayer a => exact h
  | hole => exact h

theorem State.Inv.hostWrite (h : s.Inv) {addr : Nat} {v : Word} (ht : s.hostWrite addr v = .next t) : t.Inv := by
  unfold State.hostWrite at ht
  split at ht
  · cases ht
  · split at ht <;> cases ht
    · exact h.writeReg v _
    · exact h.writeWindow _ addr

theorem State.Inv.hostRead (h : s.Inv) {addr : Nat} (ht : s.hostRead addr = .next t) : t.Inv := by
  unfold State.hostRead at ht
  split at ht
  · cases ht
  · split at ht <;> cases ht
    · exact (h.readEffect _).setHostData _
    · exact h.setHostData _

theorem State.reset_inv : State.reset.Inv where
  mem k := by cases k <;> exact ⟨List.Pairwise.nil, fun _ hc => (nomatch hc)⟩
  strength := by decide
  err := .inl ⟨rfl, rfl⟩
  log := ⟨fun _ hr => (nomatch hr), List.Pairwise.nil⟩

/-- A hardware reset makes any state safe: what it keeps is no part of the invariant (10_state.md R37). -/
theorem State.hardReset_inv (s : State) : s.hardReset.Inv :=
  ⟨State.reset_inv.mem, State.reset_inv.strength, State.reset_inv.err, State.reset_inv.log⟩

theorem State.Inv.hostAct (h : s.Inv) {a : HostAction} (ht : s.hostAct a = .next t) : t.Inv := by
  cases a with
  | write addr datum => exact h.hostWrite ht
  | read addr => exact h.hostRead ht
  | reset => cases ht; exact s.hardReset_inv
  | askStop n => cases ht; exact h.setStop _

/-! ## Hardware reset -/

/-- Right after a hardware reset, and where the machine starts: only the configuration, the host's side and the counters of
power-ons and of writes to `CS_IN_DATA` are not the table's (10_state.md R37, log 11). -/
theorem eq_reset_of_resets {q : List HostAction} (h : t = State.reset ∨ (s.hostQ = .reset :: q ∧ step s = .next t)) :
    t = { State.reset with
      cfg := t.cfg, hostQ := t.hostQ, hostData := t.hostData, powerOns := t.powerOns, csInWrites := t.csInWrites } := by
  rcases h with rfl | ⟨hq, ht⟩
  · rfl
  · cases (step_acts hq starts_reset).symm.trans ht
    rfl

theorem State.reset_status : State.reset.status.toNat = 0 := by decide

theorem State.reset_level : ∀ i, i < 16 → State.reset.level i = 17 * i := by decide

end

/-! ## The obligations -/

/-- Settles O58, by the host's next action: none, one that starts an operation, or one of the host's own. -/
theorem stepKeepsTheStateSafe : Obligations.StepKeepsTheStateSafe := by
  intro s t h ht
  cases hq : s.hostQ with
  | nil => cases (step_wait hq).symm.trans ht; exact h
  | cons a rest =>
    cases ha : a.starts with
    | some i => exact (h.setHostQ rest).exec ((step_starts hq ha).symm.trans ht)
    | none => exact (h.setHostQ rest).hostAct ((step_acts hq ha).symm.trans ht)

/-- Settles O59: no memory lists a byte, the log is empty, no error is taken and `STRENGTH` is 256. -/
theorem resetStateIsSafe : Obligations.ResetStateIsSafe := State.reset_inv

/-- Settles O60: every field the table names is that of `State.reset`. -/
theorem resetGivesTheTableValues : Obligations.ResetGivesTheTableValues := by
  intro s t q h
  rw [eq_reset_of_resets h]
  exact ⟨rfl, rfl, rfl, rfl, State.reset_level, rfl, rfl, rfl, rfl, rfl, State.reset_status,
    rfl, rfl, rfl, rfl, rfl, rfl, rfl, rfl, rfl⟩

end Sys2Proof.Machine
end

section
/-! PROOFS (O13 to O17). The register file: what a read and a write of each register do (10_state.md R14). -/

namespace Sys2Proof.Machine

section
variable {s : State} {q : List HostAction}

/-! ## Words -/

theorem satWord_toNat (n : Nat) : (satWord n).toNat = min n 4294967295 := by
  unfold satWord maxWord
  rw [BitVec.toNat_ofNat, Nat.mod_eq_of_lt (by omega)]

/-- A byte shown in a register (10_state.md R14). -/
theorem byte_setWidth_toNat (b : Byte) : (b.setWidth 32).toNat = b.toNat :=
  BitVec.toNat_setWidth_of_le (by decide)

/-- The low bits of a word kept in a field and shown in a register (10_state.md R14). -/
theorem field_toNat (v : Word) {w : Nat} (hw : w ≤ 32) : ((v.setWidth w).setWidth 32).toNat = v.toNat % 2 ^ w := by
  rw [BitVec.toNat_setWidth_of_le hw, BitVec.toNat_setWidth]

/-! ## Read-write registers -/

/-- The offset of a read-write register (10_state.md R14); 0 stands for every other register. -/
def Reg.address : Reg → Nat
  | .panelW => 0x10
  | .panelH => 0x14
  | .tileSize => 0x18
  | .levelCount => 0x1C
  | .mode => 0x20
  | .contrast => 0x24
  | .strength => 0x28
  | .grayStep => 0x2C
  | .delayMs => 0x30
  | .level i => 0x40 + 4 * i
  | .diagIndex => 0xD0
  | _ => 0

/-- The read-write offsets are those of the read-write registers (10_state.md R14). -/
theorem regAt_readWrite {o : Nat} (h : readWriteOffset o) : (regAt o).isReadWrite = true ∧ (regAt o).address = o := by
  obtain ⟨h4, hlow | htable | rfl⟩ := h
  · have hregs : ∀ o, o < 0x34 → o % 4 = 0 → 0x10 ≤ o → (regAt o).isReadWrite = true ∧ (regAt o).address = o := by
      decide
    exact hregs o (by omega) h4 hlow.1
  · obtain ⟨i, rfl⟩ : ∃ i, o = 0x40 + 4 * i := ⟨(o - 0x40) / 4, by omega⟩
    have hi : i < 16 := by omega
    rw [regAt_level hi]
    exact ⟨decide_eq_true hi, rfl⟩
  · exact ⟨rfl, rfl⟩

/-- Different read-write offsets are different registers (10_state.md R14). -/
theorem regAt_inj {o o' : Nat} (h : readWriteOffset o) (h' : readWriteOffset o') (he : regAt o = regAt o') : o = o' := by
  rw [← (regAt_readWrite h).2, ← (regAt_readWrite h').2, he]

/-- What a read-write register reads after a write: the low bits its field holds (10_state.md R14, R21). -/
theorem State.regValue_writeReg_same (s : State) (v : Word) {r : Reg} (hr : r.isReadWrite = true) :
    ((s.writeReg v r).regValue r).toNat = readBackValue r.address v.toNat := by
  cases r with
  | panelW | panelH | tileSize | mode | grayStep => exact field_toNat v (w := 8) (by decide)
  | levelCount => exact field_toNat v (w := 5) (by decide)
  | contrast => exact field_toNat v (w := 16) (by decide)
  | strength =>
    show ((saturateStrength v).setWidth 32).toNat = min v.toNat 256
    rw [BitVec.toNat_setWidth_of_le (by decide), saturateStrength_toNat]
  | delayMs | diagIndex => rfl
  | level i =>
    have hi : i < 16 := of_decide_eq_true hr
    have haddr : readBackValue (0x40 + 4 * i) v.toNat = v.toNat % 2 ^ 8 := by
      unfold readBackValue
      rw [if_neg (by omega), if_neg (by omega), if_neg (by omega), if_neg (by omega)]
    show (BitVec.ofNat 32 (State.level { s with levels := s.levels.setIfInBounds i (v.setWidth 8) } i)).toNat =
      readBackValue (0x40 + 4 * i) v.toNat
    rw [haddr, s.level_set hi, if_pos rfl, BitVec.toNat_ofNat, BitVec.toNat_setWidth]
    exact Nat.mod_eq_of_lt (by omega)
  | _ => exact Bool.noConfusion hr

theorem regAt_ne_csOutData {o : Nat} (h : readWriteOffset o) : regAt o ≠ .csOutData := by
  intro he
  have hrw := (regAt_readWrite h).1
  rw [he] at hrw
  cases hrw

/-- A write at a read-write offset: its register reads back the field written, every other read-write register reads as before,
and nothing else changes (10_state.md R14). -/
theorem step_writeReadWrite {o : Nat} {v : Word} (ho : readWriteOffset o) (h : s.hostQ = .write o v :: q) :
    ∃ t, step s = .next t ∧
      t = { s with
        panelW := t.panelW, panelH := t.panelH, tileSize := t.tileSize, levelCount := t.levelCount, mode := t.mode,
        contrast := t.contrast, strength := t.strength, grayStep := t.grayStep, delayMs := t.delayMs, levels := t.levels,
        diagIndex := t.diagIndex, hostQ := q } ∧
      (t.regValue (regAt o)).toNat = readBackValue o v.toNat ∧
      ∀ o', readWriteOffset o' → o' ≠ o → t.regValue (regAt o') = s.regValue (regAt o') := by
  obtain ⟨hrw, haddr⟩ := regAt_readWrite ho
  refine ⟨_, step_writeReg (by omega) ho.1 (by omega) h, (s.setHostQ q).writeReg_frame v hrw, ?_, fun o' ho' hne => ?_⟩
  · rw [State.regValue_writeReg_same _ _ hrw, haddr]
  · exact State.regValue_writeReg_ne _ _ (fun he => hne (regAt_inj ho' ho he)) hrw (regAt_readWrite ho').1

/-! ## Reads without a side effect -/

/-- A read of a register other than `CS_OUT_DATA` changes the word the host read and nothing else (20_memory.md R50). -/
theorem step_readReg_pure {o : Nat} {r : Reg} (ho : o < 256) (h4 : o % 4 = 0) (hr : regAt o = r) (hne : r ≠ .csOutData)
    (h : s.hostQ = .read o :: q) : step s = .next { s with hostQ := q, hostData := s.regValue r } := by
  rw [step_readReg ho h4 h, hr]
  cases r with
  | csOutData => exact absurd rfl hne
  | _ => rfl

/-- The same, in the form the statements give it: the word read is named by the next state. -/
theorem step_readReg_toNat {o n : Nat} {r : Reg} (ho : o < 256) (h4 : o % 4 = 0) (hr : regAt o = r) (hne : r ≠ .csOutData)
    (hn : (s.regValue r).toNat = n) (h : s.hostQ = .read o :: q) :
    ∃ t, step s = .next t ∧ t = { s with hostQ := q, hostData := t.hostData } ∧ t.hostData.toNat = n :=
  ⟨_, step_readReg_pure ho h4 hr hne h, rfl, hn⟩

/-! ## `STATUS` (10_state.md R13) -/

theorem State.diagCount_eq_zero (s : State) : s.diagCount = 0 ↔ s.diag = [] := by
  have hz : s.diagCount = 0 ↔ s.diagCount.toNat = 0 :=
    ⟨fun h => by rw [h]; rfl, fun h => BitVec.eq_of_toNat_eq h⟩
  rw [hz, State.diagCount, satWord_toNat, ← List.length_eq_zero_iff]
  omega

/-- `STATUS` from its three flags (10_state.md R13); `empty` says that the log is empty. -/
def statusWord (cfgErr decIdle empty : Bool) : Word :=
  (if cfgErr then 1 else 0) ||| (if decIdle then 4 else 0) ||| (if empty then 0 else 8)

theorem State.status_eq (s : State) : s.status = statusWord s.cfgErr s.decIdle (decide (s.diag = [])) := by
  simp only [State.status, statusWord, State.diagCount_eq_zero, decide_eq_true_eq]

theorem statusWord_bits :
    ∀ cfgErr decIdle empty : Bool,
      (statusWord cfgErr decIdle empty).getLsbD 0 = cfgErr ∧ (statusWord cfgErr decIdle empty).getLsbD 1 = false ∧
        (statusWord cfgErr decIdle empty).getLsbD 2 = decIdle ∧ (statusWord cfgErr decIdle empty).getLsbD 3 = !empty ∧
        (statusWord cfgErr decIdle empty).toNat < 2 ^ 4 := by decide

/-- No bit of a word stands at or above a power of two that exceeds it. -/
theorem getLsbD_of_lt_two_pow {w : Word} {k n : Nat} (h : w.toNat < 2 ^ k) (hn : k ≤ n) : w.getLsbD n = false :=
  Nat.testBit_lt_two_pow (Nat.lt_of_lt_of_le h (Nat.pow_le_pow_right (by decide) hn))

/-! ## The log (10_state.md R29) -/

theorem DiagRecord.pack_toNat (r : DiagRecord) : r.pack.toNat = (r.line.toNat % 16777216) * 256 + r.code.toNat := by
  have := r.code.isLt
  unfold DiagRecord.pack
  rw [BitVec.toNat_ofNat]
  omega

/-- `DIAG_INDEX` is below `DIAG_COUNT` and the log has that record. -/
theorem State.diagEntry_of_record {r : DiagRecord} (hmax : s.diagIndex.toNat < 4294967295)
    (hr : s.diag[s.diagIndex.toNat]? = some r) : s.diagEntry = r.pack := by
  have hlen : s.diagIndex.toNat < s.diag.length := (List.getElem?_eq_some_iff.1 hr).1
  unfold State.diagEntry State.diagCount
  rw [satWord_toNat, if_neg (by omega), hr]

theorem State.diagEntry_of_no_record (h : min s.diag.length 4294967295 ≤ s.diagIndex.toNat) : s.diagEntry = 0 := by
  unfold State.diagEntry State.diagCount
  rw [satWord_toNat, if_pos h]

/-! ## The queues (10_state.md R34, R35) -/

/-- A read of `CS_OUT_DATA` returns the head, 0 where there is none, and removes it. -/
theorem step_readCsOutData (h : s.hostQ = .read 0xC0 :: q) :
    step s = .next { s with hostQ := q, csOut := s.csOut.tail, hostData := (s.csOut.headD 0).setWidth 32 } :=
  step_readReg (by decide) (by decide) h

theorem State.csInLevel_toNat (h : s.csIn.length ≤ 4294967295) : s.csInLevel.toNat = s.csIn.length := by
  unfold State.csInLevel maxWord
  rw [if_pos h, BitVec.toNat_ofNat, Nat.mod_eq_of_lt (by omega)]

/-! ## Thresholds (10_state.md R26) -/

theorem State.threshView_lt (s : State) (i : Nat) : s.threshView i < 256 := by
  have := s.level_lt i
  have := s.level_lt (i + 1)
  unfold State.threshView State.threshold
  split <;> omega

end

/-! ## The obligations -/

/-- Settles O13: the read finds the word the write left in the field, and changes only what the host has read. -/
theorem registerWriteReadsBack : Obligations.RegisterWriteReadsBack := by
  intro s o v q ho hq
  obtain ⟨t, hstep, hframe, hsame, hothers⟩ := step_writeReadWrite ho hq
  have hq' : t.hostQ = .read o :: q := by rw [hframe]
  refine ⟨t, _, hstep, step_readReg_pure (by omega) ho.1 rfl (regAt_ne_csOutData ho) hq', hsame, hothers, ?_⟩
  generalize t.regValue (regAt o) = w
  rw [hframe]

/-- Settles O14: a threshold is a byte, so the word holds it whole. -/
theorem threshReadsTheThreshold : Obligations.ThreshReadsTheThreshold := by
  intro s i q hi
  refine ⟨step_readReg_toNat (by omega) (by omega) (regAt_thresh hi) (by simp) ?_, fun v hq => ?_⟩
  · show (BitVec.ofNat 32 (s.threshView i)).toNat = s.threshView i
    rw [BitVec.toNat_ofNat, Nat.mod_eq_of_lt (Nat.lt_trans (s.threshView_lt i) (by decide))]
  · rw [step_writeReg (by omega) (by omega) (by omega) hq, regAt_thresh hi]
    rfl

/-- Settles O15: each register by its read; `STATUS` bit by bit. -/
theorem statusReadsTheFlags : Obligations.StatusReadsTheFlags := by
  intro s q
  refine ⟨fun hq => ⟨_, step_readReg_pure (by decide) (by decide) rfl (by decide) hq, rfl, ?_⟩,
    step_readReg_pure (by decide) (by decide) rfl (by decide), step_readReg_pure (by decide) (by decide) rfl (by decide),
    step_readReg_toNat (by decide) (by decide) rfl (by decide) (byte_setWidth_toNat _),
    step_readReg_pure (by decide) (by decide) rfl (by decide)⟩
  show s.status.getLsbD 0 = _ ∧ s.status.getLsbD 1 = _ ∧ s.status.getLsbD 2 = _ ∧ (s.status.getLsbD 3 = true ↔ _) ∧
    ∀ n, 4 ≤ n → s.status.getLsbD n = false
  obtain ⟨h0, h1, h2, h3, hlt⟩ := statusWord_bits s.cfgErr s.decIdle (decide (s.diag = []))
  rw [State.status_eq]
  exact ⟨h0, h1, h2, by rw [h3]; simp, fun n hn => getLsbD_of_lt_two_pow hlt hn⟩

/-- Settles O16: the three views of the log, each at its register. -/
theorem diagRegistersReadTheLog : Obligations.DiagRegistersReadTheLog := by
  intro s q
  refine ⟨step_readReg_toNat (by decide) (by decide) rfl (by decide) (satWord_toNat _), fun log r hlog => ?_, fun hnil hq => ?_,
    fun r hmax hr => ?_, fun hge hq => ?_⟩
  · have hlast : s.diagLast = r.pack := by rw [State.diagLast, hlog, List.getLast?_concat]
    exact step_readReg_toNat (r := .diagLast) (by decide) (by decide) rfl (by decide)
      ((congrArg BitVec.toNat hlast).trans r.pack_toNat)
  · have hlast : s.diagLast = 0 := by rw [State.diagLast, hnil]; rfl
    rw [step_readReg_pure (r := .diagLast) (by decide) (by decide) rfl (by decide) hq, State.regValue, hlast]
  · exact step_readReg_toNat (r := .diagEntry) (by decide) (by decide) rfl (by decide)
      ((congrArg BitVec.toNat (State.diagEntry_of_record hmax hr)).trans r.pack_toNat)
  · rw [step_readReg_pure (r := .diagEntry) (by decide) (by decide) rfl (by decide) hq, State.regValue,
      State.diagEntry_of_no_record hge]

/-- Settles O17: each of the four registers at its offset. -/
theorem queueRegistersPopAndPush : Obligations.QueueRegistersPopAndPush := by
  intro s q
  refine ⟨fun b rest hout hq => ?_, fun hout hq => ?_, fun v hq => ?_,
    step_readReg_toNat (by decide) (by decide) rfl (by decide) (satWord_toNat _),
    fun hlen => step_readReg_toNat (by decide) (by decide) rfl (by decide) (State.csInLevel_toNat hlen)⟩
  · rw [step_readCsOutData hq, hout]
    exact ⟨_, rfl, rfl, byte_setWidth_toNat b⟩
  · rw [step_readCsOutData hq]
    simp [hout]
  · exact ⟨_, step_writeReg (by decide) (by decide) (by decide) hq, rfl⟩

end Sys2Proof.Machine
end

section
/-! PROOFS (O54). Who writes what: for each instruction the fields it may write (10_state.md R38). -/

namespace Sys2Proof.Machine

section
variable (s : State)

/-! ## The operations, both outcomes of the check -/

/-- A command draws or logs. -/
theorem exec_command_writes {i : Instr} (h : i.isCommand = true) :
    ∃ fb ps diag, exec i s = .next { s with fb := fb, ps := ps, diag := diag } :=
  ⟨_, _, _, (exec_command h s).trans (congrArg Host.Outcome.next (s.runCommand_frame i))⟩

/-- `QUANTIZE` writes the image and the error of its check. -/
theorem exec_quantize_writes :
    ∃ img cfgErr errCode, exec .quantize s = .next { s with img := img, cfgErr := cfgErr, errCode := errCode } := by
  rcases State.guarded_cases .full State.quantizeImg s with ⟨e, -, hg⟩ | ⟨-, hg⟩
  · exact ⟨_, _, _, congrArg Host.Outcome.next hg⟩
  · exact ⟨_, _, _, congrArg Host.Outcome.next hg⟩

/-- `ENCODE` writes the output queue and the error of its check. -/
theorem exec_encode_writes :
    ∃ csOut cfgErr errCode, exec .encode s = .next { s with csOut := csOut, cfgErr := cfgErr, errCode := errCode } := by
  rcases State.guarded_cases .full State.encodeImg s with ⟨e, -, hg⟩ | ⟨-, hg⟩
  · exact ⟨_, _, _, congrArg Host.Outcome.next hg⟩
  · exact ⟨_, _, _, congrArg Host.Outcome.next hg⟩

/-- `DEC_STEP` writes the decoder's state and the error of its check. -/
theorem exec_decStep_writes :
    ∃ csIn lineNo diag fb ps decIdle cfgErr errCode, exec .decStep s = .next { s with
      csIn := csIn, lineNo := lineNo, diag := diag, fb := fb, ps := ps, decIdle := decIdle, cfgErr := cfgErr,
      errCode := errCode } := by
  rcases State.guarded_cases .dims State.stepLine s with ⟨e, -, hg⟩ | ⟨-, hg⟩
  · exact ⟨_, _, _, _, _, _, _, _, congrArg Host.Outcome.next hg⟩
  · exact ⟨_, _, _, _, _, _, _, _, congrArg Host.Outcome.next (hg.trans (State.stepLine_frame _))⟩

/-- `DEC_RUN` writes the decoder's state and the error of its check, and uses up the stop request where the check passes
(log 5). -/
theorem exec_decRun_writes :
    ∃ csIn lineNo diag fb ps decIdle cfgErr errCode stopAfter, exec .decRun s = .next { s with
      csIn := csIn, lineNo := lineNo, diag := diag, fb := fb, ps := ps, decIdle := decIdle, cfgErr := cfgErr,
      errCode := errCode, stopAfter := stopAfter } ∧
      (s.DimsOk → stopAfter = none) ∧ (¬ s.DimsOk → stopAfter = s.stopAfter) := by
  rcases State.guarded_cases .dims State.runStream s with ⟨e, hc, hg⟩ | ⟨hc, hg⟩
  · have hbad : ¬ s.DimsOk := fun hd => nomatch (s.checkConfig_dims_none.2 hd).symm.trans hc
    exact ⟨_, _, _, _, _, _, _, _, _, congrArg Host.Outcome.next hg, fun hd => absurd hd hbad, fun _ => rfl⟩
  · have hrun := congrArg (State.setStop none) (s.clearConfig.runLines_frame (s.csIn.length + 1) s.stopAfter)
    exact ⟨_, _, _, _, _, _, _, _, _, congrArg Host.Outcome.next (hg.trans hrun), fun _ => rfl,
      fun hbad => absurd (s.checkConfig_dims_none.1 hc) hbad⟩

/-- `DEC_RESET` writes the queue, the position, the log, its index, `DEC_IDLE` and the error of its check. -/
theorem exec_decReset_writes :
    ∃ csIn lineNo diag diagIndex decIdle cfgErr errCode, exec .decReset s = .next { s with
      csIn := csIn, lineNo := lineNo, diag := diag, diagIndex := diagIndex, decIdle := decIdle, cfgErr := cfgErr,
      errCode := errCode } := by
  rcases State.guarded_cases .dims State.resetDecoder s with ⟨e, -, hg⟩ | ⟨-, hg⟩
  · exact ⟨_, _, _, _, _, _, _, congrArg Host.Outcome.next hg⟩
  · exact ⟨_, _, _, _, _, _, _, congrArg Host.Outcome.next hg⟩

end

/-! ## The obligation -/

/-- Settles O54, instruction by instruction: no field a clause speaks of is among those the instruction writes. -/
theorem instructionsWriteOnlyTheirOwnState : Obligations.InstructionsWriteOnlyTheirOwnState := by
  intro i s
  have hcommand := exec_command_writes s (i := i)
  cases i with
  | quantize =>
    obtain ⟨img, cfgErr, errCode, h⟩ := exec_quantize_writes s
    exact ⟨_, h, by simp⟩
  | encode =>
    obtain ⟨csOut, cfgErr, errCode, h⟩ := exec_encode_writes s
    exact ⟨_, h, by simp⟩
  | decStep =>
    obtain ⟨csIn, lineNo, diag, fb, ps, decIdle, cfgErr, errCode, h⟩ := exec_decStep_writes s
    exact ⟨_, h, by simp⟩
  | decRun =>
    obtain ⟨csIn, lineNo, diag, fb, ps, decIdle, cfgErr, errCode, stopAfter, h, hpass, hfail⟩ := exec_decRun_writes s
    refine ⟨_, h, ?_⟩
    simpa using ⟨hfail, hpass⟩
  | decReset =>
    obtain ⟨csIn, lineNo, diag, diagIndex, decIdle, cfgErr, errCode, h⟩ := exec_decReset_writes s
    exact ⟨_, h, by simp⟩
  | _ =>
    obtain ⟨fb, ps, diag, h⟩ := hcommand rfl
    exact ⟨_, h, by simp⟩

end Sys2Proof.Machine
end

section
/-! PROOFS (O55). An encoder operation and a decoder operation work on separate parts of the state (20_memory.md R52). -/

namespace Sys2Proof.Machine

/-! ## The two parts of the state (10_state.md R38) -/

/-- `s` with what an encoder operation writes past its check taken from `e`. -/
def State.withEncoderPart (s e : State) : State := { s with img := e.img, csOut := e.csOut }

/-- `s` with what a decoder operation writes past its check taken from `d`; the stop request is among it (log 5). -/
def State.withDecoderPart (s d : State) : State :=
  { s with
    csIn := d.csIn, lineNo := d.lineNo, diag := d.diag, diagIndex := d.diagIndex, fb := d.fb, ps := d.ps,
    decIdle := d.decIdle, stopAfter := d.stopAfter }

/-- An effect that writes the encoder's part only and does not see the decoder's. -/
structure IsEncoderEffect (act : State → State) : Prop where
  frame : ∀ s, act s = s.withEncoderPart (act s)
  blind : ∀ s d, act (s.withDecoderPart d) = (act s).withDecoderPart d

/-- An effect that writes the decoder's part only and does not see the encoder's. -/
structure IsDecoderEffect (act : State → State) : Prop where
  frame : ∀ s, act s = s.withDecoderPart (act s)
  blind : ∀ s e, act (s.withEncoderPart e) = (act s).withEncoderPart e

/-! ## Effects on separate parts commute -/

section
variable {enc dec : State → State}

theorem IsEncoderEffect.commute (he : IsEncoderEffect enc) (hd : IsDecoderEffect dec) (s : State) :
    dec (enc s) = enc (dec s) :=
  calc dec (enc s) = dec (s.withEncoderPart (enc s)) := by rw [← he.frame]
    _ = (dec s).withEncoderPart (enc s) := hd.blind _ _
    _ = (s.withDecoderPart (dec s)).withEncoderPart (enc s) := by rw [← hd.frame]
    _ = (s.withEncoderPart (enc s)).withDecoderPart (dec s) := rfl
    _ = (enc s).withDecoderPart (dec s) := by rw [← he.frame]
    _ = enc (s.withDecoderPart (dec s)) := (he.blind _ _).symm
    _ = enc (dec s) := by rw [← hd.frame]

/-- The configuration is no part of what an encoder operation writes. -/
theorem IsEncoderEffect.dimsOk (he : IsEncoderEffect enc) {s : State} (h : s.DimsOk) : (enc s).DimsOk := by
  rw [he.frame]; exact h

/-- The configuration is no part of what a decoder operation writes. -/
theorem IsDecoderEffect.configOk (hd : IsDecoderEffect dec) {s : State} (h : s.ConfigOk) : (dec s).ConfigOk := by
  rw [hd.frame]; exact ⟨h.dims, h.tile, h.count, h.sorted, h.mode⟩

/-- The error the first operation's check cleared is still clear at the second's. -/
theorem IsEncoderEffect.clearConfig_idem (he : IsEncoderEffect enc) (s : State) :
    (enc s.clearConfig).clearConfig = enc s.clearConfig := by
  rw [he.frame]; rfl

theorem IsDecoderEffect.clearConfig_idem (hd : IsDecoderEffect dec) (s : State) :
    (dec s.clearConfig).clearConfig = dec s.clearConfig := by
  rw [hd.frame]; rfl

/-- Two operations whose checks pass, one of the encoder and one of the decoder, commute. -/
theorem guarded_commute (he : IsEncoderEffect enc) (hd : IsDecoderEffect dec) {s : State} (h : s.ConfigOk) :
    (s.guarded .full enc).guarded .dims dec = (s.guarded .dims dec).guarded .full enc := by
  have hc : s.clearConfig.ConfigOk := ⟨h.dims, h.tile, h.count, h.sorted, h.mode⟩
  rw [State.guarded_pass (s.checkConfig_full_none.2 h), State.guarded_pass (s.checkConfig_dims_none.2 h.dims),
    State.guarded_pass ((State.checkConfig_dims_none _).2 (he.dimsOk hc.dims)),
    State.guarded_pass ((State.checkConfig_full_none _).2 (hd.configOk hc)),
    he.clearConfig_idem, hd.clearConfig_idem, he.commute hd]

end

/-! ## The encoder operations -/

theorem isEncoderEffect_quantizeImg : IsEncoderEffect State.quantizeImg where
  frame _ := rfl
  blind _ _ := rfl

theorem isEncoderEffect_encodeImg : IsEncoderEffect State.encodeImg where
  frame _ := rfl
  blind _ _ := rfl

/-! ## The decoder operations -/

theorem State.drawTile_withEncoderPart (s e : State) (x y w h : Byte) (payload : List Byte) :
    (s.withEncoderPart e).drawTile x y w h payload = (s.drawTile x y w h payload).withEncoderPart e := by
  unfold State.drawTile
  rw [apply_ite (State.withEncoderPart · e)]
  rfl

theorem State.drawRect_withEncoderPart (s e : State) (x1 y1 x2 y2 color : Byte) :
    (s.withEncoderPart e).drawRect x1 y1 x2 y2 color = (s.drawRect x1 y1 x2 y2 color).withEncoderPart e := by
  unfold State.drawRect
  rw [apply_ite (State.withEncoderPart · e)]
  rfl

theorem State.runCommand_withEncoderPart (s e : State) (i : Instr) :
    (s.withEncoderPart e).runCommand i = (s.runCommand i).withEncoderPart e := by
  cases i with
  | tile x y _ _ w h payload => exact s.drawTile_withEncoderPart e x y w h payload
  | rect x1 y1 x2 y2 color => exact s.drawRect_withEncoderPart e x1 y1 x2 y2 color
  | _ => rfl

theorem State.stepLine_withEncoderPart (s e : State) :
    (s.withEncoderPart e).stepLine = s.stepLine.withEncoderPart e := by
  cases hf : (fetchLine s.csIn).found with
  | idle => rw [State.stepLine_idle hf, State.stepLine_idle (s := s.withEncoderPart e) hf]; rfl
  | error err => rw [State.stepLine_error hf, State.stepLine_error (s := s.withEncoderPart e) hf]; rfl
  | command i =>
    rw [State.stepLine_command hf, State.stepLine_command (s := s.withEncoderPart e) hf]
    exact congrArg (State.setIdle false) (State.runCommand_withEncoderPart (s.takeLines _ _) e i)

theorem isDecoderEffect_stepLine : IsDecoderEffect State.stepLine where
  frame s := by
    have h := s.stepLine_frame
    generalize s.stepLine = u at h ⊢
    rw [h]; rfl
  blind := State.stepLine_withEncoderPart

theorem State.runLines_withEncoderPart (fuel : Nat) (stop : Option Nat) (s e : State) :
    (s.withEncoderPart e).runLines fuel stop = (s.runLines fuel stop).withEncoderPart e := by
  induction fuel generalizing stop s with
  | zero => rfl
  | succ fuel ih =>
    unfold State.runLines
    rw [State.stepLine_withEncoderPart]
    by_cases hidle : s.stepLine.decIdle = true
    · rw [if_pos hidle]; exact if_pos hidle
    · rw [if_neg hidle]
      refine (if_neg hidle).trans ?_
      cases stop with
      | none => exact ih none s.stepLine
      | some n =>
        by_cases hn : n ≤ 1
        · simp only [if_pos hn]
        · simp only [if_neg hn]; exact ih _ s.stepLine

theorem isDecoderEffect_runStream : IsDecoderEffect State.runStream where
  frame s := by
    unfold State.runStream
    rw [s.runLines_frame]; rfl
  blind s e := congrArg (State.setStop none) (s.runLines_withEncoderPart _ _ e)

theorem isDecoderEffect_resetDecoder : IsDecoderEffect State.resetDecoder where
  frame _ := rfl
  blind _ _ := rfl

/-! ## The operations as `exec` runs them -/

/-- `exec` of an encoder operation is an encoder effect behind the full check (43_host_ops.md R166). -/
theorem exec_encoder {i : Instr} (h : i = .quantize ∨ i = .encode) :
    ∃ enc, IsEncoderEffect enc ∧ ∀ s, exec i s = .next (s.guarded .full enc) := by
  rcases h with rfl | rfl
  · exact ⟨_, isEncoderEffect_quantizeImg, fun _ => rfl⟩
  · exact ⟨_, isEncoderEffect_encodeImg, fun _ => rfl⟩

/-- `exec` of a decoder operation is a decoder effect behind the check of the dimensions (43_host_ops.md R166). -/
theorem exec_decoder {j : Instr} (h : j = .decStep ∨ j = .decRun ∨ j = .decReset) :
    ∃ dec, IsDecoderEffect dec ∧ ∀ s, exec j s = .next (s.guarded .dims dec) := by
  rcases h with rfl | rfl | rfl
  · exact ⟨_, isDecoderEffect_stepLine, fun _ => rfl⟩
  · exact ⟨_, isDecoderEffect_runStream, fun _ => rfl⟩
  · exact ⟨_, isDecoderEffect_resetDecoder, fun _ => rfl⟩

/-! ## The obligation -/

/-- Settles O55: the operations' effects are on separate parts of the state, and neither undoes what the other's check needs. -/
theorem encoderAndDecoderOperationsCommute : Obligations.EncoderAndDecoderOperationsCommute := by
  intro s i j hs hi hj
  obtain ⟨enc, he, hexec⟩ := exec_encoder hi
  obtain ⟨dec, hd, hexec'⟩ := exec_decoder hj
  refine ⟨_, _, _, hexec s, hexec' _, hexec' s, ?_⟩
  rw [hexec, guarded_commute he hd hs]

end Sys2Proof.Machine
end

section
/-! PROOFS (O10). The rotation mapping, from pixel to bit and back (20_memory.md R44, R48). -/

namespace Sys2Proof.Machine

section
variable {s : State}

/-- `unrotate` undoes the rotation (20_memory.md R48). -/
theorem State.unrotate_rotatedRow {x : Nat} (hx : x < s.width) (y : Nat) : s.unrotate y (s.rotatedRow x) = (x, y) := by
  unfold State.unrotate State.rotatedRow
  rw [show s.width - 1 - (s.width - 1 - x) = x by omega]

/-- The rotation undoes `unrotate` (20_memory.md R48). -/
theorem State.rotatedRow_unrotate {row : Nat} (hrow : row < s.width) (col : Nat) :
    s.rotatedRow (s.unrotate col row).1 = row := by
  unfold State.unrotate State.rotatedRow
  dsimp only
  omega

theorem State.onPanel_unrotate {row col : Nat} (hrow : row < s.width) (hcol : col < s.height) :
    s.OnPanel (s.unrotate col row).1 (s.unrotate col row).2 := by
  unfold State.unrotate
  exact ⟨by dsimp only; omega, hcol⟩

/-- Equal masks are the same place in a byte (20_memory.md R44). -/
theorem bitMask_inj {y y' : Nat} (h : bitMask y = bitMask y') : y % 8 = y' % 8 := by
  have hbit : (bitMask y').getLsbD (7 - y % 8) = true := by rw [← h, bitMask_bit, decide_eq_true rfl]
  rw [bitMask_bit, decide_eq_true_eq] at hbit
  omega

/-- No two pixels of the panel share a bit (20_memory.md R48). -/
theorem State.pixel_eq_of_bit_eq {x y x' y' : Nat} (h : s.OnPanel x y) (h' : s.OnPanel x' y')
    (hbyte : s.byteIndex x y = s.byteIndex x' y') (hmask : bitMask y = bitMask y') : x = x' ∧ y = y' := by
  obtain ⟨hx, hdiv⟩ := State.byteIndex_inj h h' hbyte
  have hmod := bitMask_inj hmask
  exact ⟨hx, by omega⟩

end

/-- Settles O10: each of the two maps undoes the other, and a byte and a mask determine the pixel. -/
theorem rotationMappingIsBijective : Obligations.RotationMappingIsBijective := by
  refine fun s => ⟨fun x y hp => ?_, fun row col hrow hcol => ?_⟩
  · have hrow : s.rotatedRow x < s.width := by have := hp.1; unfold State.rotatedRow; omega
    exact ⟨State.unrotate_rotatedRow hp.1 y, hrow, State.byteCol_lt hp.2, State.byteIndex_lt hp,
      fun x' y' hp' => State.pixel_eq_of_bit_eq hp' hp⟩
  · refine ⟨State.onPanel_unrotate hrow hcol, ?_, rfl⟩
    rw [State.byteIndex, State.rotatedRow_unrotate hrow]
    rfl

end Sys2Proof.Machine
end

section
/-! PROOFS (O11, O12, O57). The host's accesses: the memory windows, the accesses that reach nothing, the one that stops a step
(20_memory.md R40, R41, R49, 10_state.md R14). -/

namespace Sys2Proof.Machine

section
variable {s : State} {q : List HostAction}

/-! ## The memory windows -/

/-- Every window lies above the register space (20_memory.md R40). -/
theorem regSpace_le_base (k : MemId) : 0x100 ≤ k.base := by
  cases k <;> decide

/-- The bytes of the three memories after a write of one. -/
theorem State.readMem_store (s : State) (k : MemId) (a : Nat) (v : Byte) (j : MemId) (b : Nat) :
    (s.setMem k ((s.mem k).store a v)).readMem j b = if j = k ∧ b = a then v else s.readMem j b := by
  by_cases hj : j = k
  · subst hj
    rw [State.readMem_setMem_same, read_store, if_congr (and_iff_right rfl) rfl rfl]
    rfl
  · rw [State.readMem_setMem_other _ _ _ _ _ hj, if_neg (fun h => hj h.1)]

/-- Replacing one memory changes the memories and nothing else. -/
theorem State.setMem_frame (s : State) (k : MemId) (m : Memory) :
    s.setMem k m = { s with img := (s.setMem k m).img, fb := (s.setMem k m).fb, ps := (s.setMem k m).ps } := by
  cases k <;> rfl

/-- A byte written in a memory's window is that memory's byte; every other byte and every other field is as before (20_memory.md
R40). -/
theorem step_writeMem {k : MemId} {a : Nat} {v : Word} (ha : a < k.capacity) (h : s.hostQ = .write (k.base + a) v :: q) :
    ∃ t, step s = .next t ∧
      (∀ j b, t.readMem j b = if j = k ∧ b = a then v.setWidth 8 else s.readMem j b) ∧
      t = { s with hostQ := q, img := t.img, fb := t.fb, ps := t.ps } := by
  refine ⟨_, ?_, (s.setHostQ q).readMem_store k a (v.setWidth 8), (s.setHostQ q).setMem_frame k _⟩
  rw [step_writeWindow (Nat.le_add_right_of_le (regSpace_le_base k)) h, windowAt_mem k a ha]
  rfl

theorem step_readMem {k : MemId} {a : Nat} (ha : a < k.capacity) (h : s.hostQ = .read (k.base + a) :: q) :
    step s = .next { s with hostQ := q, hostData := (s.readMem k a).setWidth 32 } := by
  rw [step_readWindow (Nat.le_add_right_of_le (regSpace_le_base k)) h, windowAt_mem k a ha]
  rfl

/-! ## Accesses that reach nothing -/

/-- A write of `BAYER` or outside every window does nothing (20_memory.md R40). -/
theorem step_writeNoMem {addr : Nat} {v : Word} (ha : 0x100 ≤ addr) (hw : ∀ k a, windowAt addr ≠ .mem k a)
    (h : s.hostQ = .write addr v :: q) : step s = .next { s with hostQ := q } := by
  rw [step_writeWindow ha h]
  cases hwin : windowAt addr with
  | mem k a => exact absurd hwin (hw k a)
  | bayer a => rfl
  | hole => rfl

/-- The registers whose write is ignored: the read-only ones and the unlisted offsets (10_state.md R14). -/
def Reg.ignoresWrites : Reg → Bool
  | .id | .status | .errCode | .diagCount | .lineNo | .diagLast | .thresh _ | .csOutData | .csOutLevel | .csInLevel
  | .diagEntry | .unlisted => true
  | .ctrl | .panelW | .panelH | .tileSize | .levelCount | .mode | .contrast | .strength | .grayStep | .delayMs | .level _
  | .csInData | .diagIndex => false

theorem State.writeReg_ignored (s : State) (v : Word) {r : Reg} (hr : r.ignoresWrites = true) : s.writeReg v r = s := by
  cases r <;> first | rfl | cases hr

/-- The unlisted offsets are those of no register (10_state.md R14). -/
theorem regAt_unlisted {o : Nat} (h : unlistedOffset o) : regAt o = .unlisted := by
  obtain ⟨h4, rfl | ⟨hlo, hhi⟩⟩ := h
  · rfl
  · have hregs : ∀ i, i < 10 → regAt (0xD8 + 4 * i) = .unlisted := by decide
    obtain ⟨i, rfl⟩ : ∃ i, o = 0xD8 + 4 * i := ⟨(o - 0xD8) / 4, by omega⟩
    exact hregs i (by omega)

/-- The read-only offsets are those of registers whose write is ignored (10_state.md R14). -/
theorem regAt_readOnly {o : Nat} (h : readOnlyOffset o) : (regAt o).ignoresWrites = true := by
  have hregs : ∀ i, i < 54 → readOnlyOffset (4 * i) → (regAt (4 * i)).ignoresWrites = true := by decide
  have h4 := h.1
  obtain ⟨i, rfl⟩ : ∃ i, o = 4 * i := ⟨o / 4, by omega⟩
  exact hregs i (by omega) h

theorem step_writeIgnored {o : Nat} {v : Word} (ho : o < 256) (h4 : o % 4 = 0) (hr : (regAt o).ignoresWrites = true)
    (h : s.hostQ = .write o v :: q) : step s = .next { s with hostQ := q } := by
  have hctrl : o ≠ 4 := by rintro rfl; cases hr
  rw [step_writeReg ho h4 hctrl h, State.writeReg_ignored _ _ hr]
  rfl

/-! ## What stops a step -/

/-- The host's next action names a register offset that is no multiple of 4 (20_memory.md R49). -/
def State.NamesMissingRegister (s : State) : Prop :=
  ∃ addr q, addr < 0x100 ∧ addr % 4 ≠ 0 ∧ ((∃ v, s.hostQ = .write addr v :: q) ∨ s.hostQ = .read addr :: q)

theorem step_faults_of_missing (h : s.NamesMissingRegister) : ∃ f, step s = .fault f := by
  obtain ⟨addr, q, hlt, h4, hq⟩ := h
  have hmiss : noRegister addr = true := (noRegister_iff addr).2 ⟨hlt, h4⟩
  rcases hq with ⟨v, hq⟩ | hq
  · have hctrl : addr ≠ 4 := by omega
    exact ⟨_, (step_acts hq (if_neg hctrl)).trans (if_pos hmiss)⟩
  · exact ⟨_, (step_acts hq (starts_read addr)).trans (if_pos hmiss)⟩

theorem State.hostWrite_next {addr : Nat} (h : noRegister addr ≠ true) (s : State) (v : Word) :
    ∃ t, s.hostWrite addr v = .next t := by
  unfold State.hostWrite
  rw [if_neg h]
  split <;> exact ⟨_, rfl⟩

theorem State.hostRead_next {addr : Nat} (h : noRegister addr ≠ true) (s : State) : ∃ t, s.hostRead addr = .next t := by
  unfold State.hostRead
  rw [if_neg h]
  split <;> exact ⟨_, rfl⟩

/-- Every other step goes on: the block waits, runs an operation, or takes an action of the host's. -/
theorem step_next_of_not_missing (h : ¬ s.NamesMissingRegister) : ∃ t, step s = .next t := by
  cases hq : s.hostQ with
  | nil => exact ⟨s, step_wait hq⟩
  | cons a rest =>
    cases ha : a.starts with
    | some i => rw [step_starts hq ha]; exact exec_next i _
    | none =>
      rw [step_acts hq ha]
      cases a with
      | write addr v =>
        refine State.hostWrite_next (fun hm => h ?_) _ v
        obtain ⟨hlt, h4⟩ := (noRegister_iff addr).1 hm
        exact ⟨addr, rest, hlt, h4, .inl ⟨v, hq⟩⟩
      | read addr =>
        refine State.hostRead_next (fun hm => h ?_) _
        obtain ⟨hlt, h4⟩ := (noRegister_iff addr).1 hm
        exact ⟨addr, rest, hlt, h4, .inr hq⟩
      | reset => exact ⟨_, rfl⟩
      | askStop n => exact ⟨_, rfl⟩

end

/-! ## The obligations -/

/-- Settles O11: the write is a store in the memory of the window, the read looks that byte up. -/
theorem windowWriteReadsBack : Obligations.WindowWriteReadsBack := by
  intro s k a v q ha hq
  obtain ⟨t, hwrite, hbytes, hframe⟩ := step_writeMem ha hq
  refine ⟨t, _, hwrite, step_readMem ha (by rw [hframe]), hbytes, hframe, ?_⟩
  rw [hbytes, if_pos ⟨rfl, rfl⟩]

/-- Settles O12, by what the address names: no window, `BAYER`, no register, a read-only register. -/
theorem accessWithoutTargetIsInert : Obligations.AccessWithoutTargetIsInert := by
  intro s addr v q
  refine ⟨fun ha hmem hrom => ?_, fun hlo hhi => ?_, fun ho => ?_, fun ho => ?_⟩
  · have hw := windowAt_hole addr hmem hrom
    refine ⟨step_writeNoMem ha (by simp [hw]), fun hq => ?_⟩
    rw [step_readWindow ha hq, hw]
    rfl
  · have hw := windowAt_bayer addr hlo hhi
    have ha : 0x100 ≤ addr := by omega
    refine ⟨step_writeNoMem ha (by simp [hw]), fun hq => ?_⟩
    rw [step_readWindow ha hq, hw]
    rfl
  · have hr := regAt_unlisted ho
    obtain ⟨h4, hrange⟩ := ho
    exact ⟨step_writeIgnored (by omega) h4 (by rw [hr]; rfl), step_readReg_pure (by omega) h4 hr (by decide)⟩
  · exact step_writeIgnored (by have := ho.2; omega) ho.1 (regAt_readOnly ho)

/-- Settles O57: a step at a missing register faults, and every other step has a next state. -/
theorem stepStopsOnlyOnAMissingRegister : Obligations.StepStopsOnlyOnAMissingRegister := by
  refine fun s => ⟨⟨fun ⟨f, hf⟩ => ?_, step_faults_of_missing⟩, fun r hr => ?_, step_wait⟩
  · by_contra hn
    obtain ⟨t, ht⟩ := step_next_of_not_missing hn
    cases hf.symm.trans ht
  · by_cases hm : s.NamesMissingRegister
    · obtain ⟨f, hf⟩ := step_faults_of_missing hm
      cases hf.symm.trans hr
    · obtain ⟨t, ht⟩ := step_next_of_not_missing hm
      cases ht.symm.trans hr

end Sys2Proof.Machine
end

section
/-! PROOFS (O4, O6, O8). Reading a line: the text left of it, the class of the text, what a Delay line and a byte list can come
to (30_encoding.md R61, R62, R67 to R70). -/

namespace Sys2Proof

/-! ## The text of a line (30_encoding.md R61) -/

theorem decodeLine_noCr {l : List Byte} (hcr : l.getLast? ≠ some cr) (hlen : l.length ≤ lineMax) :
    decodeLine l = decodeText (trimBlanks l) := by
  rw [decodeLine, if_neg (Nat.not_lt.2 hlen), lineText, dropCr_eq_self hcr]

/-- One CR at the end of a line is no part of its text. -/
theorem decodeLine_cr {l : List Byte} (hlen : l.length < lineMax) : decodeLine (l ++ [cr]) = decodeText (trimBlanks l) := by
  have hshort : (l ++ [cr]).length ≤ lineMax := by simpa using hlen
  rw [decodeLine, if_neg (Nat.not_lt.2 hshort), lineText, dropCr, if_pos List.getLast?_concat, List.dropLast_concat]

theorem blank_ne_cr {c : Byte} (h : isBlank c = true) : c ≠ cr := by
  rintro rfl
  cases h

/-- A line of blanks has no text. -/
theorem trimBlanks_blanks {l : List Byte} (h : ∀ c ∈ l, isBlank c = true) : trimBlanks l = [] := by
  simpa using trimBlanks_around l [] [] h (by simp) (by simp) (by simp)

/-- A plain character after the leading blanks begins the text. -/
theorem trimBlanks_head {blanks : List Byte} (h : ∀ c ∈ blanks, isBlank c = true) {c : Byte} (hc : isBlank c = false)
    (l : List Byte) : ∃ l', trimBlanks (blanks ++ c :: l) = c :: l' := by
  unfold trimBlanks
  rw [dropWhile_blanks _ _ h, List.dropWhile_cons_of_neg (by simp [hc]), List.reverse_cons, List.dropWhile_append]
  split
  · exact ⟨[], by simp [hc]⟩
  · exact ⟨_, by rw [List.reverse_append]; rfl⟩

/-- A CR is removed only after the leading character. -/
theorem dropCr_head (blanks : List Byte) {c : Byte} (hc : c ≠ cr) (l : List Byte) :
    ∃ l', dropCr (blanks ++ c :: l) = blanks ++ c :: l' := by
  unfold dropCr
  split
  case isTrue hlast =>
    have hl : l ≠ [] := by
      rintro rfl
      exact hc (by simpa using hlast)
    exact ⟨l.dropLast, by rw [List.dropLast_append_of_ne_nil (by simp), List.dropLast_cons_of_ne_nil hl]⟩
  case isFalse => exact ⟨l, rfl⟩

/-! ## The class of a text (30_encoding.md R62) -/

theorem decodeText_comment (l : List Byte) : decodeText (hash :: l) = .ignored := rfl

theorem decodeText_delay (tail : List Byte) : decodeText (delayKeyword ++ tail) = .ofExcept (decodeDelay tail) := rfl

theorem decodeText_badToken {text : List Byte} (hne : text ≠ []) (hh : text.head? ≠ some hash)
    (hd : text.take 5 ≠ delayKeyword) (hbad : tokenBytes (tokens text) = none) : decodeText text = .error .badToken := by
  cases text with
  | nil => exact absurd rfl hne
  | cons c cs =>
    have hc : c ≠ hash := fun h => hh (congrArg some h)
    unfold decodeText
    simp only [if_neg hc, if_neg hd, hbad]

theorem LineResult.ofExcept_eq_command {r : Except LineError Instr} {i : Instr} (h : LineResult.ofExcept r = .command i) :
    r = .ok i := by
  cases r with
  | ok j => exact congrArg Except.ok (LineResult.command.inj h)
  | error e => cases h

/-- A text denotes an instruction only as a Delay line or by its bytes. -/
theorem decodeText_eq_command {text : List Byte} {i : Instr} (h : decodeText text = .command i) :
    decodeDelay (text.drop 5) = .ok i ∨ ∃ bytes, decodeBytes bytes = .ok i := by
  unfold decodeText at h
  split at h
  · cases h
  · split at h
    · cases h
    · split at h
      · exact .inl (LineResult.ofExcept_eq_command h)
      · split at h
        · exact .inr ⟨_, LineResult.ofExcept_eq_command h⟩
        · cases h

theorem decode_line_eq_ok {raw : List Byte} {i : Instr} (h : decode (.line raw) = .ok i) :
    decodeText (lineText raw) = .command i := by
  unfold decode decodeLine at h
  by_cases hlong : lineMax < raw.length
  · simp only [if_pos hlong] at h
    cases h
  · simp only [if_neg hlong] at h
    cases ht : decodeText (lineText raw) <;> rw [ht] at h <;> cases h
    rfl

/-! ## `CTRL` words (30_encoding.md R79) -/

theorem decode_ctrl_eq_ok {word : Word} {i : Instr} (h : decode (.ctrl word) = .ok i) : decodeCtrl word = some i := by
  unfold decode at h
  cases hc : decodeCtrl word <;> simp only [hc] at h <;> cases h
  rfl

theorem decodeCtrl_eq_some {word : Word} {i : Instr} (h : decodeCtrl word = some i) :
    i.wellFormed = true ∧ i.isCommand = false := by
  unfold decodeCtrl at h
  split at h <;> cases h <;> exact ⟨rfl, rfl⟩

/-! ## Delay lines (30_encoding.md R70) -/

theorem isBlank_of_digit {c : Byte} (h : 48 ≤ c.toNat ∧ c.toNat ≤ 57) : isBlank c = false := by
  by_contra hb
  rw [Bool.not_eq_false, isBlank, Bool.or_eq_true, beq_iff_eq, beq_iff_eq] at hb
  rcases hb with rfl | rfl <;> exact absurd h (by decide)

/-- The separator and the digits of a Delay line. -/
theorem decodeDelay_digits {gap digits : List Byte} {n : Nat} (hg : gap ≠ []) (hb : ∀ c ∈ gap, isBlank c = true)
    (hd : digits ≠ []) (hlen : digits.length ≤ 10) (hp : ∀ c ∈ digits, isBlank c = false)
    (hval : decimalFrom 0 digits = some n) (hn : n ≤ maxWord) :
    decodeDelay (gap ++ digits) = .ok (.delay (BitVec.ofNat 32 n)) := by
  have hdrop : (gap ++ digits).dropWhile isBlank = digits := by
    rw [dropWhile_blanks _ _ hb]
    cases digits with
    | nil => rfl
    | cons c cs => exact List.dropWhile_cons_of_neg (by simp [hp c])
  have hcount : ¬ (digits.length = 0 ∨ 10 < digits.length) := by
    have := List.length_pos_iff.2 hd
    omega
  cases gap with
  | nil => exact absurd rfl hg
  | cons c gap =>
    rw [List.cons_append] at hdrop ⊢
    unfold decodeDelay
    simp only [hb c (by simp), hdrop, if_neg hcount, hval, if_pos hn, if_true]

theorem decodeDelay_of_delayTail {tail digits : List Byte} (h : DelayTail tail digits) :
    decodeDelay tail = .ok (.delay (BitVec.ofNat 32 (writtenNumber digits))) := by
  obtain ⟨gap, rfl, hg, hb, hd, hlen, hdigits, hn⟩ := h
  exact decodeDelay_digits hg hb hd hlen (fun c hc => isBlank_of_digit (hdigits c hc)) (decimalFrom_eq 0 digits hdigits) hn

/-- What follows the keyword of a Delay line is a tail that R70 allows, or the line is bad. -/
theorem decodeDelay_cases (tail : List Byte) : (∃ digits, DelayTail tail digits) ∨ decodeDelay tail = .error .badDelay := by
  unfold decodeDelay
  split
  · exact .inr rfl
  next c cs =>
    by_cases hc : isBlank c = true
    · rw [if_pos hc]
      dsimp only
      split
      · exact .inr rfl
      next hcount =>
        split
        next n hval =>
          split
          next hn =>
            have hdigits := digits_of_decimalFrom hval
            rw [decimalFrom_eq 0 _ hdigits] at hval
            refine .inl ⟨_, (c :: cs).takeWhile isBlank, List.takeWhile_append_dropWhile.symm, by simp [hc],
              fun d hd => List.mem_takeWhile_imp hd, ?_, by omega, hdigits, ?_⟩
            · exact fun h => hcount (.inl (congrArg List.length h))
            · exact (Option.some.inj hval).trans_le hn
          · exact .inr rfl
        · exact .inr rfl
    · exact .inr (if_neg hc)

theorem decodeDelay_ok {tail : List Byte} {i : Instr} (h : decodeDelay tail = .ok i) : ∃ ms, i = .delay ms := by
  rcases decodeDelay_cases tail with ⟨digits, ht⟩ | he
  · rw [decodeDelay_of_delayTail ht] at h
    exact ⟨_, (Except.ok.inj h).symm⟩
  · cases he.symm.trans h

/-! ## Byte lists (30_encoding.md R67 to R69, R73, R74) -/

theorem decodeBytes_ok {bytes : List Byte} {i : Instr} (h : decodeBytes bytes = .ok i) :
    i.wellFormed = true ∧ i.isCommand = true := by
  revert h
  fun_cases decodeBytes bytes
  case case8 hfits _ _ _ => rintro ⟨⟩; exact ⟨hfits, rfl⟩
  case case11 hcolor _ _ _ _ => rintro ⟨⟩; exact ⟨hcolor, rfl⟩
  all_goals rintro ⟨⟩ <;> exact ⟨rfl, rfl⟩

theorem decodeBytes_unknown {op : Byte} (h : op.toNat = 0 ∨ 6 ≤ op.toNat) (args : List Byte) :
    decodeBytes (op :: args) = .error .unknownOpcode := by
  have hne (b : Byte) (hb : 1 ≤ b.toNat ∧ b.toNat ≤ 5) : op ≠ b := by
    rintro rfl
    omega
  simp only [decodeBytes, if_neg (hne 1 (by decide)), if_neg (hne 2 (by decide)), if_neg (hne 3 (by decide)),
    if_neg (hne 4 (by decide)), if_neg (hne 5 (by decide))]

theorem decodeBytes_noArgs {op : Byte} (h : op = 0x01 ∨ op = 0x02 ∨ op = 0x05) {args : List Byte} (ha : args ≠ []) :
    decodeBytes (op :: args) = .error .badByteCount := by
  rcases h with rfl | rfl | rfl <;> exact if_neg ha

theorem decodeBytes_tile_badCount {args : List Byte}
    (h : args.length < 6 ∨ args.length ≠ 6 + (args.getD 5 0).toNat * ceil8 (args.getD 4 0).toNat) :
    decodeBytes (0x03 :: args) = .error .badByteCount := by
  unfold decodeBytes
  simp only [BitVec.reduceEq, if_false, if_true]
  split
  next x y res0 res1 w hh payload =>
    refine if_neg fun hfits => ?_
    have hcount : payload.length = hh.toNat * ceil8 w.toNat := by simpa [tilePayloadFits] using hfits
    simp [hcount] at h
    omega
  next => rfl

theorem decodeBytes_rect_badCount {args : List Byte} (h : args.length ≠ 5) :
    decodeBytes (0x04 :: args) = .error .badByteCount := by
  unfold decodeBytes
  simp only [BitVec.reduceEq, if_false, if_true]
  split
  next => exact absurd rfl h
  next => rfl

theorem decodeBytes_rect_badColor {args : List Byte} (h : args.length = 5) (hc : 2 ≤ (args.getD 4 0).toNat) :
    decodeBytes (0x04 :: args) = .error .badColor := by
  match args, h with
  | [x1, y1, x2, y2, color], _ => exact if_neg fun hlegal => absurd (hc.trans (of_decide_eq_true hlegal)) (by decide)

/-! ## The obligations -/

/-- Settles O4: the byte decoder and the Delay decoder yield well-formed commands only, and `CTRL` names five operations. -/
theorem decodedInstructionsAreWellFormed : Obligations.DecodedInstructionsAreWellFormed := by
  refine ⟨fun raw i h => ?_, fun word i h => ?_⟩
  · rcases decodeText_eq_command (decode_line_eq_ok h) with hd | ⟨bytes, hb⟩
    · obtain ⟨ms, rfl⟩ := decodeDelay_ok hd
      exact ⟨rfl, rfl⟩
    · exact decodeBytes_ok hb
  · exact decodeCtrl_eq_some (decode_ctrl_eq_ok h)

/-- Settles O8: a line of blanks has no text, and the text of a comment line begins with its `#`. -/
theorem blankAndCommentLinesAreIgnored : Obligations.BlankAndCommentLinesAreIgnored := by
  intro blanks comment hb hlen
  have hshort : blanks.length < lineMax := by
    simp only [List.length_append, List.length_cons] at hlen
    omega
  have hcr : blanks.getLast? ≠ some cr := fun h => blank_ne_cr (hb cr (List.mem_of_getLast? h)) rfl
  refine ⟨?_, ?_, ?_⟩
  · rw [decodeLine_noCr hcr hshort.le, trimBlanks_blanks hb]
    rfl
  · rw [decodeLine_cr hshort, trimBlanks_blanks hb]
    rfl
  · obtain ⟨body, hbody⟩ := dropCr_head blanks (by decide : hash ≠ cr) comment
    obtain ⟨text, htext⟩ := trimBlanks_head hb (by decide : isBlank hash = false) body
    rw [decodeLine, if_neg (Nat.not_lt.2 hlen), lineText, hbody, htext]
    exact decodeText_comment text

/-- Settles O6: the hex lines by the byte list they write, the Delay lines by what follows the keyword. -/
theorem illegalLinesAreFaulted : Obligations.IllegalLinesAreFaulted := by
  refine ⟨fun op args hlen => ?_, fun before tail after hb ha hlast hcr hlen => ?_⟩
  · rw [decodeLine_hexLine op args hlen]
    refine ⟨fun h => ?_, fun h hargs => ?_, ?_, ?_, ?_⟩
    · rw [decodeBytes_unknown h]; rfl
    · rw [decodeBytes_noArgs h hargs]; rfl
    · rintro rfl h
      rw [decodeBytes_tile_badCount h]; rfl
    · rintro rfl h
      rw [decodeBytes_rect_badCount h]; rfl
    · rintro rfl h hcolor
      rw [decodeBytes_rect_badColor h hcolor]; rfl
  · have hplain : ∀ c, (delayKeyword ++ tail).getLast? = some c → isBlank c = false := by
      intro c hc
      rw [List.getLast?_append, Option.or_eq_some_iff] at hc
      rcases hc with hc | ⟨-, hc⟩
      · exact hlast c hc
      · cases hc; rfl
    have htext : trimBlanks (before ++ delayKeyword ++ tail ++ after) = delayKeyword ++ tail := by
      rw [List.append_assoc before]
      exact trimBlanks_around _ _ _ hb ha (fun c hc => by cases hc; rfl) hplain
    rw [decodeLine_noCr hcr hlen, htext, decodeText_delay]
    refine ⟨fun hnone => ?_, fun digits ht => ?_⟩
    · rcases decodeDelay_cases tail with ⟨digits, ht⟩ | he
      · exact absurd ht (hnone digits)
      · rw [he]; rfl
    · rw [decodeDelay_of_delayTail ht]; rfl

end Sys2Proof
end

section
/-! PROOFS (O1, O2, O3, O5). The canonical text of a command is read as that command, alone, between blanks, before a CR and at
the head of a queue (30_encoding.md R60, R61, R66 to R70, R76, R77). -/

namespace Sys2Proof

section
variable {i : Instr}

/-- A well-formed command but `DELAY` is written as a hex line of bytes that denote it (30_encoding.md R67 to R69, R76). -/
theorem commandText_cases (hw : i.wellFormed = true) (hc : i.isCommand = true) :
    (∃ ms, i = .delay ms) ∨ ∃ b bs, commandText i = hexLine (b :: bs) ∧ decodeBytes (b :: bs) = .ok i := by
  cases i with
  | clear => exact .inr ⟨_, _, rfl, rfl⟩
  | whiteout => exact .inr ⟨_, _, rfl, rfl⟩
  | tile x y res0 res1 w h payload => exact .inr ⟨_, _, rfl, if_pos hw⟩
  | rect x1 y1 x2 y2 color => exact .inr ⟨_, _, rfl, if_pos hw⟩
  | endLayer => exact .inr ⟨_, _, rfl, rfl⟩
  | delay ms => exact .inl ⟨ms, rfl⟩
  | _ => cases hc

/-- The decimal digits of a count are the digits of a Delay line that denotes it (30_encoding.md R70, R76). -/
theorem decodeDelay_decimal (ms : Word) : decodeDelay (space :: decimal ms) = .ok (.delay ms) := by
  have hms := ms.isLt
  obtain ⟨hpos, hlen⟩ := decimalDigits_length 10 ms.toNat (by decide)
  have hok := decodeDelay_digits (gap := [space]) (by simp) (by decide) (List.length_pos_iff.1 hpos) hlen
    (fun c hc => (decimalDigits_plain 10 _ c hc).1) (decimalFrom_digits 10 ms.toNat (by omega) (by decide))
    (by unfold maxWord; omega)
  rwa [BitVec.ofNat_toNat, BitVec.setWidth_eq] at hok

theorem decodeText_commandText (hw : i.wellFormed = true) (hc : i.isCommand = true) :
    decodeText (commandText i) = .command i := by
  rcases commandText_cases hw hc with ⟨ms, rfl⟩ | ⟨b, bs, htext, hbytes⟩
  · exact (decodeText_delay _).trans (congrArg LineResult.ofExcept (decodeDelay_decimal ms))
  · rw [htext, decodeText_hexLine, hbytes]
    rfl

/-- The canonical text begins with a plain character. -/
theorem commandText_head (hw : i.wellFormed = true) (hc : i.isCommand = true) :
    ∀ c, (commandText i).head? = some c → isBlank c = false := by
  intro c h
  rcases commandText_cases hw hc with ⟨ms, rfl⟩ | ⟨b, bs, htext, -⟩
  · cases h
    rfl
  · rw [htext, hexLine_head] at h
    cases h
    exact (hexChar_plain (byte_hi_lt b)).1

/-- The canonical text ends with a plain character. -/
theorem commandText_last (hw : i.wellFormed = true) (hc : i.isCommand = true) :
    ∀ c, (commandText i).getLast? = some c → isBlank c = false := by
  intro c h
  rcases commandText_cases hw hc with ⟨ms, rfl⟩ | ⟨b, bs, htext, -⟩
  · have hne : decimal ms ≠ [] := List.length_pos_iff.1 (decimalDigits_length 10 ms.toNat (by decide)).1
    have hdigit : c ∈ decimal ms := by
      refine List.mem_of_getLast? ?_
      rwa [commandText, List.append_cons, List.getLast?_append_of_ne_nil _ hne] at h
    exact (decimalDigits_plain 10 _ c hdigit).1
  · obtain ⟨n, hn, hlast⟩ := hexLine_getLast b bs
    rw [htext, hlast] at h
    cases h
    exact (hexChar_plain hn).1

/-- No character of the canonical text ends a line or belongs to a line's ending (30_encoding.md R60, R61). -/
theorem commandText_chars (hw : i.wellFormed = true) (hc : i.isCommand = true) :
    ∀ c ∈ commandText i, c ≠ cr ∧ c ≠ lf := by
  intro c h
  rcases commandText_cases hw hc with ⟨ms, rfl⟩ | ⟨b, bs, htext, -⟩
  · have hfix : ∀ d ∈ delayKeyword ++ [space], d ≠ cr ∧ d ≠ lf := by decide
    rw [commandText, List.append_cons, List.mem_append] at h
    exact h.elim (hfix c) fun h => (decimalDigits_plain 10 _ c h).2
  · rw [htext] at h
    exact ⟨(hexLine_chars _ c h).1, (hexLine_chars _ c h).2.1⟩

/-- The length of the canonical text, from the form of the command's encoding (30_encoding.md R66). -/
theorem commandText_length (hw : i.wellFormed = true) (hc : i.isCommand = true) : (commandText i).length ≤ 24500 := by
  cases i with
  | clear => exact (Laws.EncodedForm.clear hw).2.2
  | whiteout => exact (Laws.EncodedForm.whiteout hw).2.2
  | tile x y res0 res1 w h payload => exact (Laws.EncodedForm.tile x y res0 res1 w h payload hw).2.2
  | rect x1 y1 x2 y2 color => exact (Laws.EncodedForm.rect x1 y1 x2 y2 color hw).2.2
  | endLayer => exact (Laws.EncodedForm.endLayer hw).2.2
  | delay ms => exact (Laws.EncodedForm.delay ms hw).2.2
  | _ => cases hc

/-- The text of a canonical line is what is left of it and the blanks around it. -/
theorem trimBlanks_commandText (hw : i.wellFormed = true) (hc : i.isCommand = true) {before after : List Byte}
    (hb : ∀ c ∈ before, isBlank c = true) (ha : ∀ c ∈ after, isBlank c = true) :
    trimBlanks (before ++ commandText i ++ after) = commandText i :=
  trimBlanks_around before _ after hb ha (commandText_head hw hc) (commandText_last hw hc)

theorem decodeLine_commandText_blanks (hw : i.wellFormed = true) (hc : i.isCommand = true) {before after : List Byte}
    (hb : ∀ c ∈ before, isBlank c = true) (ha : ∀ c ∈ after, isBlank c = true)
    (hlen : (before ++ commandText i ++ after).length ≤ lineMax) :
    decodeLine (before ++ commandText i ++ after) = .command i := by
  have hcr : (before ++ commandText i ++ after).getLast? ≠ some cr := by
    intro h
    rcases List.mem_append.1 (List.mem_of_getLast? h) with hm | hm
    · rcases List.mem_append.1 hm with hm | hm
      · exact blank_ne_cr (hb cr hm) rfl
      · exact (commandText_chars hw hc cr hm).1 rfl
    · exact blank_ne_cr (ha cr hm) rfl
  rw [decodeLine_noCr hcr hlen, trimBlanks_commandText hw hc hb ha, decodeText_commandText hw hc]

theorem decodeLine_commandText (hw : i.wellFormed = true) (hc : i.isCommand = true) :
    decodeLine (commandText i) = .command i := by
  have hshort : (commandText i).length ≤ lineMax := (commandText_length hw hc).trans (by decide)
  simpa using decodeLine_commandText_blanks (before := []) (after := []) hw hc (by simp) (by simp) (by simpa using hshort)

theorem encode_command (hc : i.isCommand = true) : encode i = .line (commandText i) := by
  cases i with
  | clear | whiteout | tile | rect | endLayer | delay => rfl
  | _ => cases hc

theorem decode_encode_hostOp (hc : i.isCommand = false) : decode (encode i) = .ok i := by
  cases i with
  | quantize | encode | decStep | decRun | decReset => rfl
  | _ => cases hc

end

/-- Settles O1: a command by its canonical line, a host operation by its `CTRL` word. -/
theorem decodeOfEncodeIsIdentity : Obligations.DecodeOfEncodeIsIdentity := by
  intro i hw
  cases hc : i.isCommand with
  | true => rw [encode_command hc, decode, decodeLine_commandText hw hc]
  | false => exact decode_encode_hostOp hc

/-- Settles O2: the canonical text holds no LF, so that the line taken is the text. -/
theorem emittedCommandIsTakenWhole : Obligations.EmittedCommandIsTakenWhole := by
  intro i rest hw hc
  rw [commandLine, List.append_assoc, List.singleton_append,
    fetchLine_line _ _ fun h => (commandText_chars hw hc lf h).2 rfl, decodeLine_commandText hw hc]

/-- Settles O3: the blanks and the CR are no part of the line's text. -/
theorem blanksAndCrAroundALineAreHarmless : Obligations.BlanksAndCrAroundALineAreHarmless := by
  intro i before after hw hc hb ha hlen
  refine ⟨decodeLine_commandText_blanks hw hc hb ha hlen.le, ?_⟩
  rw [decodeLine_cr hlen, trimBlanks_commandText hw hc hb ha, decodeText_commandText hw hc]

/-- Settles O5: the decoder run on each code. -/
theorem writtenOutCodesDecode : Obligations.WrittenOutCodesDecode := by
  unfold Obligations.WrittenOutCodesDecode
  decide

end Sys2Proof
end

section
/-! PROOFS (O9). Over-long lines (30_encoding.md R66, 43_host_ops.md R163). -/

namespace Sys2Proof.Machine

theorem fetchLine_overLong {raw : List Byte} (rest : List Byte) (hlf : lf ∉ raw) (hlong : lineMax < raw.length) :
    fetchLine (raw ++ lf :: rest) = { lines := 1, rest := rest, found := .error .overLong } := by
  rw [fetchLine_line raw rest hlf, decodeLine, if_pos hlong]

/-- Settles O9: the search finds the over-long line; the canonical text has at most the length of a full tile's. -/
theorem overLongLineIsConsumedAndLogged : Obligations.OverLongLineIsConsumedAndLogged := by
  refine ⟨fun s raw rest hs hq hlf hlong => ?_, fun i hw hc => commandText_length hw hc, ?_⟩
  · have hfetch : fetchLine s.clearConfig.csIn = { lines := 1, rest := rest, found := .error .overLong } := by
      rw [State.clearConfig_csIn, hq]
      exact fetchLine_overLong rest hlf hlong
    rw [exec_decStep hs, State.stepLine_error (congrArg Fetched.found hfetch), hfetch]
    rfl
  · have htext : commandText (.tile 0 0 0 0 255 255 (List.replicate 8160 0)) =
        hexLine (0x03 :: 0 :: 0 :: 0 :: 0 :: 255 :: 255 :: List.replicate 8160 0) := rfl
    rw [htext, hexLine_length]
    simp only [List.length_cons, List.length_replicate]

end Sys2Proof.Machine
end

section
/-! PROOFS (O7). A hex line as its tokens and gaps: where it ends, and that it is no Delay line (30_encoding.md R62, R63). -/

namespace Sys2Proof

/-- A line of gaps and tokens ends with a character of a token. -/
theorem pieces_last {first : List Byte} {more : List (List Byte × List Byte)}
    (ht : ∀ t ∈ first :: more.map Prod.snd, t ≠ [] ∧ ∀ c ∈ t, isBlank c = false) :
    ∀ c, (first ++ more.flatMap (fun p => p.1 ++ p.2)).getLast? = some c → isBlank c = false := by
  intro c h
  induction more generalizing first with
  | nil =>
    rw [List.flatMap_nil, List.append_nil] at h
    exact (ht first (by simp)).2 c (List.mem_of_getLast? h)
  | cons p more ih =>
    rw [List.map_cons] at ht
    have hne : p.2 ++ more.flatMap (fun p => p.1 ++ p.2) ≠ [] := by simp [(ht p.2 (by simp)).1]
    rw [List.flatMap_cons, List.append_assoc p.1, List.getLast?_append_of_ne_nil _ (by simp [hne]),
      List.getLast?_append_of_ne_nil _ hne] at h
    exact ih (fun t h => ht t (List.mem_cons_of_mem _ h)) h

/-- The keyword of a Delay line holds no blank, so that a line begins with it only where its first token does. -/
theorem pieces_not_delay {first : List Byte} {more : List (List Byte × List Byte)}
    (hm : ∀ p ∈ more, p.1 ≠ [] ∧ ∀ c ∈ p.1, isBlank c = true) (hd : first.take 5 ≠ delayKeyword) :
    (first ++ more.flatMap (fun p => p.1 ++ p.2)).take 5 ≠ delayKeyword := by
  intro h
  rcases Nat.lt_or_ge first.length 5 with hlen | hlen
  · cases more with
    | nil => exact hd (by simpa using h)
    | cons p more =>
      obtain ⟨hne, hblank⟩ := hm p (by simp)
      obtain ⟨c, gap, hgap⟩ := List.exists_cons_of_ne_nil hne
      obtain ⟨k, hk⟩ : ∃ k, 5 - first.length = k + 1 := ⟨4 - first.length, by omega⟩
      have hin : c ∈ delayKeyword := by
        rw [← h, List.take_append, hk, List.flatMap_cons, hgap]
        simp
      have hplain : ∀ d ∈ delayKeyword, isBlank d = false := by decide
      exact absurd (hblank c (by simp [hgap])) (by simp [hplain c hin])
  · rw [List.take_append_of_le_length hlen] at h
    exact hd h

/-- Settles O7: the text is cut into the tokens given, of which one is bad. -/
theorem badTokenIsReportedFirst : Obligations.BadTokenIsReportedFirst := by
  intro before first after more hb ha hm ht hhash hdelay hbad hcr hlen
  obtain ⟨hne, hplain⟩ := ht first (by simp)
  obtain ⟨c, cs, rfl⟩ := List.exists_cons_of_ne_nil hne
  have htext := trimBlanks_around before (c :: cs ++ more.flatMap (fun p => p.1 ++ p.2)) after hb ha
    (fun d hd => by cases hd; exact hplain c (by simp)) (pieces_last ht)
  rw [← List.append_assoc] at htext
  rw [decodeLine_noCr hcr hlen, htext]
  refine decodeText_badToken (by simp) hhash (pieces_not_delay hm hdelay) ?_
  rw [tokens_pieces _ more hm ht]
  exact tokenBytes_of_bad hbad

end Sys2Proof
end

section
/-! PROOFS (O38 to O40). The quantizer's shared functions: the nearest level, the contrast, the bias (40_quantizer.md R91, R92,
R95). -/

namespace Sys2Proof.Machine

/-! ## The nearest level -/

/-- The level a scan ends at beats every level before it strictly and every level after it at least weakly. -/
theorem nearestOf_splits (v : Int) {ls : List Nat} (h : ls ≠ []) :
    ∃ pre post, ls = pre ++ nearestOf v ls :: post ∧
      (∀ m : Nat, m ∈ pre → (v - (nearestOf v ls : Int)).natAbs < (v - (m : Int)).natAbs) ∧
      ∀ m : Nat, m ∈ post → (v - (nearestOf v ls : Int)).natAbs ≤ (v - (m : Int)).natAbs := by
  cases ls with
  | nil => exact absurd rfl h
  | cons l0 ls =>
    have hscan : nearestOf v (l0 :: ls) = ls.foldl (nearer v) l0 := rfl
    rw [hscan]
    rcases nearest_fold v ls l0 with ⟨hkeeps, hle⟩ | ⟨pre, l, post, rfl, hends, hlt, hpre, hpost⟩
    · rw [hkeeps]
      exact ⟨[], ls, rfl, by simp, hle⟩
    · rw [hends]
      exact ⟨l0 :: pre, post, rfl, List.forall_mem_cons.2 ⟨hlt, hpre⟩, hpost⟩

/-- `nearest(v)` with the index of its level: the indices before it, itself, and the indices after it (40_quantizer.md R91). -/
theorem State.nearest_spec {s : State} (h : s.levelsUsed ≠ 0) (v : Int) :
    ∃ k, k < s.levelsUsed ∧ (s.nearest v).toNat = s.level k ∧
      ∀ j, j < s.levelsUsed →
        (v - (s.level k : Int)).natAbs ≤ (v - (s.level j : Int)).natAbs ∧
          (j < k → (v - (s.level k : Int)).natAbs < (v - (s.level j : Int)).natAbs) := by
  obtain ⟨pre, post, hls, hpre, hpost⟩ := nearestOf_splits v (State.usedLevels_ne_nil h)
  obtain ⟨before, rest, hrange, rfl, hrest⟩ := List.map_eq_append_iff.1 hls
  obtain ⟨k, after, rfl, hk, rfl⟩ := List.map_eq_cons_iff.1 hrest
  rw [← hk] at hpre hpost
  have hindex (j : Nat) : j < s.levelsUsed ↔ j ∈ before ∨ j = k ∨ j ∈ after := by
    rw [← List.mem_range, hrange, List.mem_append, List.mem_cons]
  have hafter : ∀ j ∈ after, k < j := by
    have hsorted := List.pairwise_lt_range (n := s.levelsUsed)
    rw [hrange, List.pairwise_append] at hsorted
    obtain ⟨-, hrest, -⟩ := hsorted
    exact (List.pairwise_cons.1 hrest).1
  refine ⟨k, (hindex k).2 (by simp), ?_, fun j hj => ?_⟩
  · rw [State.nearest, ← hk, BitVec.toNat_ofNat]
    exact Nat.mod_eq_of_lt (s.level_lt k)
  · rcases (hindex j).1 hj with hj | rfl | hj
    · have hlt := hpre _ (List.mem_map_of_mem hj)
      exact ⟨Nat.le_of_lt hlt, fun _ => hlt⟩
    · exact ⟨Nat.le_refl _, fun hlt => absurd hlt (Nat.lt_irrefl _)⟩
    · exact ⟨hpost _ (List.mem_map_of_mem hj), fun hlt => absurd hlt (Nat.lt_asymm (hafter j hj))⟩

/-- A level in use is its own nearest level. -/
theorem State.nearest_level {s : State} {k : Nat} (h : k < s.levelsUsed) : (s.nearest (s.level k)).toNat = s.level k := by
  obtain ⟨i, -, hi, hbest⟩ := State.nearest_spec (s := s) (by omega) (s.level k)
  have := (hbest k h).1
  omega

/-- Settles O38: where the scan ends, with its index. -/
theorem nearestIsTheClosestDarkestLevel : Obligations.NearestIsTheClosestDarkestLevel :=
  fun _ v h => State.nearest_spec h v

/-! ## The contrast -/

theorem clamp255_eq (v : Int) : clamp255 v = max 0 (min 255 v) := by
  unfold clamp255
  split
  · omega
  · split <;> omega

theorem toByte_clamp255_toNat (v : Int) : ((toByte (clamp255 v)).toNat : Int) = max 0 (min 255 v) := by
  rw [toByte_toNat (clamp255_range v).1 (clamp255_range v).2, clamp255_eq]

/-- The contrast as a number (40_quantizer.md R92). -/
theorem State.contrastOf_toNat (s : State) (p : Byte) :
    ((s.contrastOf p).toNat : Int) =
      max 0 (min 255 (128 + (((p.toNat : Int) - 128) * s.contrast.toNat + 128) / 256)) :=
  toByte_clamp255_toNat _

/-- Gain 1.0 is the identity (40_quantizer.md R92). -/
theorem State.contrastOf_gain_one {s : State} (h : s.contrast = 0x0100) (p : Byte) : s.contrastOf p = p := by
  have hp := p.isLt
  have hval := s.contrastOf_toNat p
  rw [h, show (0x0100 : BitVec 16).toNat = 256 from rfl] at hval
  exact BitVec.eq_of_toNat_eq (by omega)

theorem State.contrastOf_gain_zero {s : State} (h : s.contrast = 0) (p : Byte) : s.contrastOf p = 128 := by
  have hval := s.contrastOf_toNat p
  rw [h, show (0 : BitVec 16).toNat = 0 from rfl] at hval
  exact BitVec.eq_of_toNat_eq (by simp at hval ⊢; omega)

theorem State.contrastOf_midGray (s : State) : s.contrastOf 128 = 128 := by
  have hval := s.contrastOf_toNat 128
  rw [show (128 : Byte).toNat = 128 from rfl] at hval
  exact BitVec.eq_of_toNat_eq (by simp at hval ⊢; omega)

theorem State.contrastOf_mono (s : State) {p p' : Byte} (h : p.toNat ≤ p'.toNat) :
    (s.contrastOf p).toNat ≤ (s.contrastOf p').toNat := by
  have hmul : ((p.toNat : Int) - 128) * s.contrast.toNat ≤ ((p'.toNat : Int) - 128) * s.contrast.toNat :=
    Int.mul_le_mul_of_nonneg_right (by omega) (by omega)
  have hval := s.contrastOf_toNat p
  have hval' := s.contrastOf_toNat p'
  omega

/-- Settles O39: the quotient by 256 is the rounding, the rest follows from the value at the gain or the pixel given. -/
theorem contrastFixesMidGrayAndKeepsOrder : Obligations.ContrastFixesMidGrayAndKeepsOrder := by
  intro s
  refine ⟨fun p => ⟨_, ?_, ?_, s.contrastOf_toNat p⟩, fun h => State.contrastOf_gain_one h,
    fun h => State.contrastOf_gain_zero h, s.contrastOf_midGray, fun p p' h => s.contrastOf_mono h⟩
  · omega
  · omega

/-! ## The bias -/

/-- The bias as a quotient of the scaled matrix value (40_quantizer.md R94, R95). -/
theorem State.bias_eq (s : State) (x y : Nat) :
    s.bias x y = ((((s.bayer ((y % 8) * 8 + x % 8)).toNat : Int) - 128) * s.strength.toNat + 128) / 256 := rfl

/-- The bias at strength 1.0 (40_quantizer.md R95). -/
theorem State.bias_strength_one {s : State} (h : s.strength = 256) (x y : Nat) :
    s.bias x y = ((s.bayer ((y % 8) * 8 + x % 8)).toNat : Int) - 128 := by
  rw [State.bias_eq, h, show (256 : BitVec 9).toNat = 256 from rfl]
  omega

theorem State.bias_strength_zero {s : State} (h : s.strength = 0) (x y : Nat) : s.bias x y = 0 := by
  rw [State.bias_eq, h, show (0 : BitVec 9).toNat = 0 from rfl]
  omega

/-- A byte less 128 lies in -128..127, and a strength of at most 1.0 does not widen that (40_quantizer.md R95). -/
theorem State.bias_range {s : State} (h : s.strength.toNat ≤ 256) (x y : Nat) : -128 ≤ s.bias x y ∧ s.bias x y ≤ 127 := by
  have hb := (s.bayer ((y % 8) * 8 + x % 8)).isLt
  rw [State.bias_eq]
  generalize (s.bayer ((y % 8) * 8 + x % 8)).toNat = b at hb
  have hlow : (-128 : Int) * s.strength.toNat ≤ ((b : Int) - 128) * s.strength.toNat :=
    Int.mul_le_mul_of_nonneg_right (by omega) (by omega)
  have hhigh : ((b : Int) - 128) * s.strength.toNat ≤ 127 * s.strength.toNat :=
    Int.mul_le_mul_of_nonneg_right (by omega) (by omega)
  omega

/-- Settles O40: the quotient by 256 is the rounding, and the matrix repeats every 8 pixels both ways. -/
theorem biasIsTheScaledMatrixValue : Obligations.BiasIsTheScaledMatrixValue := by
  intro s x y
  refine ⟨?_, fun h => State.bias_strength_one h x y, fun h => State.bias_strength_zero h x y,
    fun h => State.bias_range h x y, ?_, ?_⟩
  · rw [State.bias_eq]
    omega
  · rw [State.bias_eq, State.bias_eq, Nat.add_mod_right]
  · rw [State.bias_eq, State.bias_eq, Nat.add_mod_right]

end Sys2Proof.Machine
end

section
/-! PROOFS (O41 to O47). The passes of `QUANTIZE`: Threshold, Bayer and Floyd–Steinberg mode (40_quantizer.md R90, R93, R96 to
R101). -/

namespace Sys2Proof.Machine

section
variable {s : State}

/-! ## The operation -/

/-- What `QUANTIZE` of a legal configuration does: the image is the quantized one, the error state is cleared, the rest is kept
(40_quantizer.md R90). -/
theorem exec_quantize_spec (h : s.ConfigOk) :
    ∃ t, exec .quantize s = .next t ∧ t = { s with img := t.img, cfgErr := false, errCode := 0 } ∧
      ∀ a, t.readMem .img a = s.quantized.read s.powerOns .img a :=
  ⟨_, exec_quantize h, rfl, fun a => s.clearConfig.readMem_setMem_same .img s.quantized a⟩

theorem exec_quantize_next {t : State} (h : s.ConfigOk) (ht : exec .quantize s = .next t) :
    t = { s with img := t.img, cfgErr := false, errCode := 0 } ∧
      ∀ a, t.readMem .img a = s.quantized.read s.powerOns .img a := by
  obtain ⟨t', ht', hspec⟩ := exec_quantize_spec h
  cases ht'.symm.trans ht
  exact hspec

theorem State.quantized_threshold (h : s.mode = 0) : s.quantized = s.thresholdPass (s.contrastPass s.img) := if_pos h

theorem State.quantized_bayer (h : s.mode = 1) : s.quantized = s.bayerPass (s.contrastPass s.img) := by
  unfold State.quantized
  rw [if_neg (by rw [h]; decide), if_pos h]

theorem State.quantized_diffusion (h0 : s.mode ≠ 0) (h1 : s.mode ≠ 1) :
    s.quantized = s.fsPass (s.contrastPass s.img) := by
  unfold State.quantized
  rw [if_neg h0, if_neg h1]

/-- The pass of each mode, over the contrasted image (40_quantizer.md R90). -/
theorem State.quantized_cases (s : State) :
    s.quantized = s.thresholdPass (s.contrastPass s.img) ∨ s.quantized = s.bayerPass (s.contrastPass s.img) ∨
      s.quantized = s.fsPass (s.contrastPass s.img) := by
  by_cases h0 : s.mode = 0
  · exact .inl (State.quantized_threshold h0)
  · by_cases h1 : s.mode = 1
    · exact .inr (.inl (State.quantized_bayer h1))
    · exact .inr (.inr (State.quantized_diffusion h0 h1))

/-! ## The passes over independent pixels -/

theorem State.read_contrastPass (img : Memory) (a : Nat) :
    (s.contrastPass img).read s.powerOns .img a =
      if a < s.width * s.height then s.contrastOf (img.read s.powerOns .img a) else img.read s.powerOns .img a :=
  s.read_mapImg _ img a

theorem State.read_thresholdPass (img : Memory) (a : Nat) :
    (s.thresholdPass img).read s.powerOns .img a =
      if a < s.width * s.height then s.nearest (img.read s.powerOns .img a).toNat else img.read s.powerOns .img a :=
  s.read_mapImg _ img a

theorem State.read_bayerPass (img : Memory) (a : Nat) :
    (s.bayerPass img).read s.powerOns .img a =
      if a < s.width * s.height then
        s.nearest (((img.read s.powerOns .img a).toNat : Int) + s.bias (a % s.width) (a / s.width))
      else img.read s.powerOns .img a :=
  s.read_mapImg _ img a

/-- The column and the row of a pixel, from its offset (20_memory.md R42). -/
theorem State.offset_mod_div {x y : Nat} (hx : x < s.width) :
    (y * s.width + x) % s.width = x ∧ (y * s.width + x) / s.width = y := by
  rw [Nat.mul_comm y, Nat.mul_add_mod, Nat.mod_eq_of_lt hx, Nat.mul_add_div (by omega), Nat.div_eq_of_lt hx]
  exact ⟨rfl, rfl⟩

/-- Every offset in use is that of a pixel (20_memory.md R42). -/
theorem State.onPanel_of_offset {a : Nat} (h : a < s.width * s.height) : s.OnPanel (a % s.width) (a / s.width) :=
  ⟨Nat.mod_lt _ (Nat.pos_of_ne_zero fun h0 => by simp [h0] at h), Nat.div_lt_of_lt_mul h⟩

/-! ## Error diffusion, one pixel -/

theorem State.share_zero (h : s.strength = 0) (k : Nat) (err : Int) : s.share k err = 0 := by
  unfold State.share asr
  rw [h, show (0 : BitVec 9).toNat = 0 from rfl]
  omega

/-- The byte that a share of an error leaves in a neighbour (40_quantizer.md R98). -/
theorem State.toByte_share (s : State) (b : Byte) (k : Nat) (err : Int) :
    toByte (clamp255 ((b.toNat : Int) + s.share k err)) =
      BitVec.ofNat 8 (max 0 (min 255 ((b.toNat : Int) + (err * k * s.strength.toNat + 2048) / 4096))).toNat := by
  rw [toByte, clamp255_eq]
  rfl

theorem toByte_clamp255_byte (b : Byte) : toByte (clamp255 b.toNat) = b := by
  have hb := b.isLt
  have hval := toByte_clamp255_toNat b.toNat
  exact BitVec.eq_of_toNat_eq (by omega)

/-- A neighbour is a pixel in use, so `spread` leaves every byte beyond (40_quantizer.md R98). -/
theorem State.spread_beyond (nx ny : Int) (hy : 0 ≤ ny) (k : Nat) (err : Int) (img : Memory) {a : Nat}
    (h : s.width * s.height ≤ a) :
    (s.spread nx ny k err img).read s.powerOns .img a = img.read s.powerOns .img a := by
  rw [State.read_spread_any _ _ _ _ _ _ hy, if_neg]
  rintro ⟨-, hnx, hny, rfl⟩
  exact absurd (State.pixelOffset_lt ⟨hnx, hny⟩) (Nat.not_lt_of_le h)

theorem State.fsPixel_beyond {x y : Nat} (hp : s.OnPanel x y) (img : Memory) {a : Nat} (h : s.width * s.height ≤ a) :
    (s.fsPixel x y img).read s.powerOns .img a = img.read s.powerOns .img a := by
  have hpix := State.pixelOffset_lt hp
  unfold State.fsPixel
  rw [State.spread_beyond _ _ (by omega) _ _ _ h, State.spread_beyond _ _ (by omega) _ _ _ h,
    State.spread_beyond _ _ (by omega) _ _ _ h, State.spread_beyond _ _ (by omega) _ _ _ h, read_store, if_neg (by omega)]

/-- The pixel itself becomes the level nearest to it (40_quantizer.md R97). -/
theorem State.read_fsPixel_self {x y : Nat} (hp : s.OnPanel x y) (img : Memory) :
    (s.fsPixel x y img).read s.powerOns .img (y * s.width + x) =
      s.nearest (img.read s.powerOns .img (y * s.width + x)).toNat :=
  (s.read_fsPixel x y img hp _).trans (if_pos rfl)

/-- Without strength nothing is spread (40_quantizer.md R99). -/
theorem State.read_fsPixel_zero (h : s.strength = 0) {x y : Nat} (hp : s.OnPanel x y) (img : Memory) (a : Nat) :
    (s.fsPixel x y img).read s.powerOns .img a =
      if a = y * s.width + x then s.nearest (img.read s.powerOns .img a).toNat else img.read s.powerOns .img a := by
  rw [State.read_fsPixel _ _ _ _ hp]
  simp only [State.share_zero h, Int.add_zero, toByte_clamp255_byte, ite_self]
  split
  case isTrue ha => rw [ha]
  case isFalse => rfl

/-- What a pixel of error diffusion leaves at an offset depends on the pixel and on the byte there before (40_quantizer.md
R97). -/
theorem State.fsPixel_congr {x y : Nat} (hp : s.OnPanel x y) {m m' : Memory} {a : Nat}
    (hpix : m.read s.powerOns .img (y * s.width + x) = m'.read s.powerOns .img (y * s.width + x))
    (ha : m.read s.powerOns .img a = m'.read s.powerOns .img a) :
    (s.fsPixel x y m).read s.powerOns .img a = (s.fsPixel x y m').read s.powerOns .img a := by
  rw [State.read_fsPixel _ _ _ _ hp, State.read_fsPixel _ _ _ _ hp]
  simp only [hpix, ha]

/-! ## Error diffusion, the pass -/

theorem State.fsPass_beyond (img : Memory) {a : Nat} (h : s.width * s.height ≤ a) :
    (s.fsPass img).read s.powerOns .img a = img.read s.powerOns .img a :=
  s.fsPass_induct (fun _ m => m.read s.powerOns .img a = img.read s.powerOns .img a) img rfl
    fun _ _ m hp hm => (State.fsPixel_beyond hp m h).trans hm

/-- After `n` pixels of the pass the first `n` bytes are levels: the pixel itself becomes one, and no later pixel changes it
(40_quantizer.md R97, R100). -/
theorem State.fsPass_levels (hl : s.levelsUsed ≠ 0) (img : Memory) {a : Nat} (h : a < s.width * s.height) :
    ∃ k, k < s.levelsUsed ∧ ((s.fsPass img).read s.powerOns .img a).toNat = s.level k := by
  refine s.fsPass_induct
    (fun n m => a < n → ∃ k, k < s.levelsUsed ∧ (m.read s.powerOns .img a).toNat = s.level k) img
    (fun h0 => absurd h0 (Nat.not_lt_zero a)) ?_ h
  intro x y m hp ih ha
  rcases Nat.lt_succ_iff_lt_or_eq.1 ha with hlt | rfl
  · rw [s.fsPixel_earlier x y m hp a hlt]
    exact ih hlt
  · rw [State.read_fsPixel_self hp]
    exact State.nearest_is_level hl _

/-- Without strength the pass is Threshold mode's (40_quantizer.md R99). -/
theorem State.read_fsPass_zero (h : s.strength = 0) (img : Memory) (a : Nat) :
    (s.fsPass img).read s.powerOns .img a = (s.thresholdPass img).read s.powerOns .img a := by
  rw [State.read_thresholdPass]
  refine s.fsPass_induct
    (fun n m => m.read s.powerOns .img a =
      if a < n then s.nearest (img.read s.powerOns .img a).toNat else img.read s.powerOns .img a) img
    (if_neg (Nat.not_lt_zero a)).symm ?_
  intro x y m hp ih
  rw [State.read_fsPixel_zero h hp, ih]
  rcases Nat.lt_trichotomy a (y * s.width + x) with hlt | rfl | hgt
  · rw [if_neg (by omega), if_pos hlt, if_pos (by omega)]
  · rw [if_pos rfl, if_neg (by omega), if_pos (by omega)]
  · rw [if_neg (by omega), if_neg (by omega), if_neg (by omega)]

/-! ## Causality in raster order -/

/-- Two images hold the same bytes up to offset `n`. -/
def State.AgreeTo (s : State) (n : Nat) (m m' : Memory) : Prop :=
  ∀ a, a ≤ n → m.read s.powerOns .img a = m'.read s.powerOns .img a

variable {n : Nat} {m m' : Memory}

theorem State.AgreeTo.mapImg (h : s.AgreeTo n m m') (g : Nat → Byte → Byte) : s.AgreeTo n (s.mapImg g m) (s.mapImg g m') := by
  intro a ha
  rw [State.read_mapImg, State.read_mapImg, h a ha]

/-- A pixel beyond `n` changes no byte up to `n`, and one up to `n` is the same in both images (40_quantizer.md R97). -/
theorem State.AgreeTo.fsPixel (h : s.AgreeTo n m m') {x y : Nat} (hp : s.OnPanel x y) :
    s.AgreeTo n (s.fsPixel x y m) (s.fsPixel x y m') := by
  intro a ha
  by_cases hpix : y * s.width + x ≤ n
  · exact State.fsPixel_congr hp (h _ hpix) (h a ha)
  · rw [s.fsPixel_earlier x y m hp a (by omega), s.fsPixel_earlier x y m' hp a (by omega)]
    exact h a ha

theorem State.AgreeTo.fsStage (h : s.AgreeTo n m m') {k : Nat} (hk : k ≤ s.width * s.height) :
    s.AgreeTo n (s.fsStage m k) (s.fsStage m' k) := by
  induction k with
  | zero => exact h
  | succ k ih => exact (ih (by omega)).fsPixel (State.onPanel_of_offset (by omega))

theorem State.AgreeTo.fsPass (h : s.AgreeTo n m m') : s.AgreeTo n (s.fsPass m) (s.fsPass m') := by
  rw [State.fsPass_eq_fsStage, State.fsPass_eq_fsStage]
  exact h.fsStage (Nat.le_refl _)

theorem State.AgreeTo.quantized {img : Memory} (h : s.AgreeTo n s.img img) :
    s.AgreeTo n s.quantized (State.quantized { s with img := img }) := by
  have hc : s.AgreeTo n (s.contrastPass s.img) (s.contrastPass img) := h.mapImg _
  by_cases h0 : s.mode = 0
  · rw [State.quantized_threshold h0, State.quantized_threshold (s := { s with img := img }) h0]
    exact hc.mapImg _
  · by_cases h1 : s.mode = 1
    · rw [State.quantized_bayer h1, State.quantized_bayer (s := { s with img := img }) h1]
      exact hc.mapImg _
    · rw [State.quantized_diffusion h0 h1, State.quantized_diffusion (s := { s with img := img }) h0 h1]
      exact hc.fsPass

/-! ## The image after the operation -/

/-- Every byte in use is a level in use, in every mode (40_quantizer.md R100). -/
theorem State.quantized_levels (hl : s.levelsUsed ≠ 0) {a : Nat} (h : a < s.width * s.height) :
    ∃ k, k < s.levelsUsed ∧ (s.quantized.read s.powerOns .img a).toNat = s.level k := by
  rcases s.quantized_cases with hq | hq | hq
  · rw [hq, State.read_thresholdPass, if_pos h]
    exact State.nearest_is_level hl _
  · rw [hq, State.read_bayerPass, if_pos h]
    exact State.nearest_is_level hl _
  · rw [hq]
    exact State.fsPass_levels hl _ h

/-- No mode writes beyond the bytes in use (40_quantizer.md R90). -/
theorem State.quantized_beyond {a : Nat} (h : s.width * s.height ≤ a) :
    s.quantized.read s.powerOns .img a = s.readMem .img a := by
  have hout : ¬ a < s.width * s.height := Nat.not_lt_of_le h
  have hc : (s.contrastPass s.img).read s.powerOns .img a = s.readMem .img a := by
    rw [State.read_contrastPass, if_neg hout, State.readMem_img]
  rcases s.quantized_cases with hq | hq | hq
  · rw [hq, State.read_thresholdPass, if_neg hout, hc]
  · rw [hq, State.read_bayerPass, if_neg hout, hc]
  · rw [hq, State.fsPass_beyond _ h, hc]

/-- Threshold mode, byte by byte (40_quantizer.md R93). -/
theorem State.read_quantized_threshold (h : s.mode = 0) (a : Nat) :
    s.quantized.read s.powerOns .img a =
      if a < s.width * s.height then s.nearest (s.contrastOf (s.readMem .img a)).toNat else s.readMem .img a := by
  rw [State.quantized_threshold h, State.read_thresholdPass, State.read_contrastPass, State.readMem_img]
  split <;> rfl

/-- Bayer mode, pixel by pixel (40_quantizer.md R96). -/
theorem State.read_quantized_bayer (h : s.mode = 1) {x y : Nat} (hp : s.OnPanel x y) :
    s.quantized.read s.powerOns .img (y * s.width + x) =
      s.nearest (((s.contrastOf (s.readMem .img (y * s.width + x))).toNat : Int) + s.bias x y) := by
  have hin : y * s.width + x < s.width * s.height := State.pixelOffset_lt hp
  obtain ⟨hmod, hdiv⟩ := State.offset_mod_div (y := y) hp.1
  rw [State.quantized_bayer h, State.read_bayerPass, if_pos hin, State.read_contrastPass, if_pos hin, hmod, hdiv,
    State.readMem_img]

/-- In Threshold mode with gain 1.0 a byte that is a level in use keeps its value (40_quantizer.md R101). -/
theorem State.read_quantized_of_level (hm : s.mode = 0) (hg : s.contrast = 0x0100) {a : Nat}
    (h : a < s.width * s.height → ∃ k, k < s.levelsUsed ∧ (s.readMem .img a).toNat = s.level k) :
    s.quantized.read s.powerOns .img a = s.readMem .img a := by
  rw [State.read_quantized_threshold hm]
  split
  case isFalse => rfl
  case isTrue ha =>
    obtain ⟨k, hk, hlevel⟩ := h ha
    apply BitVec.eq_of_toNat_eq
    rw [State.contrastOf_gain_one hg, hlevel, State.nearest_level hk]

end

/-! ## The obligations -/

/-- Settles O45: the bytes in use mode by mode, those beyond by the frame of each pass. -/
theorem quantizedPixelsAreLevels : Obligations.QuantizedPixelsAreLevels := by
  intro s h
  have hl : s.levelsUsed ≠ 0 := by have := h.count; omega
  obtain ⟨t, ht, hframe, hread⟩ := exec_quantize_spec h
  refine ⟨t, ht, hframe, fun a ha => ?_, fun a ha => (hread a).trans (State.quantized_beyond ha)⟩
  rw [hread a]
  exact State.quantized_levels hl ha

/-- Settles O46: each pass keeps the agreement of two images up to an offset, error diffusion pixel by pixel. -/
theorem quantizeIsCausalInRasterOrder : Obligations.QuantizeIsCausalInRasterOrder := by
  intro s t u img n h himg ht hu a ha
  have h' : State.ConfigOk { s with img := img } := ⟨h.dims, h.tile, h.count, h.sorted, h.mode⟩
  rw [(exec_quantize_next h ht).2, (exec_quantize_next h' hu).2]
  exact State.AgreeTo.quantized himg a ha

/-- Settles O41: the Threshold pass over the contrast pass, byte by byte. -/
theorem thresholdModeQuantizesEachPixel : Obligations.ThresholdModeQuantizesEachPixel := by
  intro s h hm
  obtain ⟨t, ht, hframe, hread⟩ := exec_quantize_spec h
  exact ⟨t, ht, hframe, fun a => (hread a).trans (State.read_quantized_threshold hm a)⟩

/-- Settles O42: the Bayer pass over the contrast pass, pixel by pixel. -/
theorem bayerModeQuantizesWithBias : Obligations.BayerModeQuantizesWithBias := by
  intro s h hm
  obtain ⟨t, ht, hframe, hread⟩ := exec_quantize_spec h
  exact ⟨t, ht, hframe, fun x y hp => (hread _).trans (State.read_quantized_bayer hm hp),
    fun a ha => (hread a).trans (State.quantized_beyond ha)⟩

/-- Settles O43: `State.read_fsPixel` at each of the bytes named, and the stages of the pass as the chain. -/
theorem errorDiffusionRunsInRasterOrder : Obligations.ErrorDiffusionRunsInRasterOrder := by
  refine ⟨fun s img x y hp => ?_, fun s h hm => ?_⟩
  · have hx := hp.1
    have hw : (y + 1) * s.width = y * s.width + s.width := Nat.succ_mul _ _
    have hread := s.read_fsPixel x y img hp
    simp only [State.toByte_share, Nat.cast_ofNat, Nat.cast_one] at hread
    refine ⟨State.read_fsPixel_self hp img, fun hr => (hread _).trans ?_, fun h0 hd => (hread _).trans ?_,
      fun hd => (hread _).trans ?_, fun hr hd => (hread _).trans ?_, fun a hself hright hlow => (hread a).trans ?_⟩
    · rw [if_neg (by omega), if_pos ⟨hr, rfl⟩]
    · rw [if_neg (by omega), if_neg (by omega), if_pos ⟨h0, hd, rfl⟩]
    · rw [if_neg (by omega), if_neg (by omega), if_neg (by omega), if_pos ⟨hd, rfl⟩]
    · rw [if_neg (by omega), if_neg (by omega), if_neg (by omega), if_neg (by omega), if_pos ⟨hr, hd, rfl⟩]
    · rw [if_neg hself, if_neg fun e => hright e.1 e.2, if_neg fun e => (hlow e.2.1).1 e.1 e.2.2,
        if_neg fun e => (hlow e.1).2.1 e.2, if_neg fun e => (hlow e.2.1).2.2 e.1 e.2.2]
  · obtain ⟨t, ht, hframe, hread⟩ := exec_quantize_spec h
    refine ⟨t, s.fsStage (s.contrastPass s.img), ht, hframe, State.read_contrastPass s.img,
      fun x y hp => s.fsStage_succ _ hp, fun a => (hread a).trans ?_⟩
    rw [State.quantized_diffusion (by rw [hm]; decide) (by rw [hm]; decide), State.fsPass_eq_fsStage]

/-- Settles O44: without strength the pass of Floyd–Steinberg mode leaves what Threshold mode's leaves. -/
theorem errorDiffusionWithoutStrengthIsThreshold : Obligations.ErrorDiffusionWithoutStrengthIsThreshold := by
  intro s t u h hm hs ht hu a
  have h' : State.ConfigOk { s with mode := 0 } := ⟨h.dims, h.tile, h.count, h.sorted, Nat.zero_le 2⟩
  rw [(exec_quantize_next h ht).2, (exec_quantize_next h' hu).2,
    State.quantized_threshold (s := { s with mode := 0 }) rfl,
    State.quantized_diffusion (by rw [hm]; decide) (by rw [hm]; decide)]
  exact State.read_fsPass_zero hs _ a

/-- Settles O47: the first `QUANTIZE` leaves levels, which the second keeps. -/
theorem quantizingTwiceIsQuantizingOnce : Obligations.QuantizingTwiceIsQuantizingOnce := by
  intro s t u h hm hg ht hu a
  obtain ⟨t', ht', hframe, hlevels, -⟩ := quantizedPixelsAreLevels s h
  cases ht'.symm.trans ht
  generalize t.img = m at hframe
  subst hframe
  have h' : State.ConfigOk { s with img := m, cfgErr := false, errCode := 0 } :=
    ⟨h.dims, h.tile, h.count, h.sorted, h.mode⟩
  rw [(exec_quantize_next h' hu).2]
  exact State.read_quantized_of_level (s := { s with img := m, cfgErr := false, errCode := 0 }) hm hg (hlevels a)

end Sys2Proof.Machine
end

section
/-! PROOFS (O48, O49). Where the thresholds lie between the levels (41_encoder.md R111, R120). -/

namespace Sys2Proof.Machine

section
variable {s : State}

/-! ## The order of the levels and of the thresholds -/

/-- A sorted table ascends over all the levels in use, not only from one to the next (10_state.md R24). -/
theorem State.LevelsSorted.strictMonoOn (h : s.LevelsSorted) : StrictMonoOn s.level (Set.Iio s.levelsUsed) :=
  strictMonoOn_of_lt_add_one Set.ordConnected_Iio fun i _ _ hi => h i hi

theorem State.LevelsSorted.level_mono (h : s.LevelsSorted) {i j : Nat} (hij : i ≤ j) (hj : j < s.levelsUsed) :
    s.level i ≤ s.level j :=
  h.strictMonoOn.monotoneOn (Nat.lt_of_le_of_lt hij hj) hj hij

/-- The midpoint lies from the lower level on and below the upper one (41_encoder.md R111). -/
theorem State.LevelsSorted.threshold_between (h : s.LevelsSorted) {i : Nat} (hi : i + 1 < s.levelsUsed) :
    s.level i ≤ s.threshold i ∧ s.threshold i < s.level (i + 1) := by
  have hlt := h i hi
  unfold State.threshold
  omega

theorem State.LevelsSorted.threshold_mono (h : s.LevelsSorted) {i j : Nat} (hji : j ≤ i) (hi : i + 1 < s.levelsUsed) :
    s.threshold j ≤ s.threshold i :=
  Nat.div_le_div_right (Nat.add_le_add (h.level_mono hji (by omega)) (h.level_mono (by omega) hi))

/-- The comparator is strict, so a level lies below its own midpoint only where the gap above it is at least 2
(90_conflicts.md C7). -/
theorem State.level_lt_threshold_self (s : State) (i : Nat) :
    s.level i < s.threshold i ↔ s.level i + 2 ≤ s.level (i + 1) := by
  unfold State.threshold
  omega

/-- Which layers a level lies in (41_encoder.md R120). -/
theorem State.LevelsSorted.level_lt_threshold_iff (h : s.LevelsSorted) {i k : Nat} (hi : i + 1 < s.levelsUsed)
    (hk : k < s.levelsUsed) :
    s.level k < s.threshold i ↔ k < i ∨ (k = i ∧ s.level k + 2 ≤ s.level (k + 1)) := by
  obtain ⟨hlow, hup⟩ := h.threshold_between hi
  rcases Nat.lt_trichotomy k i with hlt | rfl | hgt
  · have hki : s.level k < s.level i := h.strictMonoOn hk (Nat.lt_of_succ_lt hi) hlt
    exact iff_of_true (by omega) (.inl hlt)
  · rw [State.level_lt_threshold_self]
    simp
  · have hik : s.level (i + 1) ≤ s.level k := h.level_mono hgt hk
    exact iff_of_false (by omega) (by omega)

/-! ## Listed tables -/

/-- The first thresholds are the midpoints of neighbours in the list of the first levels (41_encoder.md R111). -/
theorem State.map_threshold (s : State) (n : Nat) :
    (List.range n).map s.threshold =
      List.zipWith (fun a b => (a + b) / 2) ((List.range n).map s.level) ((List.range (n + 1)).map s.level).tail := by
  rw [List.range_succ_eq_map, List.map_cons, List.tail_cons, List.map_map, List.zipWith_map, List.zipWith_self]
  rfl

end

/-! ## The obligations -/

/-- Settles O48: each threshold between its two levels, monotone because the levels are; the listed values by computation. -/
theorem thresholdsLieBetweenTheirLevels : Obligations.ThresholdsLieBetweenTheirLevels := by
  refine ⟨fun s h i hi => ?_, by decide, fun s hlevels => ?_⟩
  · obtain ⟨hlow, hup⟩ := h.threshold_between hi
    have hmid : s.threshold i = (s.level i + s.level (i + 1)) / 2 := rfl
    have hbyte := s.level_lt (i + 1)
    exact ⟨by omega, by omega, by omega, hlow, hup, fun j hj => h.threshold_mono hj hi⟩
  · have hlow : (List.range 7).map s.level = [0, 36, 73, 109, 146, 182, 219] := by
      simpa [← List.map_take] using congrArg (List.take 7) hlevels
    rw [State.map_threshold, hlevels, hlow]
    rfl

/-- Settles O49: `State.LevelsSorted.level_lt_threshold_iff`, and its two cases by the size of the gaps. -/
theorem layersOfALevel : Obligations.LayersOfALevel := by
  intro s i k h hi hk
  have hiff := h.level_lt_threshold_iff hi hk
  refine ⟨hiff, fun hgaps => ?_, fun hgap => ?_⟩
  · rw [hiff, Nat.le_iff_lt_or_eq (n := k)]
    refine or_congr_right (and_iff_left_of_imp ?_)
    rintro rfl
    exact hgaps k hi
  · obtain ⟨hlow, hup⟩ := h.threshold_between hi
    omega

end Sys2Proof.Machine
end

section
/-! PROOFS (O50). The stream `ENCODE` appends (41_encoder.md R110, R113, R117, R118). -/

namespace Sys2Proof.Machine

section
variable (s : State)

/-- The preamble in canonical text: CLEAR, WHITEOUT, DELAY, CLEAR (41_encoder.md R113). -/
theorem State.preamble_lines :
    s.preamble.flatMap commandLine =
      [0x30, 0x31, 0x0A, 0x30, 0x32, 0x0A] ++ ([0x44, 0x45, 0x4C, 0x41, 0x59, 0x20] ++ decimal s.delayMs ++ [0x0A]) ++
        [0x30, 0x31, 0x0A] := by
  have hclear : commandLine .clear = [0x30, 0x31, 0x0A] := by decide
  have hwhiteout : commandLine .whiteout = [0x30, 0x32, 0x0A] := by decide
  have hdelay : commandLine (.delay s.delayMs) = [0x44, 0x45, 0x4C, 0x41, 0x59, 0x20] ++ decimal s.delayMs ++ [0x0A] := rfl
  simp [State.preamble, hclear, hwhiteout, hdelay]

/-- A layer in canonical text: its tiles, then ENDLAYER and CLEAR (41_encoder.md R117). -/
theorem State.layer_lines (i : Nat) :
    (s.layer i).flatMap commandLine =
      (s.layerTiles (s.threshold i)).flatMap commandLine ++ [0x30, 0x35, 0x0A, 0x30, 0x31, 0x0A] := by
  unfold State.layer
  rw [List.flatMap_append]
  rfl

/-- The tiles of every layer, lightest first (41_encoder.md R112). -/
def State.tilesByLayer : List (List Instr) := s.layerOrder.map fun i => s.layerTiles (s.threshold i)

theorem State.tilesByLayer_length : s.tilesByLayer.length = s.levelsUsed - 1 := by
  simp [State.tilesByLayer, State.layerOrder]

/-- The layers count down from threshold `L-2` (41_encoder.md R112). -/
theorem State.tilesByLayer_getElem? {n : Nat} (h : n < s.levelsUsed - 1) :
    s.tilesByLayer[n]? = some (s.layerTiles (s.threshold (s.levelsUsed - 2 - n))) := by
  have hindex : s.levelsUsed - 1 - 1 - n = s.levelsUsed - 2 - n := by omega
  simp [State.tilesByLayer, State.layerOrder, h, hindex]

/-- The stream: the preamble, then every layer's tiles and epilogue (41_encoder.md R118). -/
theorem State.encodedStream_eq :
    s.encodedStream = s.preamble.flatMap commandLine ++
      s.tilesByLayer.flatMap (fun tiles => tiles.flatMap commandLine ++ [0x30, 0x35, 0x0A, 0x30, 0x31, 0x0A]) := by
  unfold State.encodedStream State.encodedCommands State.tilesByLayer
  rw [List.flatMap_append, List.flatMap_assoc, List.flatMap_map]
  simp only [State.layer_lines]

end

/-! ## The obligation -/

/-- Settles O50: past its check `ENCODE` appends the stream, whose layers are `State.tilesByLayer`. -/
theorem encodeAppendsOneStream : Obligations.EncodeAppendsOneStream := by
  intro s h
  refine ⟨s.tilesByLayer, s.tilesByLayer_length, fun n hn => ?_, ?_⟩
  · exact s.tilesByLayer_getElem? (s.tilesByLayer_length ▸ hn)
  · have hstream := s.encodedStream_eq
    rw [s.preamble_lines] at hstream
    have hout : s.clearConfig.encodeImg =
        { s with cfgErr := false, errCode := 0, csOut := s.csOut ++ s.encodedStream } := rfl
    rw [exec_encode h, hout, hstream]
    simp only [List.append_assoc]

end Sys2Proof.Machine
end

section
/-! PROOFS (O51, O52). The tiles of a layer: the tiles of the grid that hold a pixel below the threshold, in raster order
(41_encoder.md R114 to R116). -/

namespace Sys2Proof.Machine

/-! ## The tile at a grid origin -/

/-- Width of the tile at column `tx`, clipped to the panel (41_encoder.md R114). -/
def State.tileWidth (s : State) (tx : Nat) : Nat := min s.tileSize.toNat (s.width - tx)

/-- Height of the tile at row `ty`, clipped to the panel (41_encoder.md R114). -/
def State.tileHeight (s : State) (ty : Nat) : Nat := min s.tileSize.toNat (s.height - ty)

/-- `(tx, ty)` is the origin of a tile of the grid (41_encoder.md R114). -/
structure State.GridOrigin (s : State) (tx ty : Nat) : Prop where
  onPanel : s.OnPanel tx ty
  dvd_x : s.tileSize.toNat ∣ tx
  dvd_y : s.tileSize.toNat ∣ ty

/-- The command for the tile at a grid origin (41_encoder.md R116). -/
def State.gridTile (s : State) (t tx ty : Nat) : Instr :=
  .tile (BitVec.ofNat 8 tx) (BitVec.ofNat 8 ty) 0 0 (BitVec.ofNat 8 (s.tileWidth tx)) (BitVec.ofNat 8 (s.tileHeight ty))
    (packTile (s.tileWidth tx) (s.tileHeight ty) fun c r => s.maskBit t (tx + c) (ty + r))

section
variable {s : State} {t tx ty : Nat} {i : Instr}

/-- `encode_tile` emits the tile exactly where a pixel of it is below the threshold (41_encoder.md R116). -/
theorem State.mem_encodeTile_iff {w h : Nat} :
    i ∈ s.encodeTile t tx ty w h ↔
      (∃ c r, c < w ∧ r < h ∧ s.pixel (tx + c) (ty + r) < t) ∧
        i = .tile (BitVec.ofNat 8 tx) (BitVec.ofNat 8 ty) 0 0 (BitVec.ofNat 8 w) (BitVec.ofNat 8 h)
          (packTile w h fun c r => s.maskBit t (tx + c) (ty + r)) := by
  have hany : (List.range h).any (fun r => (List.range w).any fun c => s.maskBit t (tx + c) (ty + r)) = true ↔
      ∃ c r, c < w ∧ r < h ∧ s.pixel (tx + c) (ty + r) < t := by
    simp only [List.any_eq_true, List.mem_range, State.maskBit, decide_eq_true_eq, State.pixel]
    exact ⟨fun ⟨r, hr, c, hc, hd⟩ => ⟨c, r, hc, hr, hd⟩, fun ⟨c, r, hc, hr, hd⟩ => ⟨r, hr, c, hc, hd⟩⟩
  unfold State.encodeTile
  rw [← hany]
  dsimp only
  split
  case isTrue hd => simp [hd]
  case isFalse hd => simp [hd]

/-- The commands of a layer, one for each tile of the grid that holds a pixel below the threshold (41_encoder.md R114, R116). -/
theorem State.mem_layerTiles (ht : s.tileSize.toNat ≠ 0) :
    i ∈ s.layerTiles t ↔
      ∃ tx ty, s.GridOrigin tx ty ∧
        (∃ c r, c < s.tileWidth tx ∧ r < s.tileHeight ty ∧ s.pixel (tx + c) (ty + r) < t) ∧ i = s.gridTile t tx ty := by
  unfold State.layerTiles
  simp only [List.mem_flatMap, mem_tileOrigins (Nat.pos_of_ne_zero ht), State.mem_encodeTile_iff]
  constructor
  · rintro ⟨ty, ⟨hdy, hy⟩, tx, ⟨hdx, hx⟩, hdark, hi⟩
    exact ⟨tx, ty, ⟨⟨hx, hy⟩, hdx, hdy⟩, hdark, hi⟩
  · rintro ⟨tx, ty, ⟨⟨hx, hy⟩, hdx, hdy⟩, hdark, hi⟩
    exact ⟨ty, ⟨hdy, hy⟩, tx, ⟨hdx, hx⟩, hdark, hi⟩

/-! ## The operands as bytes -/

theorem byte_ofNat_toNat {n : Nat} (h : n ≤ 255) : (BitVec.ofNat 8 n).toNat = n := by
  rw [BitVec.toNat_ofNat]
  exact Nat.mod_eq_of_lt (by omega)

theorem State.byte_x_toNat (hx : tx < s.width) : (BitVec.ofNat 8 tx).toNat = tx :=
  byte_ofNat_toNat (Nat.le_trans hx.le s.width_le)

theorem State.byte_y_toNat (hy : ty < s.height) : (BitVec.ofNat 8 ty).toNat = ty :=
  byte_ofNat_toNat (Nat.le_trans hy.le s.height_le)

theorem State.byte_tileWidth_toNat (s : State) (tx : Nat) : (BitVec.ofNat 8 (s.tileWidth tx)).toNat = s.tileWidth tx :=
  byte_ofNat_toNat (Nat.le_trans (Nat.min_le_left _ _) (Nat.le_of_lt_succ s.tileSize.isLt))

theorem State.byte_tileHeight_toNat (s : State) (ty : Nat) : (BitVec.ofNat 8 (s.tileHeight ty)).toNat = s.tileHeight ty :=
  byte_ofNat_toNat (Nat.le_trans (Nat.min_le_left _ _) (Nat.le_of_lt_succ s.tileSize.isLt))

theorem State.gridTile_wellFormed (s : State) (t tx ty : Nat) : (s.gridTile t tx ty).wellFormed = true := by
  show tilePayloadFits _ _ _ = true
  unfold tilePayloadFits
  rw [State.byte_tileWidth_toNat, State.byte_tileHeight_toNat, packTile_length]
  exact beq_self_eq_true _

/-! ## Raster order -/

/-- Tile `i` stands before tile `j` in raster order: in an earlier tile row, or further left in the same one
(41_encoder.md R110). -/
def TileBefore (i j : Instr) : Prop :=
  ∀ x y w h payload x' y' w' h' payload', i = .tile x y 0 0 w h payload → j = .tile x' y' 0 0 w' h' payload' →
    y.toNat < y'.toNat ∨ (y = y' ∧ x.toNat < x'.toNat)

/-- What `encode_tile` emits at two origins of the panel stands in the order of the origins. -/
theorem State.tileBefore_of_origins {tx' ty' w h w' h' : Nat} {j : Instr} (hp : s.OnPanel tx ty) (hp' : s.OnPanel tx' ty')
    (hlt : ty < ty' ∨ (ty = ty' ∧ tx < tx')) (hi : i ∈ s.encodeTile t tx ty w h) (hj : j ∈ s.encodeTile t tx' ty' w' h') :
    TileBefore i j := by
  rintro x y w₁ h₁ payload x' y' w₁' h₁' payload' rfl rfl
  obtain ⟨rfl, rfl, -⟩ := Instr.tile.inj (State.mem_encodeTile hi)
  obtain ⟨rfl, rfl, -⟩ := Instr.tile.inj (State.mem_encodeTile hj)
  rw [State.byte_x_toNat hp.1, State.byte_x_toNat hp'.1, State.byte_y_toNat hp.2, State.byte_y_toNat hp'.2]
  exact hlt.imp_right fun ⟨hy, hx⟩ => ⟨congrArg _ hy, hx⟩

/-- `encode_tile` emits at most one command (41_encoder.md R116). -/
theorem State.encodeTile_pairwise (R : Instr → Instr → Prop) (s : State) (t tx ty w h : Nat) :
    (s.encodeTile t tx ty w h).Pairwise R := by
  unfold State.encodeTile
  dsimp only
  split
  · exact List.pairwise_singleton _ _
  · exact List.Pairwise.nil

/-- The commands of a layer stand in raster order (41_encoder.md R110, R114). -/
theorem State.layerTiles_pairwise (ht : s.tileSize.toNat ≠ 0) (t : Nat) : (s.layerTiles t).Pairwise TileBefore := by
  have hpos := Nat.pos_of_ne_zero ht
  unfold State.layerTiles
  refine List.pairwise_flatMap.2 ⟨fun ty hty => List.pairwise_flatMap.2 ⟨fun tx _ => State.encodeTile_pairwise .., ?_⟩, ?_⟩
  · refine (tileOrigins_ascend hpos s.width).imp_of_mem fun hx hx' hlt i hi j hj => ?_
    have hy := ((mem_tileOrigins hpos).1 hty).2
    exact State.tileBefore_of_origins ⟨((mem_tileOrigins hpos).1 hx).2, hy⟩ ⟨((mem_tileOrigins hpos).1 hx').2, hy⟩
      (.inr ⟨rfl, hlt⟩) hi hj
  · refine (tileOrigins_ascend hpos s.height).imp_of_mem fun hy hy' hlt i hi j hj => ?_
    obtain ⟨tx, hx, hi⟩ := List.mem_flatMap.1 hi
    obtain ⟨tx', hx', hj⟩ := List.mem_flatMap.1 hj
    exact State.tileBefore_of_origins
      ⟨((mem_tileOrigins hpos).1 hx).2, ((mem_tileOrigins hpos).1 hy).2⟩
      ⟨((mem_tileOrigins hpos).1 hx').2, ((mem_tileOrigins hpos).1 hy').2⟩ (.inl hlt) hi hj

/-! ## Coverage -/

/-- The grid covers a side: `p` lies in the cell that begins at `p / ts * ts`, clipped to the side (41_encoder.md R114). -/
theorem gridCell_covers {ts n p : Nat} (hts : 0 < ts) (hp : p < n) :
    p / ts * ts ≤ p ∧ p - p / ts * ts < min ts (n - p / ts * ts) := by
  have hdiv : p / ts * ts + p % ts = p := Nat.div_add_mod' p ts
  have hmod : p % ts < ts := Nat.mod_lt p hts
  omega

/-- A pixel below the threshold lies in an emitted tile (41_encoder.md R116). -/
theorem State.exists_gridTile_of_dark (ht : s.tileSize.toNat ≠ 0) {px py : Nat} (hp : s.OnPanel px py)
    (hdark : s.pixel px py < t) :
    ∃ tx ty, s.OnPanel tx ty ∧ s.gridTile t tx ty ∈ s.layerTiles t ∧ tx ≤ px ∧ px < tx + s.tileWidth tx ∧
      ty ≤ py ∧ py < ty + s.tileHeight ty := by
  have hpos := Nat.pos_of_ne_zero ht
  obtain ⟨hx, hw⟩ := gridCell_covers hpos hp.1
  obtain ⟨hy, hh⟩ := gridCell_covers hpos hp.2
  have hpanel := And.intro (Nat.lt_of_le_of_lt hx hp.1) (Nat.lt_of_le_of_lt hy hp.2)
  refine ⟨_, _, hpanel, (State.mem_layerTiles ht).2 ⟨_, _,
    ⟨hpanel, Nat.dvd_mul_left _ _, Nat.dvd_mul_left _ _⟩, ⟨_, _, hw, hh, ?_⟩, rfl⟩, hx,
    (Nat.sub_lt_iff_lt_add' hx).1 hw, hy, (Nat.sub_lt_iff_lt_add' hy).1 hh⟩
  rw [Nat.add_sub_cancel' hx, Nat.add_sub_cancel' hy]
  exact hdark

end

/-! ## The obligations -/

/-- Settles O51: a command of a layer is the tile at a grid origin, and the decoder reads from its payload what the encoder
packed. -/
theorem emittedTilesAreTheMask : Obligations.EmittedTilesAreTheMask := by
  refine fun s t ht => ⟨fun i hi => ?_, State.layerTiles_pairwise ht t⟩
  obtain ⟨tx, ty, ⟨⟨hx, hy⟩, hdx, hdy⟩, hdark, rfl⟩ := (State.mem_layerTiles ht).1 hi
  refine ⟨_, _, _, _, _, rfl, s.gridTile_wellFormed t tx ty, ?_⟩
  rw [State.byte_x_toNat hx, State.byte_y_toNat hy, State.byte_tileWidth_toNat, State.byte_tileHeight_toNat]
  exact ⟨⟨hx, hy⟩, hdx, hdy, rfl, rfl, hdark, fun c r hc hr => payloadBit_packTile _ _ _ c r hc hr,
    fun c r hc hpad hr => payloadBit_packTile_pad _ _ _ c r hc hpad hr⟩

/-- Settles O52: the tile of a pixel's grid cell is emitted; conversely an emitted tile names a pixel of the panel below the
threshold. -/
theorem everyDarkPixelIsInATile : Obligations.EveryDarkPixelIsInATile := by
  refine fun s t ht => ⟨fun px py hp hdark => ?_, fun hlight => List.eq_nil_iff_forall_not_mem.2 fun i hi => ?_⟩
  · obtain ⟨tx, ty, ⟨hx, hy⟩, hmem, hcover⟩ := State.exists_gridTile_of_dark ht hp hdark
    refine ⟨_, _, _, _, _, hmem, ?_⟩
    rwa [State.byte_x_toNat hx, State.byte_y_toNat hy, State.byte_tileWidth_toNat, State.byte_tileHeight_toNat]
  · obtain ⟨tx, ty, -, ⟨c, r, hc, hr, hdark⟩, -⟩ := (State.mem_layerTiles ht).1 hi
    have hp : s.OnPanel (tx + c) (ty + r) :=
      ⟨Nat.add_lt_of_lt_sub' (Nat.lt_min.1 hc).2, Nat.add_lt_of_lt_sub' (Nat.lt_min.1 hr).2⟩
    exact Nat.not_lt_of_le (hlight _ _ hp) hdark

end Sys2Proof.Machine
end

section
/-! PROOFS (O18 to O26). What each command of the stream does to the framebuffer, the screen and the log, and what it leaves
(42_decoder.md R130 to R136). -/

namespace Sys2Proof.Machine

section
variable (s : State)

/-! ## The two whole-memory commands -/

/-- The framebuffer after `CLEAR` (42_decoder.md R131). -/
theorem State.readMem_clearFb (a : Nat) :
    s.clearFb.readMem .fb a = if a < s.width * s.lineBytes then 0xFF else s.readMem .fb a :=
  (s.readMem_setMem_same .fb _ a).trans (read_fill ..)

/-- The screen after `WHITEOUT` (42_decoder.md R132). -/
theorem State.readMem_whiteoutPs (a : Nat) :
    s.whiteoutPs.readMem .ps a = if a < s.width * s.height then 255 else s.readMem .ps a :=
  (s.readMem_setMem_same .ps _ a).trans (read_fill ..)

/-! ## `ENDLAYER` -/

/-- A screen byte after `ENDLAYER`, by offset (42_decoder.md R135). -/
theorem State.readMem_endLayerPs (a : Nat) :
    s.endLayerPs.readMem .ps a =
      if a < s.width * s.height then (s.darkened a).getD (s.readMem .ps a) else s.readMem .ps a :=
  (s.readMem_setMem_same .ps _ a).trans (read_update ..)

/-- What `ENDLAYER` makes of one byte: `GRAY_STEP` less, floored at 0, where its pixel is black (42_decoder.md R135). -/
theorem State.darkened_toNat (a : Nat) :
    ((s.darkened a).getD (s.readMem .ps a)).toNat =
      if s.getPixel (a % s.width) (a / s.width) = false then (s.readMem .ps a).toNat - s.grayStep.toNat
      else (s.readMem .ps a).toNat := by
  have hbyte : (s.readMem .ps a).toNat - s.grayStep.toNat ≤ 255 := by
    have := (s.readMem .ps a).isLt; omega
  unfold State.darkened
  cases s.getPixel (a % s.width) (a / s.width) with
  | true => rfl
  | false => exact byte_ofNat_toNat hbyte

/-- A screen byte after `ENDLAYER`, by pixel (42_decoder.md R135). -/
theorem State.endLayerPs_pixel {x y : Nat} (h : s.OnPanel x y) :
    (s.endLayerPs.readMem .ps (y * s.width + x)).toNat =
      if s.getPixel x y = false then (s.readMem .ps (y * s.width + x)).toNat - s.grayStep.toNat
      else (s.readMem .ps (y * s.width + x)).toNat := by
  have hused : y * s.width + x < s.width * s.height := State.pixelOffset_lt h
  obtain ⟨hx, hy⟩ := s.offset_mod_div (y := y) h.1
  rw [s.readMem_endLayerPs, if_pos hused, s.darkened_toNat, hx, hy]

/-! ## `TILE` and `RECT` -/

theorem State.outside_iff (x y : Byte) : s.outside x y = true ↔ ¬ s.OnPanel x.toNat y.toNat := by
  unfold State.outside State.OnPanel
  rw [Bool.or_eq_true, decide_eq_true_eq, decide_eq_true_eq]
  omega

/-- What `TILE` and `RECT` have in common: paint a rectangle, or log where it begins off the panel (42_decoder.md R130, R133,
R134). -/
def State.draw (x y w h : Nat) (white : Nat → Nat → Bool) (s : State) : State :=
  if s.OnPanel x y then s.setMem .fb (s.paint x y w h white s.fb) else s.logDiag .outOfPanel

theorem State.drawTile_eq (x y w h : Byte) (payload : List Byte) :
    s.drawTile x y w h payload = s.draw x.toNat y.toNat w.toNat h.toNat fun c r => !payloadBit w.toNat payload c r := by
  unfold State.drawTile State.draw
  rw [if_congr (s.outside_iff x y) rfl rfl, ite_not, State.tilePixels_eq]

theorem State.drawRect_eq (x1 y1 x2 y2 color : Byte) :
    s.drawRect x1 y1 x2 y2 color =
      s.draw x1.toNat y1.toNat (x2.toNat + 1 - x1.toNat) (y2.toNat + 1 - y1.toNat) fun _ _ => color == 1 := by
  unfold State.drawRect State.draw
  rw [if_congr (s.outside_iff x1 y1) rfl rfl, ite_not, State.rectPixels_eq]

section
variable {x y : Nat} (w h : Nat) (white : Nat → Nat → Bool)

theorem State.draw_onPanel (hp : s.OnPanel x y) : s.draw x y w h white = s.setMem .fb (s.paint x y w h white s.fb) := if_pos hp

theorem State.draw_offPanel (hp : ¬ s.OnPanel x y) : s.draw x y w h white = s.logDiag .outOfPanel := if_neg hp

theorem State.draw_fb (x y : Nat) :
    (s.draw x y w h white).fb = s.fb ∨ (s.draw x y w h white).fb = s.paint x y w h white s.fb := by
  by_cases hp : s.OnPanel x y
  · rw [s.draw_onPanel w h white hp]; exact .inr rfl
  · rw [s.draw_offPanel w h white hp]; exact .inl rfl

theorem State.draw_ps (x y : Nat) : (s.draw x y w h white).ps = s.ps := by
  unfold State.draw
  split <;> rfl

theorem State.draw_powerOns (x y : Nat) : (s.draw x y w h white).powerOns = s.powerOns := by
  unfold State.draw
  split <;> rfl

end

/-- A pixel of the panel after a rectangle has been painted (20_memory.md R46, R47). -/
theorem State.getPixel_paint (x y w h : Nat) (white : Nat → Nat → Bool) {px py : Nat} (hp : s.OnPanel px py) :
    (s.setMem .fb (s.paint x y w h white s.fb)).getPixel px py =
      if (x ≤ px ∧ px < x + w) ∧ y ≤ py ∧ py < y + h then white (px - x) (py - y) else s.getPixel px py := by
  rw [State.getPixel_eq, State.getPixel_eq, ← s.fbPixel_paint x y w h white s.fb hp]
  rfl

end

/-! ## Every command -/

/-- What a command can do to the framebuffer: nothing, fill the bytes in use, or paint a rectangle (42_decoder.md R131, R133,
R134). -/
theorem State.runCommand_fb (i : Instr) (s : State) :
    (s.runCommand i).fb = s.fb ∨ (s.runCommand i).fb = s.fb.fill (s.width * s.lineBytes) 0xFF ∨
      ∃ x y w h white, (s.runCommand i).fb = s.paint x y w h white s.fb := by
  cases i with
  | clear => exact .inr (.inl rfl)
  | tile x y _ _ w h payload =>
    simp only [State.runCommand, State.drawTile_eq]
    exact (s.draw_fb _ _ _ _ _).imp_right fun hpaint => .inr ⟨_, _, _, _, _, hpaint⟩
  | rect x1 y1 x2 y2 color =>
    simp only [State.runCommand, State.drawRect_eq]
    exact (s.draw_fb _ _ _ _ _).imp_right fun hpaint => .inr ⟨_, _, _, _, _, hpaint⟩
  | _ => exact .inl rfl

/-- What a command can do to the screen: nothing, or what `WHITEOUT` or `ENDLAYER` does (42_decoder.md R132, R135). -/
theorem State.runCommand_ps (i : Instr) (s : State) :
    (s.runCommand i).ps = s.ps ∨ i = .whiteout ∨ i = .endLayer := by
  cases i with
  | whiteout => exact .inr (.inl rfl)
  | endLayer => exact .inr (.inr rfl)
  | tile x y _ _ w h payload =>
    simp only [State.runCommand, State.drawTile_eq]
    exact .inl (s.draw_ps ..)
  | rect x1 y1 x2 y2 color =>
    simp only [State.runCommand, State.drawRect_eq]
    exact .inl (s.draw_ps ..)
  | _ => exact .inl rfl

/-- `i` is a `TILE` or `RECT` with this origin and this width and height, `w` and `h` counted from the corners of a `RECT`. -/
def DrawsRectangle (i : Instr) (x y x' y' : Byte) (w h : Nat) : Prop :=
  (∃ res0 res1 bw bh payload, i = .tile x y res0 res1 bw bh payload ∧ w = bw.toNat ∧ h = bh.toNat) ∨
    ∃ color, i = .rect x y x' y' color ∧ w = x'.toNat + 1 - x.toNat ∧ h = y'.toNat + 1 - y.toNat

/-- A `TILE` or `RECT` draws its rectangle (42_decoder.md R133, R134). -/
theorem exec_draws {s t : State} {i : Instr} {x y x' y' : Byte} {w h : Nat} (hi : DrawsRectangle i x y x' y' w h)
    (ht : exec i s = .next t) : ∃ white, t = s.draw x.toNat y.toNat w h white := by
  rcases hi with ⟨res0, res1, bw, bh, payload, rfl, rfl, rfl⟩ | ⟨color, rfl, rfl, rfl⟩
  · exact ⟨_, (Host.Outcome.next.inj ht).symm.trans (s.drawTile_eq ..)⟩
  · exact ⟨_, (Host.Outcome.next.inj ht).symm.trans (s.drawRect_eq ..)⟩

/-- The mask of a pixel names its bit (20_memory.md R44). -/
theorem bitMask_eq_shift {n : Nat} (hn : n < 8) (y : Nat) : bitMask y = (0x80 : Byte) >>> n ↔ 7 - n = 7 - y % 8 := by
  have hshift : (0x80 : Byte) >>> n = bitMask n := by unfold bitMask; rw [Nat.mod_eq_of_lt hn]
  have hy : y % 8 < 8 := Nat.mod_lt _ (by decide)
  rw [hshift]
  constructor
  · intro h
    have := bitMask_inj h
    omega
  · intro h
    unfold bitMask
    congr 1
    omega

/-! ## The obligations -/

/-- Settles O18: `CLEAR` is one fill of the bytes in use. -/
theorem clearWhitensTheFramebuffer : Obligations.ClearWhitensTheFramebuffer :=
  fun s => ⟨_, rfl, rfl, s.readMem_clearFb⟩

/-- Settles O19: `WHITEOUT` is one fill of the bytes in use. -/
theorem whiteoutWhitensTheScreen : Obligations.WhiteoutWhitensTheScreen :=
  fun s => ⟨_, rfl, rfl, s.readMem_whiteoutPs⟩

/-- Settles O20: the tile is a rectangle painted in the complement of its payload bits. -/
theorem tilePaintsItsRectangle : Obligations.TilePaintsItsRectangle := by
  intro s x y res0 res1 w h payload _ horigin
  refine ⟨_, congrArg Host.Outcome.next ((s.drawTile_eq ..).trans (s.draw_onPanel _ _ _ horigin)), rfl, fun px py hp => ?_⟩
  rw [s.getPixel_paint _ _ _ _ _ hp]
  exact if_congr and_assoc rfl rfl

/-- Settles O21: the rectangle is painted from the first corner, as wide and as high as the corners lie apart. -/
theorem rectFillsItsRectangle : Obligations.RectFillsItsRectangle := by
  intro s x1 y1 x2 y2 color horigin
  refine ⟨_, congrArg Host.Outcome.next ((s.drawRect_eq ..).trans (s.draw_onPanel _ _ _ horigin)), rfl, fun px py hp => ?_⟩
  have hwhite : (color == 1) = decide (color.toNat = 1) := by
    rw [Bool.eq_iff_iff, beq_iff_eq, decide_eq_true_eq]
    exact BitVec.toNat_inj.symm
  rw [s.getPixel_paint _ _ _ _ _ hp, hwhite]
  exact if_congr (by omega) rfl rfl

/-- Settles O22: painting writes only the bits of the rectangle's pixels on the panel. -/
theorem drawingLeavesOtherBytesAndPadBits : Obligations.DrawingLeavesOtherBytesAndPadBits := by
  intro s t x y x' y' w h i hi ht
  obtain ⟨white, rfl⟩ := exec_draws hi ht
  have hpower := s.draw_powerOns w h white x.toNat y.toNat
  rcases s.draw_fb w h white x.toNat y.toNat with hsame | hpaint
  · simp only [State.readMem_fb, hpower, hsame, implies_true, and_self]
  · simp only [State.readMem_fb, hpower, hpaint]
    refine ⟨fun a ha => s.read_paint _ _ _ _ _ _ a ha, fun a n hn ha => ?_⟩
    exact s.paint_otherBits _ _ _ _ _ _ a (7 - n) (by omega) fun X Y hp ⟨hbyte, hbit⟩ =>
      ha X Y hp ⟨hbyte, (bitMask_eq_shift hn Y).2 hbit⟩

/-- Settles O23: both commands are `State.draw`, which off the panel only logs. -/
theorem originOffThePanelIsLogged : Obligations.OriginOffThePanelIsLogged := fun s _ _ hoff =>
  ⟨fun _ _ _ _ _ => congrArg Host.Outcome.next ((s.drawTile_eq ..).trans (s.draw_offPanel _ _ _ hoff)),
    fun _ _ _ => congrArg Host.Outcome.next ((s.drawRect_eq ..).trans (s.draw_offPanel _ _ _ hoff))⟩

/-- Settles O24: the byte of a pixel stands at the offset whose row and column are the pixel's. -/
theorem endLayerDarkensBlackPixels : Obligations.EndLayerDarkensBlackPixels :=
  fun s => ⟨_, rfl, rfl, fun _ _ hp => s.endLayerPs_pixel hp,
    fun a ha => (s.readMem_endLayerPs a).trans (if_neg (Nat.not_lt_of_le ha))⟩

/-- Settles O25: a timing hint has no effect on the state. -/
theorem delayChangesNothing : Obligations.DelayChangesNothing := fun _ _ => rfl

/-- Settles O26: of the other commands only `ENDLAYER` writes the screen, and it subtracts. -/
theorem onlyWhiteoutRaisesTheScreen : Obligations.OnlyWhiteoutRaisesTheScreen := by
  intro i s t hc hi ht a
  obtain rfl := Host.Outcome.next.inj ((exec_command hc s).symm.trans ht)
  rcases s.runCommand_ps i with hsame | rfl | rfl
  · have hread : (s.runCommand i).readMem .ps a = s.readMem .ps a := by
      rw [s.runCommand_frame i, State.readMem_ps, State.readMem_ps, hsame]
    exact hread ▸ Nat.le_refl _
  · exact absurd rfl hi
  · show (s.endLayerPs.readMem .ps a).toNat ≤ _
    rw [s.readMem_endLayerPs]
    split
    · rw [s.darkened_toNat]
      split
      · exact Nat.sub_le _ _
      · exact Nat.le_refl _
    · exact Nat.le_refl _

end Sys2Proof.Machine
end

section
/-! PROOFS (O35). What the decoder can reach, whatever the bytes of `CS_IN`: one command line, then a run (42_decoder.md R138,
10_state.md R38). -/

namespace Sys2Proof.Machine

/-- The decoder can lead from `s` to `t`: the memories as before beyond the bytes in use, the log grown at its end, and nothing
else changed but the decoder's own state (10_state.md R38). -/
structure State.DecodesTo (s t : State) : Prop where
  frame : t = { s with csIn := t.csIn, lineNo := t.lineNo, diag := t.diag, fb := t.fb, ps := t.ps, decIdle := t.decIdle }
  fb : ∀ a, s.width * s.lineBytes ≤ a → t.readMem .fb a = s.readMem .fb a
  ps : ∀ a, s.width * s.height ≤ a → t.readMem .ps a = s.readMem .ps a
  log : ∃ records, t.diag = s.diag ++ records

theorem State.DecodesTo.refl (s : State) : s.DecodesTo s := ⟨rfl, fun _ _ => rfl, fun _ _ => rfl, [], by simp⟩

section
variable {s t u : State}

theorem State.DecodesTo.width (h : s.DecodesTo t) : t.width = s.width := by rw [h.frame]; rfl
theorem State.DecodesTo.height (h : s.DecodesTo t) : t.height = s.height := by rw [h.frame]; rfl
theorem State.DecodesTo.lineBytes (h : s.DecodesTo t) : t.lineBytes = s.lineBytes := by rw [h.frame]; rfl

theorem State.DecodesTo.trans (h : s.DecodesTo t) (h' : t.DecodesTo u) : s.DecodesTo u where
  frame := by rw [h'.frame, h.frame]
  fb a ha := (h'.fb a (by rwa [h.width, h.lineBytes])).trans (h.fb a ha)
  ps a ha := (h'.ps a (by rwa [h.width, h.height])).trans (h.ps a ha)
  log := by
    obtain ⟨r, hr⟩ := h.log
    obtain ⟨r', hr'⟩ := h'.log
    exact ⟨r ++ r', by rw [hr', hr, List.append_assoc]⟩

/-! ## One command line -/

theorem State.decodesTo_takeLines (n : Nat) (rest : List Byte) (s : State) : s.DecodesTo (s.takeLines n rest) :=
  ⟨rfl, fun _ _ => rfl, fun _ _ => rfl, [], by simp⟩

theorem State.decodesTo_setIdle (b : Bool) (s : State) : s.DecodesTo (s.setIdle b) :=
  ⟨rfl, fun _ _ => rfl, fun _ _ => rfl, [], by simp⟩

theorem State.decodesTo_logDiag (e : LineError) (s : State) : s.DecodesTo (s.logDiag e) :=
  ⟨rfl, fun _ _ => rfl, fun _ _ => rfl, _, rfl⟩

/-- A command writes the framebuffer only where a pixel of the panel, or a pad bit beside one, lies (20_memory.md R45, R47). -/
theorem State.runCommand_fb_beyond (i : Instr) (s : State) {a : Nat} (ha : s.width * s.lineBytes ≤ a) :
    (s.runCommand i).fb.read s.powerOns .fb a = s.fb.read s.powerOns .fb a := by
  rcases s.runCommand_fb i with hsame | hfill | ⟨x, y, w, h, white, hpaint⟩
  · rw [hsame]
  · rw [hfill, read_fill, if_neg (Nat.not_lt_of_le ha)]
  · rw [hpaint]
    refine s.read_paint x y w h white s.fb a fun X Y hp _ _ _ _ he => ?_
    have := State.byteIndex_lt hp
    omega

/-- A command writes the screen only where a pixel of the panel lies (20_memory.md R42). -/
theorem State.runCommand_ps_beyond (i : Instr) (s : State) {a : Nat} (ha : s.width * s.height ≤ a) :
    (s.runCommand i).ps.read s.powerOns .ps a = s.ps.read s.powerOns .ps a := by
  rcases s.runCommand_ps i with hsame | rfl | rfl
  · rw [hsame]
  · exact (s.readMem_whiteoutPs a).trans (if_neg (Nat.not_lt_of_le ha))
  · exact (s.readMem_endLayerPs a).trans (if_neg (Nat.not_lt_of_le ha))

theorem State.decodesTo_runCommand (i : Instr) (s : State) : s.DecodesTo (s.runCommand i) := by
  have hpower : (s.runCommand i).powerOns = s.powerOns := by rw [s.runCommand_frame i]
  refine ⟨?_, fun a ha => ?_, fun a ha => ?_, ?_⟩
  · have hframe := s.runCommand_frame i
    generalize s.runCommand i = t at hframe ⊢
    rw [hframe]
  · rw [State.readMem_fb, State.readMem_fb, hpower, s.runCommand_fb_beyond i ha]
  · rw [State.readMem_ps, State.readMem_ps, hpower, s.runCommand_ps_beyond i ha]
  · rcases s.runCommand_diag i with hsame | ⟨e, hone⟩
    · exact ⟨[], by rw [hsame, List.append_nil]⟩
    · exact ⟨_, hone⟩

/-- A step of the decoder, good line or bad, none or some (43_host_ops.md R163). -/
theorem State.decodesTo_stepLine (s : State) : s.DecodesTo s.stepLine := by
  have htake := s.decodesTo_takeLines (fetchLine s.csIn).lines (fetchLine s.csIn).rest
  cases hf : (fetchLine s.csIn).found with
  | idle => rw [State.stepLine_idle hf]; exact htake.trans (State.decodesTo_setIdle _ _)
  | error e =>
    rw [State.stepLine_error hf]
    exact (htake.trans (State.decodesTo_logDiag e _)).trans (State.decodesTo_setIdle _ _)
  | command i =>
    rw [State.stepLine_command hf]
    exact (htake.trans (State.decodesTo_runCommand i _)).trans (State.decodesTo_setIdle _ _)

/-! ## The operations -/

theorem State.decodesTo_runLines (fuel : Nat) (stop : Option Nat) (s : State) : s.DecodesTo (s.runLines fuel stop) :=
  State.runLines_keeps s.DecodesTo (fun t ht => ht.trans t.decodesTo_stepLine) fuel stop s (.refl s)

/-- Past its check a decoder operation on the queue leads where the decoder can lead; besides, it may use up the stop request
(log 5). -/
theorem exec_decodesTo {i : Instr} (hi : i = .decStep ∨ i = .decRun) (h : s.DimsOk) :
    ∃ t stop, exec i s = .next (t.setStop stop) ∧ s.clearConfig.DecodesTo t := by
  rcases hi with rfl | rfl
  · exact ⟨_, s.clearConfig.stepLine.stopAfter, exec_decStep h, State.decodesTo_stepLine _⟩
  · exact ⟨_, none, exec_decRun h, State.decodesTo_runLines _ _ _⟩

end

/-! ## The obligation -/

/-- Settles O35: every line keeps `State.DecodesTo`, hence so does every run. -/
theorem noInputStopsOrEscapesTheDecoder : Obligations.NoInputStopsOrEscapesTheDecoder := by
  intro s i hi hdims
  obtain ⟨t, stop, hexec, ht⟩ := exec_decodesTo hi hdims
  have hframe := congrArg (State.setStop stop) ht.frame
  refine ⟨_, hexec, ?_, ?_, ht.fb, ht.ps, ht.log, hframe⟩
  · rw [hframe]; rfl
  · rw [hframe]; rfl

end Sys2Proof.Machine
end

section
/-! PROOFS (O53). Replaying an encoded stream: a run over well-formed commands is the fold of their effects, and each layer takes
one `GRAY_STEP` from the pixels below its threshold (42_decoder.md R139). -/

namespace Sys2Proof.Machine

/-! ## A run over a stream of commands -/

/-- The effects of commands, one after the other. -/
def State.runCommands (cmds : List Instr) (s : State) : State := cmds.foldl (fun s i => s.runCommand i) s

@[simp] theorem State.runCommands_nil (s : State) : s.runCommands [] = s := rfl

@[simp] theorem State.runCommands_cons (i : Instr) (cmds : List Instr) (s : State) :
    s.runCommands (i :: cmds) = (s.runCommand i).runCommands cmds := rfl

theorem State.runCommands_append (cmds cmds' : List Instr) (s : State) :
    s.runCommands (cmds ++ cmds') = (s.runCommands cmds).runCommands cmds' := List.foldl_append

/-- The state without where the decoder stands in its stream: no command's drawing reads that. -/
def State.offStream (s : State) : State := { s with csIn := [], lineNo := 0, decIdle := false }

/-- Where a command begins to draw, for the commands that draw (42_decoder.md R133, R134). -/
def drawOrigin : Instr → Option (Byte × Byte)
  | .tile x y .. => some (x, y)
  | .rect x1 y1 .. => some (x1, y1)
  | _ => none

/-- A command that the decoder takes from a stream without a record, on a panel of this size: it is well formed and begins to draw
on the panel (42_decoder.md R130). -/
structure Replayable (width height : Nat) (i : Instr) : Prop where
  wellFormed : i.wellFormed = true
  isCommand : i.isCommand = true
  origin : ∀ p ∈ drawOrigin i, p.1.toNat < width ∧ p.2.toNat < height

section
variable {s : State} {i : Instr}

theorem State.offStream_draw {x y : Nat} (w h : Nat) (white : Nat → Nat → Bool) (hp : s.OnPanel x y) :
    (s.draw x y w h white).offStream = s.offStream.draw x y w h white := by
  rw [s.draw_onPanel w h white hp, s.offStream.draw_onPanel w h white hp]
  rfl

/-- What a command that adds no record does is the same wherever in the stream it stands. -/
theorem State.offStream_runCommand (h : Replayable s.width s.height i) :
    (s.runCommand i).offStream = s.offStream.runCommand i := by
  cases i with
  | tile x y _ _ w hh payload =>
    simp only [State.runCommand, State.drawTile_eq]
    exact State.offStream_draw _ _ _ (h.origin (x, y) rfl)
  | rect x1 y1 x2 y2 color =>
    simp only [State.runCommand, State.drawRect_eq]
    exact State.offStream_draw _ _ _ (h.origin (x1, y1) rfl)
  | _ => rfl

/-- A step of the decoder at the head of an emitted command takes and executes it (43_host_ops.md R163). -/
theorem State.stepLine_commandLine {rest : List Byte} (h : Replayable s.width s.height i)
    (hq : s.csIn = commandLine i ++ rest) :
    s.stepLine.csIn = rest ∧ s.stepLine.decIdle = false ∧ s.stepLine.offStream = s.offStream.runCommand i := by
  have hfetch := emittedCommandIsTakenWhole i rest h.wellFormed h.isCommand
  rw [← hq] at hfetch
  refine ⟨by rw [State.stepLine_csIn, hfetch], by rw [State.stepLine_decIdle, hfetch]; rfl, ?_⟩
  rw [State.stepLine_command (congrArg Fetched.found hfetch)]
  exact State.offStream_runCommand (s := s.takeLines _ _) h

/-- A step of the decoder at the end of the stream only finds it idle (43_host_ops.md R163). -/
theorem State.stepLine_empty (hq : s.csIn = []) :
    s.stepLine.csIn = [] ∧ s.stepLine.decIdle = true ∧ s.stepLine.offStream = s.offStream := by
  have hfetch : fetchLine s.csIn = { lines := 0, rest := [], found := .idle } := by rw [hq]; rfl
  refine ⟨by rw [State.stepLine_csIn, hfetch], by rw [State.stepLine_decIdle, hfetch]; rfl, ?_⟩
  rw [State.stepLine_idle (congrArg Fetched.found hfetch)]
  rfl

/-- A run over a stream of emitted commands consumes it and has the effects of the commands in order (43_host_ops.md R164). -/
theorem State.runLines_commands {cmds : List Instr} {fuel : Nat} (h : ∀ i ∈ cmds, Replayable s.width s.height i)
    (hq : s.csIn = cmds.flatMap commandLine) (hfuel : s.csIn.length < fuel) :
    (s.runLines fuel none).csIn = [] ∧ (s.runLines fuel none).offStream = s.offStream.runCommands cmds := by
  induction fuel generalizing s cmds with
  | zero => omega
  | succ fuel ih =>
    unfold State.runLines
    cases cmds with
    | nil =>
      obtain ⟨hempty, hidle, heffect⟩ := State.stepLine_empty hq
      rw [if_pos hidle]
      exact ⟨hempty, heffect⟩
    | cons i cmds =>
      have hi := h i (by simp)
      obtain ⟨hrest, hbusy, heffect⟩ := State.stepLine_commandLine hi hq
      have hsize := s.decodesTo_stepLine
      have hshorter : s.stepLine.csIn.length < s.csIn.length := by
        have hline : 0 < (commandLine i).length := by simp [commandLine]
        rw [hrest, hq, List.flatMap_cons, List.length_append]
        exact Nat.lt_add_of_pos_left hline
      rw [if_neg (by simp [hbusy])]
      have hnext := ih (s := s.stepLine) (cmds := cmds)
        (fun j hj => by rw [hsize.width, hsize.height]; exact h j (by simp [hj])) hrest (by omega)
      rwa [heffect] at hnext

end

/-! ## The commands of an encoded stream -/

section
variable {s : State}

theorem State.replayable_layerTiles {t : Nat} (ht : s.tileSize.toNat ≠ 0) {i : Instr} (hi : i ∈ s.layerTiles t) :
    Replayable s.width s.height i := by
  obtain ⟨x, y, w, h, payload, rfl, hwf, hpanel, -⟩ := (emittedTilesAreTheMask s t ht).1 i hi
  refine ⟨hwf, rfl, ?_⟩
  rintro _ ⟨⟩
  exact hpanel

theorem replayable_clear (width height : Nat) : Replayable width height .clear := ⟨rfl, rfl, fun _ h => nomatch h⟩
theorem replayable_whiteout (width height : Nat) : Replayable width height .whiteout := ⟨rfl, rfl, fun _ h => nomatch h⟩
theorem replayable_endLayer (width height : Nat) : Replayable width height .endLayer := ⟨rfl, rfl, fun _ h => nomatch h⟩
theorem replayable_delay (width height : Nat) (ms : Word) : Replayable width height (.delay ms) :=
  ⟨rfl, rfl, fun _ h => nomatch h⟩

/-- Every command the encoder emits is taken without a record (41_encoder.md R113, R114, R117). -/
theorem State.replayable_encodedCommands (ht : s.tileSize.toNat ≠ 0) {i : Instr} (hi : i ∈ s.encodedCommands) :
    Replayable s.width s.height i := by
  have preamble : ∀ i ∈ s.preamble, Replayable s.width s.height i := by
    simp [State.preamble, replayable_clear, replayable_whiteout, replayable_delay]
  have epilogue : ∀ i ∈ [Instr.endLayer, .clear], Replayable s.width s.height i := by
    simp [replayable_clear, replayable_endLayer]
  rcases List.mem_append.1 hi with hi | hi
  · exact preamble i hi
  · obtain ⟨k, -, hi⟩ := List.mem_flatMap.1 hi
    exact (List.mem_append.1 hi).elim (State.replayable_layerTiles ht) (epilogue i)

end

/-! ## The tiles of a layer -/

/-- Pixel `(px, py)` lies in the rectangle of a tile (42_decoder.md R133). -/
def covers (px py : Nat) : Instr → Bool
  | .tile x y _ _ w h _ =>
    decide (x.toNat ≤ px ∧ px < x.toNat + w.toNat ∧ y.toNat ≤ py ∧ py < y.toNat + h.toNat)
  | _ => false

section
variable {s d : State} {t : Nat}

/-- An emitted tile, replayed on a panel of the same size, writes the mask's pixels of its rectangle (41_encoder.md R116,
42_decoder.md R133). -/
theorem State.runCommand_layerTile (ht : s.tileSize.toNat ≠ 0) (hw : d.width = s.width) (hh : d.height = s.height) {i : Instr}
    (hi : i ∈ s.layerTiles t) :
    d.runCommand i = { d with fb := (d.runCommand i).fb } ∧
      ∀ px py, s.OnPanel px py →
        (d.runCommand i).getPixel px py = if covers px py i then decide (t ≤ s.pixel px py) else d.getPixel px py := by
  obtain ⟨x, y, w, h, payload, rfl, -, hpanel, -, -, -, -, -, hbits, -⟩ := (emittedTilesAreTheMask s t ht).1 i hi
  have hd (px py : Nat) : d.OnPanel px py ↔ s.OnPanel px py := by unfold State.OnPanel; rw [hw, hh]
  have hdraw : d.runCommand (.tile x y 0 0 w h payload) = _ :=
    (d.drawTile_eq ..).trans (d.draw_onPanel _ _ _ ((hd _ _).2 hpanel))
  rw [hdraw]
  refine ⟨rfl, fun px py hp => ?_⟩
  rw [d.getPixel_paint _ _ _ _ _ ((hd px py).2 hp)]
  refine if_ctx_congr (by simp [covers, and_assoc]) (fun hc => ?_) fun _ => rfl
  obtain ⟨hx, hx', hy, hy'⟩ := of_decide_eq_true hc
  have hbit := hbits (px - x.toNat) (py - y.toNat) (by omega) (by omega)
  rw [Nat.add_sub_cancel' hx, Nat.add_sub_cancel' hy] at hbit
  rw [hbit, ← decide_not]
  exact decide_eq_decide.2 Nat.not_lt

/-- Emitted tiles, replayed one after the other, write the mask's pixels of all their rectangles. -/
theorem State.runCommands_layerTiles (ht : s.tileSize.toNat ≠ 0) (hw : d.width = s.width) (hh : d.height = s.height)
    {tiles : List Instr} (hi : ∀ i ∈ tiles, i ∈ s.layerTiles t) :
    d.runCommands tiles = { d with fb := (d.runCommands tiles).fb } ∧
      ∀ px py, s.OnPanel px py →
        (d.runCommands tiles).getPixel px py =
          if tiles.any (covers px py) then decide (t ≤ s.pixel px py) else d.getPixel px py := by
  induction tiles generalizing d with
  | nil => exact ⟨rfl, fun px py _ => by simp⟩
  | cons i tiles ih =>
    obtain ⟨hframe, hpixel⟩ := State.runCommand_layerTile ht hw hh (hi i (by simp))
    have hw' : (d.runCommand i).width = s.width := by rw [hframe]; exact hw
    have hh' : (d.runCommand i).height = s.height := by rw [hframe]; exact hh
    obtain ⟨hframe', hpixel'⟩ := ih hw' hh' fun j hj => hi j (by simp [hj])
    rw [State.runCommands_cons]
    refine ⟨by rw [hframe', hframe], fun px py hp => ?_⟩
    rw [hpixel' px py hp, hpixel px py hp]
    cases hc : covers px py i with
    | true => simp [hc]
    | false => simp [hc]

/-- After the tiles of a layer on a white framebuffer exactly the pixels below the threshold are black (41_encoder.md R116,
R119). -/
theorem State.runCommands_layer_mask (ht : s.tileSize.toNat ≠ 0) (hw : d.width = s.width) (hh : d.height = s.height)
    (hwhite : ∀ px py, s.OnPanel px py → d.getPixel px py = true) :
    d.runCommands (s.layerTiles t) = { d with fb := (d.runCommands (s.layerTiles t)).fb } ∧
      ∀ px py, s.OnPanel px py →
        (d.runCommands (s.layerTiles t)).getPixel px py = decide (t ≤ s.pixel px py) := by
  obtain ⟨hframe, hpixel⟩ := State.runCommands_layerTiles ht hw hh (t := t) fun _ hi => hi
  refine ⟨hframe, fun px py hp => ?_⟩
  rw [hpixel px py hp]
  split
  case isTrue => rfl
  case isFalse huncovered =>
    have hlight : t ≤ s.pixel px py := by
      by_contra hdark
      obtain ⟨x, y, w, h, payload, hmem, hcovers⟩ := (everyDarkPixelIsInATile s t ht).1 px py hp (Nat.lt_of_not_le hdark)
      exact huncovered (List.any_eq_true.2 ⟨_, hmem, decide_eq_true hcovers⟩)
    rw [hwhite px py hp, decide_eq_true hlight]

end

/-! ## The invariant between two layers -/

/-- The replaying decoder `d` between two layers of the stream of `s`: its framebuffer is white, its log is still `log`, and
`n x y` times `step` has been taken from every screen byte (42_decoder.md R139). -/
structure State.Replayed (s : State) (log : List DiagRecord) (step : Nat) (n : Nat → Nat → Nat) (d : State) : Prop where
  width : d.width = s.width
  height : d.height = s.height
  grayStep : d.grayStep.toNat = step
  diag : d.diag = log
  screen : ∀ x y, s.OnPanel x y → (d.readMem .ps (y * s.width + x)).toNat = 255 - n x y * step
  white : ∀ a, a < s.width * s.lineBytes → d.readMem .fb a = 0xFF

section
variable {s d : State} {log : List DiagRecord} {step : Nat} {n : Nat → Nat → Nat}

theorem State.lineBytes_congr (h : d.height = s.height) : d.lineBytes = s.lineBytes := by
  unfold State.lineBytes; rw [h]

/-- Where every byte in use is 0xFF every pixel of the panel is white (20_memory.md R46). -/
theorem State.Replayed.getPixel (h : s.Replayed log step n d) {x y : Nat} (hp : s.OnPanel x y) : d.getPixel x y = true := by
  have hp' : d.OnPanel x y := ⟨h.width ▸ hp.1, h.height ▸ hp.2⟩
  have hused := State.byteIndex_lt hp'
  rw [h.width, State.lineBytes_congr h.height] at hused
  have hones : ∀ k : Fin 8, (0xFF : Byte).getLsbD k.val = true := by decide
  rw [State.getPixel_eq, State.fbPixel, ← State.readMem_fb, h.white _ hused]
  exact hones ⟨7 - y % 8, by omega⟩

/-- The preamble whitens the framebuffer and the screen (41_encoder.md R113). -/
theorem State.replayed_preamble (hw : d.width = s.width) (hh : d.height = s.height) :
    s.Replayed d.diag d.grayStep.toNat (fun _ _ => 0) (d.runCommands s.preamble) where
  width := hw
  height := hh
  grayStep := rfl
  diag := rfl
  screen x y hp := by
    have hused : y * s.width + x < d.width * d.height := by rw [hw, hh]; exact State.pixelOffset_lt hp
    have hbyte : (d.runCommands s.preamble).readMem .ps (y * s.width + x) = 255 :=
      (d.clearFb.readMem_whiteoutPs _).trans (if_pos hused)
    rw [hbyte, Nat.zero_mul]
    rfl
  white a ha := by
    rw [← hw, ← State.lineBytes_congr hh] at ha
    exact (d.clearFb.whiteoutPs.readMem_clearFb a).trans (if_pos ha)

/-- A layer darkens the pixels below its threshold by one step and leaves the framebuffer white (41_encoder.md R116, R117,
42_decoder.md R135). -/
theorem State.Replayed.layer (h : s.Replayed log step n d) (ht : s.tileSize.toNat ≠ 0) (k : Nat) :
    s.Replayed log step (fun x y => n x y + if s.pixel x y < s.threshold k then 1 else 0) (d.runCommands (s.layer k)) := by
  obtain ⟨hframe, hmask⟩ := State.runCommands_layer_mask ht h.width h.height (t := s.threshold k) fun _ _ => h.getPixel
  have hepilogue : d.runCommands (s.layer k) = (d.runCommands (s.layerTiles (s.threshold k))).endLayerPs.clearFb :=
    d.runCommands_append _ _
  rw [hepilogue]
  generalize d.runCommands (s.layerTiles (s.threshold k)) = e at hframe hmask ⊢
  have hw : e.width = s.width := by rw [hframe]; exact h.width
  have hh : e.height = s.height := by rw [hframe]; exact h.height
  have hstep : e.grayStep.toNat = step := by rw [hframe]; exact h.grayStep
  refine ⟨hw, hh, hstep, by rw [← h.diag, hframe]; rfl, fun x y hp => ?_, fun a ha => ?_⟩
  · have hscreen : (e.readMem .ps (y * s.width + x)).toNat = 255 - n x y * step := by
      rw [hframe]; exact h.screen x y hp
    have hdarken := e.endLayerPs_pixel (x := x) (y := y) ⟨hw ▸ hp.1, hh ▸ hp.2⟩
    rw [hw, hmask x y hp, hscreen, hstep] at hdarken
    refine hdarken.trans ?_
    by_cases hdark : s.pixel x y < s.threshold k
    · rw [if_pos (decide_eq_false (Nat.not_le_of_lt hdark)), if_pos hdark, Nat.sub_sub, Nat.succ_mul]
    · rw [if_neg (by simpa using hdark), if_neg hdark, Nat.add_zero]
  · rw [← hw, ← State.lineBytes_congr hh] at ha
    exact (e.endLayerPs.readMem_clearFb a).trans (if_pos ha)

/-- Layers one after the other (41_encoder.md R118). -/
theorem State.Replayed.layers (h : s.Replayed log step n d) (ht : s.tileSize.toNat ≠ 0) (ks : List Nat) :
    s.Replayed log step (fun x y => n x y + ks.countP fun k => decide (s.pixel x y < s.threshold k))
      (d.runCommands (ks.flatMap s.layer)) := by
  induction ks generalizing d n with
  | nil => exact h
  | cons k ks ih =>
    have hks := ih (h.layer ht k)
    rw [List.flatMap_cons, State.runCommands_append]
    simpa [List.countP_cons, Nat.add_assoc, Nat.add_comm] using hks

end

/-! ## The obligation -/

/-- The thresholds a pixel lies below, counted in the order of the layers (41_encoder.md R112, 42_decoder.md R139). -/
theorem State.countP_layerOrder (s : State) (x y : Nat) :
    (s.layerOrder.countP fun k => decide (s.pixel x y < s.threshold k)) = s.layersOf x y := by
  unfold State.layerOrder State.layersOf
  rw [List.countP_reverse, List.countP_eq_length_filter]

/-- What the commands of a whole stream leave on a panel of the same size (41_encoder.md R118, 42_decoder.md R139). -/
theorem State.replayed_encodedCommands {s d : State} (ht : s.tileSize.toNat ≠ 0) (hw : d.width = s.width)
    (hh : d.height = s.height) :
    s.Replayed d.diag d.grayStep.toNat s.layersOf (d.runCommands s.encodedCommands) := by
  have hlayers := (State.replayed_preamble hw hh).layers ht s.layerOrder
  rw [← State.runCommands_append] at hlayers
  simp only [Nat.zero_add, State.countP_layerOrder] at hlayers
  exact hlayers

/-- Settles O53: the run has the effects of the emitted commands, which are those of the preamble and of every layer. -/
theorem replayRestoresTheGrays : Obligations.ReplayRestoresTheGrays := by
  intro s u d hs hencode hpw hph hout hin hstop
  have hw : d.width = s.width := congrArg BitVec.toNat hpw
  have hh : d.height = s.height := congrArg BitVec.toNat hph
  obtain rfl := Host.Outcome.next.inj ((exec_encode hs).symm.trans hencode)
  have hstream : d.clearConfig.csIn = s.encodedCommands.flatMap commandLine := by
    show d.csIn = _
    rw [hin]
    show s.csOut ++ _ = _
    rw [hout]
    rfl
  have hreplayable : ∀ i ∈ s.encodedCommands, Replayable d.clearConfig.width d.clearConfig.height i := by
    show ∀ i ∈ _, Replayable d.width d.height i
    rw [hw, hh]
    exact fun i hi => State.replayable_encodedCommands hs.tile hi
  obtain ⟨hempty, hpicture⟩ := State.runLines_commands hreplayable hstream (Nat.lt_succ_self _)
  obtain ⟨hidle, -⟩ := State.runLines_ends _ d.clearConfig (Nat.lt_succ_self _)
  have hgrays : s.Replayed _ _ _ _ :=
    State.replayed_encodedCommands (d := d.clearConfig.offStream) hs.tile hw hh
  rw [← hpicture] at hgrays
  have hdims : d.DimsOk := by
    unfold State.DimsOk
    rw [hw, hh]
    exact hs.dims
  refine ⟨_, exec_decRun hdims, ?_⟩
  unfold State.runStream
  rw [State.clearConfig_stopAfter, hstop]
  exact ⟨hgrays.screen, hgrays.white, hgrays.diag, hempty, hidle⟩

end Sys2Proof.Machine
end

section
/-! PROOFS (O27, O28, O30). `DEC_STEP` by what stands at the head of `CS_IN`: a command line, an ignored line, no whole line
(43_host_ops.md R163). -/

namespace Sys2Proof

theorem decodeLine_of_decode_ok {raw : List Byte} {i : Instr} (h : decode (.line raw) = .ok i) :
    decodeLine raw = .command i := by
  unfold decode at h
  cases hline : decodeLine raw <;> simp only [hline] at h <;> cases h
  rfl

theorem decodeLine_of_decode_ignored {raw : List Byte} (h : decode (.line raw) = .error .blankOrComment) :
    decodeLine raw = .ignored := by
  unfold decode at h
  cases hline : decodeLine raw <;> simp only [hline] at h <;> cases h
  rfl

end Sys2Proof

namespace Sys2Proof.Machine

theorem satAdd_zero (w : Word) : satAdd w 0 = w := by
  apply BitVec.eq_of_toNat_eq
  have := w.isLt
  rw [satAdd_toNat]
  unfold maxWord
  omega

section
variable {s : State} {raw rest : List Byte}

theorem State.takeLines_takeLines (s : State) (m n : Nat) (q q' : List Byte) :
    (s.takeLines m q).takeLines n q' = s.takeLines (n + m) q' := by
  unfold State.takeLines
  rw [satAdd_add, Nat.add_comm m n]

/-- Taking no line and leaving the queue as it is changes nothing. -/
theorem State.takeLines_zero (s : State) : s.takeLines 0 s.csIn = s := by
  unfold State.takeLines
  rw [satAdd_zero]

/-- A search that first passed over a line is the rest of the search in the state that has taken that line. -/
theorem State.takeFetched_afterIgnored (s : State) (f : Fetched) (q : List Byte) :
    s.takeFetched f.afterIgnored = (s.takeLines 1 q).takeFetched f := by
  unfold State.takeFetched Fetched.afterIgnored
  simp only [State.takeLines_takeLines]

theorem State.stepLine_commandHead {i : Instr} (hq : s.csIn = raw ++ lf :: rest) (hlf : lf ∉ raw)
    (hline : decodeLine raw = .command i) : s.stepLine = ((s.takeLines 1 rest).runCommand i).setIdle false := by
  unfold State.stepLine
  rw [hq, fetchLine_line raw rest hlf, hline]
  rfl

theorem State.stepLine_ignoredHead (hq : s.csIn = raw ++ lf :: rest) (hlf : lf ∉ raw) (hline : decodeLine raw = .ignored) :
    s.stepLine = (s.takeLines 1 rest).stepLine := by
  unfold State.stepLine
  rw [hq, fetchLine_line raw rest hlf, hline]
  exact s.takeFetched_afterIgnored _ rest

theorem State.stepLine_noLine (h : lf ∉ s.csIn) : s.stepLine = s.setIdle true := by
  unfold State.stepLine
  rw [fetchLine_noLine _ h]
  exact congrArg (State.setIdle true) s.takeLines_zero

end

/-! ## The obligations -/

/-- Settles O27: the search ends at the first line, whose command runs after the line is counted. -/
theorem decStepRunsTheNextCommand : Obligations.DecStepRunsTheNextCommand := by
  intro s raw rest i hdims hq hlf hdecode
  obtain ⟨-, hcommand⟩ := decodedInstructionsAreWellFormed.1 raw i hdecode
  refine ⟨_, exec_command hcommand _, ?_⟩
  rw [exec_decStep hdims, State.stepLine_commandHead (s := s.clearConfig) hq hlf (decodeLine_of_decode_ok hdecode)]
  rfl

/-- Settles O28: the search that passed over the line is the search in the state that has taken it. -/
theorem decStepPassesOverIgnoredLines : Obligations.DecStepPassesOverIgnoredLines := by
  intro s raw rest hdims hq hlf hdecode
  refine ⟨_, exec_decStep hdims, ?_⟩
  rw [State.stepLine_ignoredHead (s := s.clearConfig) hq hlf (decodeLine_of_decode_ignored hdecode)]
  exact exec_decStep (s := s.takeLines 1 rest) hdims

/-- Settles O30: the search finds no LF, so nothing is taken. -/
theorem decStepWithoutALineIsIdle : Obligations.DecStepWithoutALineIsIdle := by
  intro s hdims hlf
  rw [exec_decStep hdims, State.stepLine_noLine (s := s.clearConfig) hlf]
  rfl

end Sys2Proof.Machine
end

section
/-! PROOFS (O31, O32, O33). `DEC_RUN` as the repetition of `DEC_STEP`, and the lines a run takes (43_host_ops.md R164). -/

namespace Sys2Proof.Machine

section
variable {s t u : State}

/-! ## Whole lines taken and counted -/

/-- From `s` to `t` the decoder has removed whole lines from the head of `CS_IN` and counted each (10_state.md R12, R36). -/
def State.TakesLinesTo (s t : State) : Prop :=
  ∃ consumed, s.csIn = consumed ++ t.csIn ∧ (consumed = [] ∨ consumed.getLast? = some lf) ∧
    t.lineNo = satAdd s.lineNo (consumed.count lf)

theorem State.TakesLinesTo.refl (s : State) : s.TakesLinesTo s := ⟨[], rfl, .inl rfl, (satAdd_zero _).symm⟩

theorem State.TakesLinesTo.trans (h : s.TakesLinesTo t) (h' : t.TakesLinesTo u) : s.TakesLinesTo u := by
  obtain ⟨first, hq, hlast, hcount⟩ := h
  obtain ⟨second, hq', hlast', hcount'⟩ := h'
  refine ⟨first ++ second, by rw [hq, hq', List.append_assoc], ?_, by rw [hcount', hcount, satAdd_add, List.count_append]⟩
  rcases hlast' with rfl | hlast'
  · simpa using hlast
  · exact .inr (by rw [List.getLast?_append, hlast']; rfl)

theorem State.takesLinesTo_stepLine (s : State) : s.TakesLinesTo s.stepLine := by
  obtain ⟨consumed, hq, hlast, hcount⟩ := fetchLine_consumes s.csIn
  exact ⟨consumed, by rwa [State.stepLine_csIn], hlast, by rw [State.stepLine_lineNo, hcount]⟩

theorem State.takesLinesTo_runLines (fuel : Nat) (stop : Option Nat) (s : State) : s.TakesLinesTo (s.runLines fuel stop) :=
  State.runLines_keeps s.TakesLinesTo (fun t ht => ht.trans t.takesLinesTo_stepLine) fuel stop s (.refl s)

/-- Where no line is left, every LF there was has been counted. -/
theorem State.TakesLinesTo.lineNo_of_noLine (h : s.TakesLinesTo t) (hlf : lf ∉ t.csIn) :
    t.lineNo = satAdd s.lineNo (s.csIn.count lf) := by
  obtain ⟨consumed, hq, -, hcount⟩ := h
  rw [hcount, hq, List.count_append, List.count_eq_zero_of_not_mem hlf, Nat.add_zero]

/-! ## The stop request is no part of what a line does (log 5) -/

theorem State.runCommand_setStop (i : Instr) (o : Option Nat) (s : State) :
    (s.setStop o).runCommand i = (s.runCommand i).setStop o := by
  cases i with
  | tile x y _ _ w h payload =>
    simp only [State.runCommand, State.drawTile]
    rw [apply_ite (State.setStop o)]
    rfl
  | rect x1 y1 x2 y2 color =>
    simp only [State.runCommand, State.drawRect]
    rw [apply_ite (State.setStop o)]
    rfl
  | _ => rfl

theorem State.stepLine_setStop (o : Option Nat) (s : State) : (s.setStop o).stepLine = s.stepLine.setStop o := by
  cases hf : (fetchLine s.csIn).found with
  | idle => rw [State.stepLine_idle hf, State.stepLine_idle (s := s.setStop o) hf]; rfl
  | error e => rw [State.stepLine_error hf, State.stepLine_error (s := s.setStop o) hf]; rfl
  | command i =>
    rw [State.stepLine_command hf, State.stepLine_command (s := s.setStop o) hf]
    exact congrArg (State.setIdle false) (State.runCommand_setStop i o (s.takeLines _ _))

/-! ## The first line of a run, and the rest -/

/-- A run ends with its first step where that is idle or reaches the request, else it goes on with one line less asked for. -/
theorem State.runLines_succ (fuel : Nat) (stop : Option Nat) (s : State) :
    s.runLines (fuel + 1) stop =
      if s.stepLine.decIdle = true ∨ ∃ n ∈ stop, n ≤ 1 then s.stepLine else s.stepLine.runLines fuel (stop.map (· - 1)) := by
  cases stop with
  | none => simp [State.runLines]
  | some n => by_cases hidle : s.stepLine.decIdle = true <;> simp [State.runLines, hidle]

theorem State.runLines_setStop (fuel : Nat) (stop o : Option Nat) (s : State) :
    (s.setStop o).runLines fuel stop = (s.runLines fuel stop).setStop o := by
  induction fuel generalizing stop s with
  | zero => rfl
  | succ fuel ih =>
    rw [State.runLines_succ, State.runLines_succ, State.stepLine_setStop, ih, apply_ite (State.setStop o)]
    rfl

/-- A step that is not idle shortens the queue (43_host_ops.md R164). -/
theorem State.stepLine_shortens (h : ¬ s.stepLine.decIdle = true) : s.stepLine.csIn.length < s.csIn.length := by
  rcases fetchLine_cases s.csIn with ⟨hidle, -⟩ | ⟨-, hlen⟩
  · exact absurd (by simpa using s.stepLine_decIdle.trans (decide_eq_true hidle)) h
  · rwa [State.stepLine_csIn]

theorem State.runStream_eq (s : State) :
    s.runStream =
      if s.stepLine.decIdle = true ∨ ∃ n ∈ s.stopAfter, n ≤ 1 then s.stepLine.setStop none
      else (s.stepLine.setStop (s.stopAfter.map (· - 1))).runStream := by
  unfold State.runStream
  rw [State.runLines_succ]
  by_cases hends : s.stepLine.decIdle = true ∨ ∃ n ∈ s.stopAfter, n ≤ 1
  · rw [if_pos hends, if_pos hends]
  · have hshorter := State.stepLine_shortens (not_or.1 hends).1
    rw [if_neg hends, if_neg hends, State.runLines_setStop, State.setStop_csIn, State.setStop_stopAfter,
      State.runLines_fuel _ (s.stepLine.csIn.length + 1) _ s.stepLine hshorter (Nat.lt_succ_self _)]
    rfl

/-- `DEC_RUN` is its first `DEC_STEP`, and, unless that is idle or reaches the request, `DEC_RUN` with one line less asked for. -/
theorem exec_decRun_eq (h : s.DimsOk) :
    exec .decRun s =
      if s.clearConfig.stepLine.decIdle = true ∨ ∃ n ∈ s.stopAfter, n ≤ 1 then .next (s.clearConfig.stepLine.setStop none)
      else exec .decRun (s.clearConfig.stepLine.setStop (s.stopAfter.map (· - 1))) := by
  have hframe := s.clearConfig.stepLine_frame
  generalize hu : s.clearConfig.stepLine = u at hframe
  have hdims : (u.setStop (s.stopAfter.map (· - 1))).DimsOk := by rw [hframe]; exact h
  have hclear : (u.setStop (s.stopAfter.map (· - 1))).clearConfig = u.setStop (s.stopAfter.map (· - 1)) := by
    rw [hframe]; rfl
  rw [exec_decRun h, State.runStream_eq, hu, exec_decRun hdims, hclear, State.clearConfig_stopAfter,
    apply_ite Host.Outcome.next]

end

/-! ## The obligations -/

/-- Settles O31: a run takes whole lines, and ends where none is left. -/
theorem decRunConsumesEveryLine : Obligations.DecRunConsumesEveryLine := by
  intro s hdims hstop
  have htakes := State.takesLinesTo_runLines (s.csIn.length + 1) s.stopAfter s.clearConfig
  obtain ⟨hidle, hlf⟩ := State.runLines_ends (s.csIn.length + 1) s.clearConfig (Nat.lt_succ_self _)
  rw [← hstop] at hidle hlf
  have hlineNo := htakes.lineNo_of_noLine hlf
  obtain ⟨consumed, hq, hlast, -⟩ := htakes
  exact ⟨_, consumed, exec_decRun hdims, hidle, hq, hlf, hlast, (congrArg BitVec.toNat hlineNo).trans (satAdd_toNat _ _)⟩

/-- Settles O32: without a request only idleness ends the run, and the rest of the run has no request either. -/
theorem decRunRepeatsDecStep : Obligations.DecRunRepeatsDecStep := by
  intro s hdims hstop
  have hnone : s.clearConfig.stepLine.setStop none = s.clearConfig.stepLine := by
    rw [State.stepLine_frame, State.setStop, ← hstop]; rfl
  refine ⟨_, exec_decStep hdims, ?_⟩
  rw [exec_decRun_eq hdims]
  simp [hstop, hnone]

/-- Settles O33: a request of at most one line ends the run with its first, and a larger one is one less for the rest. -/
theorem decRunStopsOnRequest : Obligations.DecRunStopsOnRequest := by
  intro s n hdims hstop
  refine ⟨_, exec_decStep hdims, ?_⟩
  rw [exec_decRun_eq hdims]
  simp only [hstop, Option.mem_some_iff, exists_eq_left', Option.map_some]
  rfl

end Sys2Proof.Machine
end

section
/-! PROOFS (O34, O37, O56). `DEC_RESET`, and what a step does with a word written to `CTRL` (43_host_ops.md R160, R165, R167). -/

namespace Sys2Proof.Machine

theorem State.checkConfig_dims_fail {s : State} (h : ¬ s.DimsOk) : s.checkConfig .dims = some .dimensions := by
  unfold State.DimsOk at h
  rw [State.checkConfig_dims, if_pos (by omega)]

theorem decodeCtrl_reserved {v : Word} (h : v.toNat % 16 = 0 ∨ 6 ≤ v.toNat % 16) : decodeCtrl v = none := by
  unfold decodeCtrl
  split
  case h_6 => rfl
  all_goals omega

section
variable {s : State} {v : Word} {q : List HostAction}

/-- A `CTRL` word that names an operation starts it (10_state.md R27, 43_host_ops.md R160). -/
theorem step_ctrl {i : Instr} (hq : s.hostQ = .write 0x04 v :: q) (hv : decodeCtrl v = some i) :
    step s = exec i { s with hostQ := q } :=
  step_starts hq hv

/-- A `CTRL` word that names none is taken without effect (43_host_ops.md R167). -/
theorem step_ctrlReserved (hq : s.hostQ = .write 0x04 v :: q) (hv : decodeCtrl v = none) :
    step s = .next { s with hostQ := q } :=
  step_acts hq hv

end

/-! ## The obligations -/

/-- Settles O34: the two outcomes of the check. -/
theorem decResetStartsAfresh : Obligations.DecResetStartsAfresh := fun _ =>
  ⟨exec_decReset, fun hbad => congrArg Host.Outcome.next (State.guarded_fail (State.checkConfig_dims_fail hbad) _)⟩

/-- Settles O37: a reserved word decodes to no operation. -/
theorem reservedOperationsDoNothing : Obligations.ReservedOperationsDoNothing := fun _ _ _ hv hq =>
  step_ctrlReserved hq (decodeCtrl_reserved hv)

/-- Settles O56: a placed code is a pending write to `CTRL`; a placed line is taken by the `DEC_STEP` placed with it (log 1). -/
theorem stepRunsTheDecodedInstruction : Obligations.StepRunsTheDecodedInstruction := by
  refine ⟨fun _ _ _ _ hq hdecode => step_ctrl hq (decode_ctrl_eq_ok hdecode),
    fun _ _ _ hdecode => step_ctrl rfl (decode_ctrl_eq_ok hdecode), fun s raw i hdims hlf hdecode => ?_⟩
  obtain ⟨t, hcommand, hstep⟩ :=
    decStepRunsTheNextCommand { s with csIn := raw ++ lf :: s.csIn } raw s.csIn i hdims rfl hlf hdecode
  exact ⟨t, hcommand, (step_ctrl rfl rfl).trans hstep⟩

end Sys2Proof.Machine
end

section
/-! PROOFS (O29). `DEC_STEP` with a faulty line at the head of `CS_IN` (42_decoder.md R138, 60_exceptions.md R190). -/

namespace Sys2Proof

theorem decodeLine_of_decode_faulty {raw : List Byte} {e : LineError} (h : decode (.line raw) = .error (.faulty e)) :
    decodeLine raw = .error e := by
  unfold decode at h
  cases hline : decodeLine raw <;> simp only [hline] at h <;> cases h
  rfl

/-- The table lists the model's codes (60_exceptions.md R181). -/
theorem causeCodes_code : ∀ p ∈ causeCodes, p.2 = p.1.code := by decide

end Sys2Proof

namespace Sys2Proof.Machine

theorem State.stepLine_faultyHead {s : State} {raw rest : List Byte} {e : LineError} (hq : s.csIn = raw ++ lf :: rest)
    (hlf : lf ∉ raw) (hline : decodeLine raw = .error e) :
    s.stepLine = ((s.takeLines 1 rest).logDiag e).setIdle false := by
  unfold State.stepLine
  rw [hq, fetchLine_line raw rest hlf, hline]
  rfl

/-- Settles O29: the search ends at the first line, whose cause is logged after the line is counted. -/
theorem decStepLogsAFaultyLine : Obligations.DecStepLogsAFaultyLine := by
  intro s raw rest e code hdims hq hlf hdecode hcode
  obtain rfl : code = e.code := causeCodes_code _ hcode
  rw [exec_decStep hdims, State.stepLine_faultyHead (s := s.clearConfig) hq hlf (decodeLine_of_decode_faulty hdecode)]
  rfl

end Sys2Proof.Machine
end

section
/-! PROOFS (O36). The configuration check, its failure for each kind and its passing (60_exceptions.md R184, R185, 43_host_ops.md
R166). -/

namespace Sys2Proof.Machine

section
variable {s : State}

/-! ## The check in the words of the registers -/

theorem State.dimsOk_iff : s.DimsOk ↔ s.panelW ≠ 0 ∧ s.panelH ≠ 0 :=
  and_congr (not_congr s.panelW_zero.symm) (not_congr s.panelH_zero.symm)

theorem State.levelsAscend_eq_false :
    s.levelsAscend = false ↔ ∃ k, k < s.levelCount.toNat - 1 ∧ s.level (k + 1) ≤ s.level k := by
  unfold State.levelsAscend State.levelsUsed
  simp only [List.all_eq_false, List.mem_range, decide_eq_true_eq, Nat.not_lt]

theorem State.levelsUsed_illegal :
    (s.levelsUsed ≠ 8 ∧ s.levelsUsed ≠ 16) ↔ (s.levelCount ≠ 8 ∧ s.levelCount ≠ 16) :=
  and_congr (not_congr (BitVec.toNat_inj (y := 8))) (not_congr (BitVec.toNat_inj (y := 16)))

/-- A failed full check gives the code of the first test that fails; where the four before it pass, that is the mode's
(60_exceptions.md R184). -/
theorem State.checkConfig_full_code {e : ConfigError} (h : s.checkConfig .full = some e) :
    e.code =
      if s.panelW = 0 ∨ s.panelH = 0 then 0x11
      else if s.tileSize = 0 then 0x12
      else if s.levelCount ≠ 8 ∧ s.levelCount ≠ 16 then 0x13
      else if ∃ k, k < s.levelCount.toNat - 1 ∧ s.level (k + 1) ≤ s.level k then 0x14
      else 0x15 := by
  unfold State.checkConfig at h
  simp only [State.levelsUsed_illegal, State.levelsAscend_eq_false] at h
  split_ifs at h ⊢ <;> cases h <;> rfl

/-! ## The two outcomes of an operation -/

/-- An encoder operation whose check fails reports the first failing test and changes nothing else (60_exceptions.md R185). -/
theorem exec_encoder_fail {i : Instr} (hi : i = .quantize ∨ i = .encode) (h : ¬ s.ConfigOk) :
    ∃ e, s.checkConfig .full = some e ∧ exec i s = .next (s.raiseConfig e) := by
  obtain ⟨enc, -, hexec⟩ := exec_encoder hi
  rw [hexec]
  rcases State.guarded_cases .full enc s with ⟨e, hcheck, hg⟩ | ⟨hpass, -⟩
  · exact ⟨e, hcheck, congrArg _ hg⟩
  · exact absurd (s.checkConfig_full_none.1 hpass) h

/-- A decoder operation whose check fails reports the dimensions and changes nothing else (60_exceptions.md R185). -/
theorem exec_decoder_fail {i : Instr} (hi : i = .decStep ∨ i = .decRun ∨ i = .decReset) (h : ¬ s.DimsOk) :
    exec i s = .next (s.raiseConfig .dimensions) := by
  obtain ⟨dec, -, hexec⟩ := exec_decoder hi
  rw [hexec, State.guarded_fail (State.checkConfig_dims_fail h)]

/-- An encoder operation whose check passes ends with the error state it cleared (43_host_ops.md R166). -/
theorem exec_encoder_pass {i : Instr} (hi : i = .quantize ∨ i = .encode) (h : s.ConfigOk) :
    ∃ t, exec i s = .next t ∧ t.cfgErr = false ∧ t.errCode = 0 := by
  obtain ⟨enc, he, hexec⟩ := exec_encoder hi
  rw [hexec, State.guarded_pass (s.checkConfig_full_none.2 h), ← he.clearConfig_idem]
  exact ⟨_, rfl, rfl, rfl⟩

/-- A decoder operation whose check passes ends with the error state it cleared (43_host_ops.md R166). -/
theorem exec_decoder_pass {i : Instr} (hi : i = .decStep ∨ i = .decRun ∨ i = .decReset) (h : s.DimsOk) :
    ∃ t, exec i s = .next t ∧ t.cfgErr = false ∧ t.errCode = 0 := by
  obtain ⟨dec, hd, hexec⟩ := exec_decoder hi
  rw [hexec, State.guarded_pass (s.checkConfig_dims_none.2 h), ← hd.clearConfig_idem]
  exact ⟨_, rfl, rfl, rfl⟩

end

/-! ## The obligation -/

/-- Settles O36: each operation is an effect behind its check, which fails with the first failing test's code or passes. -/
theorem configurationErrorsComeInOrder : Obligations.ConfigurationErrorsComeInOrder := by
  refine fun s i => ⟨fun hi => ⟨fun hbad => ?_, exec_encoder_pass hi⟩, fun hi => ⟨fun hzero => ?_, fun hw hh => ?_⟩⟩
  · obtain ⟨e, hcheck, hexec⟩ := exec_encoder_fail hi hbad
    rw [hexec, ← State.checkConfig_full_code hcheck]
    rfl
  · refine exec_decoder_fail hi fun hdims => ?_
    obtain ⟨hw, hh⟩ := State.dimsOk_iff.1 hdims
    exact hzero.elim hw hh
  · exact exec_decoder_pass hi (State.dimsOk_iff.2 ⟨hw, hh⟩)

end Sys2Proof.Machine
end
